-- ==== Sys2Proof/Word.lean ====
section
/-! DEFINITION. The two widths of the machine: bytes of data, 16-bit addresses (rule R5). -/

namespace Sys2Proof

/-- A data byte: `A`, `X`, `Y`, `SP`, `P`, `fetched` and every memory byte (R5). -/
abbrev Byte := BitVec 8

/-- A 16-bit quantity: `PC`, `address_abs`, `address_rel`, a processor address (R5). -/
abbrev Word := BitVec 16

end Sys2Proof
end

