-- ==== Sys2Proof/Machine/Bits.lean ====
section
/-! DEFINITION. Byte order, extension and bit-field helpers (rules R7, R8, R96). -/

namespace Sys2Proof

/-- `hi(a)` is `a[15:8]` (R7). -/
def hi (w : Word) : Byte := w.extractLsb' 8 8

/-- `lo(a)` is `a[7:0]` (R7). -/
def lo (w : Word) : Byte := w.extractLsb' 0 8

/-- `{h, l}`, the 16-bit concatenation of two bytes (R8). -/
def mk16 (h l : Byte) : Word := h ++ l

/-- `zext_16` (R8). -/
def zext16 (b : Byte) : Word := b.setWidth 16

/-- `sext_16`: `b` when `b[7] = 0` and `0xFF00 | b` when `b[7] = 1` (R8). -/
def sext16 (b : Byte) : Word := if b.getLsbD 7 then 0xFF00 ||| zext16 b else zext16 b

/-- A flag as a number, for the carry that enters an addition. -/
def bit16 (b : Bool) : Word := if b then 1 else 0

end Sys2Proof
end

