-- ==== Sys2Proof/Config.lean ====
section
/-! DEFINITION. What an implementation fixes: the parameters of rule R6 that are constants, and the free value of R85.
The default decode table is in Decode.lean; the decode table and the device list of a machine are held by its state. -/

namespace Sys2Proof.Config

/-- The parameters `RESET_A`, `RESET_X`, `RESET_Y` and `RESET_P_OTHER` of R6 (R22, R36, R330). Bit 5 of `pOther` does not
matter: reset sets it. -/
structure ResetParams where
  a : Byte
  x : Byte
  y : Byte
  pOther : Byte
  deriving DecidableEq, Repr

/-- The defaults of R6 (the spec's decision D3). DESIGN CHOICE, log 4. -/
def resetDefaults : ResetParams := { a := 0x00, x := 0x00, y := 0x00, pOther := 0x00 }

/-- What reset forces `SP` to (R27, R330). -/
def resetSP : Byte := 0xFD

/-- The cycle count reset sets (R330, R342). -/
def resetCycles : Nat := 8

/-- The default of `PRG_BANK_SIZE` (R6, R82). -/
def prgBankSize : Nat := 0x4000

/-- The default of `CHR_BANK_SIZE` (R6, R82). -/
def chrBankSize : Nat := 0x2000

/-- The bytes behind the mirrored RAM (R50, R75). -/
def mirroredSize : Nat := 0x0800

/-- The size of the mirrored RAM's window (R75). -/
def ramWindowSize : Nat := 0x2000

/-- The default base of `RAM_WINDOW` (R75). -/
def ramWindowBase : Word := 0x0000

/-- The bytes of the flat RAM (R50, R75). -/
def flatSize : Nat := 0x10000

/-- What a byte of storage reads as when nothing is listed for it. DESIGN CHOICE (`MEM_INIT` is OPEN, R50), unsafe for
claims that start at `State.reset`: log 3. -/
def blank : Byte := 0x00

/-- FREE VALUE: the byte the `n`-th read of a picture unit returns (R85: an unconstrained byte, a draw). It has no body,
so nothing can be proved about its value: log 6. -/
opaque pictureDraw : Nat → Byte

end Sys2Proof.Config
end

