-- ==== Sys2Proof/Syntax.lean ====
section
/-! DEFINITION. The instruction set as syntax: mnemonics, addressing modes, operands, instructions. -/

namespace Sys2Proof

/-- The 56 mnemonics of R121 and the default no-op of R248. -/
inductive Mnemonic where
  | adc | and | asl | bcc | bcs | beq | bit | bmi | bne | bpl | brk | bvc | bvs | clc | cld | cli | clv | cmp | cpx | cpy
  | dec | dex | dey | eor | inc | inx | iny | jmp | jsr | lda | ldx | ldy | lsr | nop | ora | pha | php | pla | plp | rol
  | ror | rti | rts | sbc | sec | sed | sei | sta | stx | sty | tax | tay | tsx | txa | txs | tya | dnop
  deriving DecidableEq, Repr

/-- The twelve addressing-mode tags of R10. -/
inductive Mode where
  | imp | imm | zp0 | zpx | zpy | abs | abx | aby | ind | izx | izy | rel
  deriving DecidableEq, Repr

/-- One record of the decode table (R114); the opcode byte of the record is its place in the table. -/
structure OpRecord where
  mnemonic : Mnemonic
  mode : Mode
  baseCycles : Nat
  deriving DecidableEq, Repr

/-- An operand: its mode tag together with the operand bytes that mode consumes (R111). -/
inductive Operand where
  /-- implied: the operand is the accumulator (R161) -/
  | imp
  /-- immediate: the operand byte itself (R162) -/
  | imm (value : Byte)
  /-- zero-page (R163) -/
  | zp0 (addr : Byte)
  /-- zero-page indexed by `X` (R164) -/
  | zpx (base : Byte)
  /-- zero-page indexed by `Y` (R165) -/
  | zpy (base : Byte)
  /-- absolute (R166) -/
  | abs (addr : Word)
  /-- absolute indexed by `X` (R167) -/
  | abx (base : Word)
  /-- absolute indexed by `Y` (R168) -/
  | aby (base : Word)
  /-- indirect (R169) -/
  | ind (ptr : Word)
  /-- indexed-indirect (R170) -/
  | izx (base : Byte)
  /-- indirect-indexed (R171) -/
  | izy (ptr : Byte)
  /-- relative (R172) -/
  | rel (disp : Byte)
  deriving DecidableEq, Repr

/-- The mode tag of an operand. -/
def Operand.mode : Operand → Mode
  | .imp => .imp
  | .imm _ => .imm
  | .zp0 _ => .zp0
  | .zpx _ => .zpx
  | .zpy _ => .zpy
  | .abs _ => .abs
  | .abx _ => .abx
  | .aby _ => .aby
  | .ind _ => .ind
  | .izx _ => .izx
  | .izy _ => .izy
  | .rel _ => .rel

/-- An instruction: one constructor per mnemonic of the opcode table, with its operand. The mnemonics whose rule says
"mode `IMP` only" carry none; a branch carries its displacement byte; the default no-op carries the opcode byte it was
decoded from, since 105 bytes decode to it (R125). -/
inductive Instr where
  | adc (o : Operand)
  | and (o : Operand)
  | asl (o : Operand)
  | bcc (disp : Byte)
  | bcs (disp : Byte)
  | beq (disp : Byte)
  | bit (o : Operand)
  | bmi (disp : Byte)
  | bne (disp : Byte)
  | bpl (disp : Byte)
  | brk
  | bvc (disp : Byte)
  | bvs (disp : Byte)
  | clc
  | cld
  | cli
  | clv
  | cmp (o : Operand)
  | cpx (o : Operand)
  | cpy (o : Operand)
  | dec (o : Operand)
  | dex
  | dey
  | eor (o : Operand)
  | inc (o : Operand)
  | inx
  | iny
  | jmp (o : Operand)
  | jsr (addr : Word)
  | lda (o : Operand)
  | ldx (o : Operand)
  | ldy (o : Operand)
  | lsr (o : Operand)
  | nop
  | ora (o : Operand)
  | pha
  | php
  | pla
  | plp
  | rol (o : Operand)
  | ror (o : Operand)
  | rti
  | rts
  | sbc (o : Operand)
  | sec
  | sed
  | sei
  | sta (o : Operand)
  | stx (o : Operand)
  | sty (o : Operand)
  | tax
  | tay
  | tsx
  | txa
  | txs
  | tya
  | dnop (opcode : Byte)
  deriving DecidableEq, Repr

/-- The mnemonic of an instruction. -/
def Instr.mnemonic : Instr → Mnemonic
  | .adc _ => .adc
  | .and _ => .and
  | .asl _ => .asl
  | .bcc _ => .bcc
  | .bcs _ => .bcs
  | .beq _ => .beq
  | .bit _ => .bit
  | .bmi _ => .bmi
  | .bne _ => .bne
  | .bpl _ => .bpl
  | .brk => .brk
  | .bvc _ => .bvc
  | .bvs _ => .bvs
  | .clc => .clc
  | .cld => .cld
  | .cli => .cli
  | .clv => .clv
  | .cmp _ => .cmp
  | .cpx _ => .cpx
  | .cpy _ => .cpy
  | .dec _ => .dec
  | .dex => .dex
  | .dey => .dey
  | .eor _ => .eor
  | .inc _ => .inc
  | .inx => .inx
  | .iny => .iny
  | .jmp _ => .jmp
  | .jsr _ => .jsr
  | .lda _ => .lda
  | .ldx _ => .ldx
  | .ldy _ => .ldy
  | .lsr _ => .lsr
  | .nop => .nop
  | .ora _ => .ora
  | .pha => .pha
  | .php => .php
  | .pla => .pla
  | .plp => .plp
  | .rol _ => .rol
  | .ror _ => .ror
  | .rti => .rti
  | .rts => .rts
  | .sbc _ => .sbc
  | .sec => .sec
  | .sed => .sed
  | .sei => .sei
  | .sta _ => .sta
  | .stx _ => .stx
  | .sty _ => .sty
  | .tax => .tax
  | .tay => .tay
  | .tsx => .tsx
  | .txa => .txa
  | .txs => .txs
  | .tya => .tya
  | .dnop _ => .dnop

/-- The operand of an instruction, with the mode tag its table record has (R120). -/
def Instr.operand : Instr → Operand
  | .adc o => o
  | .and o => o
  | .asl o => o
  | .bcc d => .rel d
  | .bcs d => .rel d
  | .beq d => .rel d
  | .bit o => o
  | .bmi d => .rel d
  | .bne d => .rel d
  | .bpl d => .rel d
  | .brk => .imp
  | .bvc d => .rel d
  | .bvs d => .rel d
  | .clc => .imp
  | .cld => .imp
  | .cli => .imp
  | .clv => .imp
  | .cmp o => o
  | .cpx o => o
  | .cpy o => o
  | .dec o => o
  | .dex => .imp
  | .dey => .imp
  | .eor o => o
  | .inc o => o
  | .inx => .imp
  | .iny => .imp
  | .jmp o => o
  | .jsr w => .abs w
  | .lda o => o
  | .ldx o => o
  | .ldy o => o
  | .lsr o => o
  | .nop => .imp
  | .ora o => o
  | .pha => .imp
  | .php => .imp
  | .pla => .imp
  | .plp => .imp
  | .rol o => o
  | .ror o => o
  | .rti => .imp
  | .rts => .imp
  | .sbc o => o
  | .sec => .imp
  | .sed => .imp
  | .sei => .imp
  | .sta o => o
  | .stx o => o
  | .sty o => o
  | .tax => .imp
  | .tay => .imp
  | .tsx => .imp
  | .txa => .imp
  | .txs => .imp
  | .tya => .imp
  | .dnop _ => .imp

end Sys2Proof
end

