-- ==== Sys2Proof/WellFormed.lean ====
section
/-! DEFINITION. Which instructions the default opcode table has: the modes of each mnemonic as R121 lists them, and the
bytes that R120's matrix leaves unassigned. -/

namespace Sys2Proof

/-- The 105 bytes that R120's matrix does not assign, one matrix row a line (R125). -/
def unassigned : List Byte :=
  [0x02, 0x03, 0x04, 0x07, 0x0B, 0x0C, 0x0F] ++
  [0x12, 0x13, 0x14, 0x17, 0x1A, 0x1B, 0x1C, 0x1F] ++
  [0x22, 0x23, 0x27, 0x2B, 0x2F] ++
  [0x32, 0x33, 0x34, 0x37, 0x3A, 0x3B, 0x3C, 0x3F] ++
  [0x42, 0x43, 0x44, 0x47, 0x4B, 0x4F] ++
  [0x52, 0x53, 0x54, 0x57, 0x5A, 0x5B, 0x5C, 0x5F] ++
  [0x62, 0x63, 0x64, 0x67, 0x6B, 0x6F] ++
  [0x72, 0x73, 0x74, 0x77, 0x7A, 0x7B, 0x7C, 0x7F] ++
  [0x80, 0x82, 0x83, 0x87, 0x89, 0x8B, 0x8F] ++
  [0x92, 0x93, 0x97, 0x9B, 0x9C, 0x9E, 0x9F] ++
  [0xA3, 0xA7, 0xAB, 0xAF] ++
  [0xB2, 0xB3, 0xB7, 0xBB, 0xBF] ++
  [0xC2, 0xC3, 0xC7, 0xCB, 0xCF] ++
  [0xD2, 0xD3, 0xD4, 0xD7, 0xDA, 0xDB, 0xDC, 0xDF] ++
  [0xE2, 0xE3, 0xE7, 0xEB, 0xEF] ++
  [0xF2, 0xF3, 0xF4, 0xF7, 0xFA, 0xFB, 0xFC, 0xFF]

/-- The instruction has a row in the default table: its mode is one R121 lists for its mnemonic, and a default no-op
carries an unassigned byte. -/
def Instr.wellFormed : Instr → Bool
  | .adc o => o.mode ∈ [.imm, .zp0, .zpx, .abs, .abx, .aby, .izx, .izy]
  | .and o => o.mode ∈ [.imm, .zp0, .zpx, .abs, .abx, .aby, .izx, .izy]
  | .asl o => o.mode ∈ [.imp, .zp0, .zpx, .abs, .abx]
  | .bcc _ => true
  | .bcs _ => true
  | .beq _ => true
  | .bit o => o.mode ∈ [.zp0, .abs]
  | .bmi _ => true
  | .bne _ => true
  | .bpl _ => true
  | .brk => true
  | .bvc _ => true
  | .bvs _ => true
  | .clc => true
  | .cld => true
  | .cli => true
  | .clv => true
  | .cmp o => o.mode ∈ [.imm, .zp0, .zpx, .abs, .abx, .aby, .izx, .izy]
  | .cpx o => o.mode ∈ [.imm, .zp0, .abs]
  | .cpy o => o.mode ∈ [.imm, .zp0, .abs]
  | .dec o => o.mode ∈ [.zp0, .zpx, .abs, .abx]
  | .dex => true
  | .dey => true
  | .eor o => o.mode ∈ [.imm, .zp0, .zpx, .abs, .abx, .aby, .izx, .izy]
  | .inc o => o.mode ∈ [.zp0, .zpx, .abs, .abx]
  | .inx => true
  | .iny => true
  | .jmp o => o.mode ∈ [.abs, .ind]
  | .jsr _ => true
  | .lda o => o.mode ∈ [.imm, .zp0, .zpx, .abs, .abx, .aby, .izx, .izy]
  | .ldx o => o.mode ∈ [.imm, .zp0, .zpy, .abs, .aby]
  | .ldy o => o.mode ∈ [.imm, .zp0, .zpx, .abs, .abx]
  | .lsr o => o.mode ∈ [.imp, .zp0, .zpx, .abs, .abx]
  | .nop => true
  | .ora o => o.mode ∈ [.imm, .zp0, .zpx, .abs, .abx, .aby, .izx, .izy]
  | .pha => true
  | .php => true
  | .pla => true
  | .plp => true
  | .rol o => o.mode ∈ [.imp, .zp0, .zpx, .abs, .abx]
  | .ror o => o.mode ∈ [.imp, .zp0, .zpx, .abs, .abx]
  | .rti => true
  | .rts => true
  | .sbc o => o.mode ∈ [.imm, .zp0, .zpx, .abs, .abx, .aby, .izx, .izy]
  | .sec => true
  | .sed => true
  | .sei => true
  | .sta o => o.mode ∈ [.zp0, .zpx, .abs, .abx, .aby, .izx, .izy]
  | .stx o => o.mode ∈ [.zp0, .zpy, .abs]
  | .sty o => o.mode ∈ [.zp0, .zpx, .abs]
  | .tax => true
  | .tay => true
  | .tsx => true
  | .txa => true
  | .txs => true
  | .tya => true
  | .dnop b => b ∈ unassigned

end Sys2Proof
end

