-- ==== Sys2Proof/Decode.lean ====
section
/-! DEFINITION. The decode table (R114, R120), the decoder over any bytes, and the encoder (R121, R111). -/

namespace Sys2Proof

/-! ## The decode table -/

/-- A decode table (the parameter `OPTABLE` of R6), laid out as R120's matrix: rows by high nibble, columns by low nibble. -/
abbrev OpTable := List (List OpRecord)

/-- The record of every byte not explicitly assigned (R114, R248). -/
def dnopRecord : OpRecord := ⟨.dnop, .imp, 1⟩

/-- `OPTABLE[opcode]`: total, "the dispatcher must never fail to find an opcode" (R114, R142). -/
def OpTable.lookup (t : OpTable) (opcode : Byte) : OpRecord :=
  (t.getD (opcode.toNat / 16) []).getD (opcode.toNat % 16) dnopRecord

/-- R120, row 0x. -/
def opRow0 : List OpRecord :=
  [⟨.brk, .imp, 7⟩, ⟨.ora, .izx, 6⟩, dnopRecord, dnopRecord,
   dnopRecord, ⟨.ora, .zp0, 3⟩, ⟨.asl, .zp0, 5⟩, dnopRecord,
   ⟨.php, .imp, 3⟩, ⟨.ora, .imm, 2⟩, ⟨.asl, .imp, 2⟩, dnopRecord,
   dnopRecord, ⟨.ora, .abs, 4⟩, ⟨.asl, .abs, 6⟩, dnopRecord]

/-- R120, row 1x. -/
def opRow1 : List OpRecord :=
  [⟨.bpl, .rel, 2⟩, ⟨.ora, .izy, 5⟩, dnopRecord, dnopRecord,
   dnopRecord, ⟨.ora, .zpx, 4⟩, ⟨.asl, .zpx, 6⟩, dnopRecord,
   ⟨.clc, .imp, 2⟩, ⟨.ora, .aby, 4⟩, dnopRecord, dnopRecord,
   dnopRecord, ⟨.ora, .abx, 4⟩, ⟨.asl, .abx, 7⟩, dnopRecord]

/-- R120, row 2x. -/
def opRow2 : List OpRecord :=
  [⟨.jsr, .abs, 6⟩, ⟨.and, .izx, 6⟩, dnopRecord, dnopRecord,
   ⟨.bit, .zp0, 3⟩, ⟨.and, .zp0, 3⟩, ⟨.rol, .zp0, 5⟩, dnopRecord,
   ⟨.plp, .imp, 4⟩, ⟨.and, .imm, 2⟩, ⟨.rol, .imp, 2⟩, dnopRecord,
   ⟨.bit, .abs, 4⟩, ⟨.and, .abs, 4⟩, ⟨.rol, .abs, 6⟩, dnopRecord]

/-- R120, row 3x. -/
def opRow3 : List OpRecord :=
  [⟨.bmi, .rel, 2⟩, ⟨.and, .izy, 5⟩, dnopRecord, dnopRecord,
   dnopRecord, ⟨.and, .zpx, 4⟩, ⟨.rol, .zpx, 6⟩, dnopRecord,
   ⟨.sec, .imp, 2⟩, ⟨.and, .aby, 4⟩, dnopRecord, dnopRecord,
   dnopRecord, ⟨.and, .abx, 4⟩, ⟨.rol, .abx, 7⟩, dnopRecord]

/-- R120, row 4x. -/
def opRow4 : List OpRecord :=
  [⟨.rti, .imp, 6⟩, ⟨.eor, .izx, 6⟩, dnopRecord, dnopRecord,
   dnopRecord, ⟨.eor, .zp0, 3⟩, ⟨.lsr, .zp0, 5⟩, dnopRecord,
   ⟨.pha, .imp, 3⟩, ⟨.eor, .imm, 2⟩, ⟨.lsr, .imp, 2⟩, dnopRecord,
   ⟨.jmp, .abs, 3⟩, ⟨.eor, .abs, 4⟩, ⟨.lsr, .abs, 6⟩, dnopRecord]

/-- R120, row 5x. -/
def opRow5 : List OpRecord :=
  [⟨.bvc, .rel, 2⟩, ⟨.eor, .izy, 5⟩, dnopRecord, dnopRecord,
   dnopRecord, ⟨.eor, .zpx, 4⟩, ⟨.lsr, .zpx, 6⟩, dnopRecord,
   ⟨.cli, .imp, 2⟩, ⟨.eor, .aby, 4⟩, dnopRecord, dnopRecord,
   dnopRecord, ⟨.eor, .abx, 4⟩, ⟨.lsr, .abx, 7⟩, dnopRecord]

/-- R120, row 6x. -/
def opRow6 : List OpRecord :=
  [⟨.rts, .imp, 6⟩, ⟨.adc, .izx, 6⟩, dnopRecord, dnopRecord,
   dnopRecord, ⟨.adc, .zp0, 3⟩, ⟨.ror, .zp0, 5⟩, dnopRecord,
   ⟨.pla, .imp, 4⟩, ⟨.adc, .imm, 2⟩, ⟨.ror, .imp, 2⟩, dnopRecord,
   ⟨.jmp, .ind, 5⟩, ⟨.adc, .abs, 4⟩, ⟨.ror, .abs, 6⟩, dnopRecord]

/-- R120, row 7x. -/
def opRow7 : List OpRecord :=
  [⟨.bvs, .rel, 2⟩, ⟨.adc, .izy, 5⟩, dnopRecord, dnopRecord,
   dnopRecord, ⟨.adc, .zpx, 4⟩, ⟨.ror, .zpx, 6⟩, dnopRecord,
   ⟨.sei, .imp, 2⟩, ⟨.adc, .aby, 4⟩, dnopRecord, dnopRecord,
   dnopRecord, ⟨.adc, .abx, 4⟩, ⟨.ror, .abx, 7⟩, dnopRecord]

/-- R120, row 8x. -/
def opRow8 : List OpRecord :=
  [dnopRecord, ⟨.sta, .izx, 6⟩, dnopRecord, dnopRecord,
   ⟨.sty, .zp0, 3⟩, ⟨.sta, .zp0, 3⟩, ⟨.stx, .zp0, 3⟩, dnopRecord,
   ⟨.dey, .imp, 2⟩, dnopRecord, ⟨.txa, .imp, 2⟩, dnopRecord,
   ⟨.sty, .abs, 4⟩, ⟨.sta, .abs, 4⟩, ⟨.stx, .abs, 4⟩, dnopRecord]

/-- R120, row 9x. -/
def opRow9 : List OpRecord :=
  [⟨.bcc, .rel, 2⟩, ⟨.sta, .izy, 6⟩, dnopRecord, dnopRecord,
   ⟨.sty, .zpx, 4⟩, ⟨.sta, .zpx, 4⟩, ⟨.stx, .zpy, 4⟩, dnopRecord,
   ⟨.tya, .imp, 2⟩, ⟨.sta, .aby, 5⟩, ⟨.txs, .imp, 2⟩, dnopRecord,
   dnopRecord, ⟨.sta, .abx, 5⟩, dnopRecord, dnopRecord]

/-- R120, row Ax. -/
def opRowA : List OpRecord :=
  [⟨.ldy, .imm, 2⟩, ⟨.lda, .izx, 6⟩, ⟨.ldx, .imm, 2⟩, dnopRecord,
   ⟨.ldy, .zp0, 3⟩, ⟨.lda, .zp0, 3⟩, ⟨.ldx, .zp0, 3⟩, dnopRecord,
   ⟨.tay, .imp, 2⟩, ⟨.lda, .imm, 2⟩, ⟨.tax, .imp, 2⟩, dnopRecord,
   ⟨.ldy, .abs, 4⟩, ⟨.lda, .abs, 4⟩, ⟨.ldx, .abs, 4⟩, dnopRecord]

/-- R120, row Bx. -/
def opRowB : List OpRecord :=
  [⟨.bcs, .rel, 2⟩, ⟨.lda, .izy, 5⟩, dnopRecord, dnopRecord,
   ⟨.ldy, .zpx, 4⟩, ⟨.lda, .zpx, 4⟩, ⟨.ldx, .zpy, 4⟩, dnopRecord,
   ⟨.clv, .imp, 2⟩, ⟨.lda, .aby, 4⟩, ⟨.tsx, .imp, 2⟩, dnopRecord,
   ⟨.ldy, .abx, 4⟩, ⟨.lda, .abx, 4⟩, ⟨.ldx, .aby, 4⟩, dnopRecord]

/-- R120, row Cx. -/
def opRowC : List OpRecord :=
  [⟨.cpy, .imm, 2⟩, ⟨.cmp, .izx, 6⟩, dnopRecord, dnopRecord,
   ⟨.cpy, .zp0, 3⟩, ⟨.cmp, .zp0, 3⟩, ⟨.dec, .zp0, 5⟩, dnopRecord,
   ⟨.iny, .imp, 2⟩, ⟨.cmp, .imm, 2⟩, ⟨.dex, .imp, 2⟩, dnopRecord,
   ⟨.cpy, .abs, 4⟩, ⟨.cmp, .abs, 4⟩, ⟨.dec, .abs, 6⟩, dnopRecord]

/-- R120, row Dx. -/
def opRowD : List OpRecord :=
  [⟨.bne, .rel, 2⟩, ⟨.cmp, .izy, 5⟩, dnopRecord, dnopRecord,
   dnopRecord, ⟨.cmp, .zpx, 4⟩, ⟨.dec, .zpx, 6⟩, dnopRecord,
   ⟨.cld, .imp, 2⟩, ⟨.cmp, .aby, 4⟩, dnopRecord, dnopRecord,
   dnopRecord, ⟨.cmp, .abx, 4⟩, ⟨.dec, .abx, 7⟩, dnopRecord]

/-- R120, row Ex. -/
def opRowE : List OpRecord :=
  [⟨.cpx, .imm, 2⟩, ⟨.sbc, .izx, 6⟩, dnopRecord, dnopRecord,
   ⟨.cpx, .zp0, 3⟩, ⟨.sbc, .zp0, 3⟩, ⟨.inc, .zp0, 5⟩, dnopRecord,
   ⟨.inx, .imp, 2⟩, ⟨.sbc, .imm, 2⟩, ⟨.nop, .imp, 2⟩, dnopRecord,
   ⟨.cpx, .abs, 4⟩, ⟨.sbc, .abs, 4⟩, ⟨.inc, .abs, 6⟩, dnopRecord]

/-- R120, row Fx. -/
def opRowF : List OpRecord :=
  [⟨.beq, .rel, 2⟩, ⟨.sbc, .izy, 5⟩, dnopRecord, dnopRecord,
   dnopRecord, ⟨.sbc, .zpx, 4⟩, ⟨.inc, .zpx, 6⟩, dnopRecord,
   ⟨.sed, .imp, 2⟩, ⟨.sbc, .aby, 4⟩, dnopRecord, dnopRecord,
   dnopRecord, ⟨.sbc, .abx, 4⟩, ⟨.inc, .abx, 7⟩, dnopRecord]

/-- The default `OPTABLE`, R120's matrix row by row (the spec's decision D1, log 1). -/
def defaultTable : OpTable :=
  [opRow0, opRow1, opRow2, opRow3, opRow4, opRow5, opRow6, opRow7,
   opRow8, opRow9, opRowA, opRowB, opRowC, opRowD, opRowE, opRowF]

/-- How many operand bytes follow the opcode byte (R111's table). -/
def Mode.operandCount : Mode → Nat
  | .imp => 0
  | .imm | .zp0 | .zpx | .zpy | .izx | .izy | .rel => 1
  | .abs | .abx | .aby | .ind => 2

/-- The disassembly metadata of R112: mnemonic, mode and operand-byte count, derived from the same table. -/
def OpTable.metadata (t : OpTable) (opcode : Byte) : Mnemonic × Mode × Nat :=
  let r := t.lookup opcode
  (r.mnemonic, r.mode, r.mode.operandCount)

/-- The mnemonics whose rule says "mode `IMP` only" (R115 (c)). -/
def Mnemonic.impliedOnly : Mnemonic → Bool
  | .brk | .clc | .cld | .cli | .clv | .dex | .dey | .inx | .iny | .nop | .pha | .php | .pla | .plp | .rti | .rts
  | .sec | .sed | .sei | .tax | .tay | .tsx | .txa | .txs | .tya | .dnop => true
  | _ => false

/-- The branch mnemonics (R115 (a)). -/
def Mnemonic.isBranch : Mnemonic → Bool
  | .bcc | .bcs | .beq | .bne | .bmi | .bpl | .bvc | .bvs => true
  | _ => false

/-- The mnemonics that write memory at the effective address in their memory form (R115 (d)). -/
def Mnemonic.writesOperand : Mnemonic → Bool
  | .sta | .stx | .sty | .inc | .dec | .asl | .lsr | .rol | .ror => true
  | _ => false

/-- The constraints (a) to (e) of R115 on one record. -/
def OpRecord.lawful (r : OpRecord) : Bool :=
  (r.mnemonic.isBranch == (r.mode == .rel)) &&
  (r.mnemonic != .jmp || r.mode == .abs || r.mode == .ind) &&
  (r.mnemonic != .jsr || r.mode == .abs) &&
  (r.mode != .ind || r.mnemonic == .jmp) &&
  (!r.mnemonic.impliedOnly || r.mode == .imp) &&
  (!r.mnemonic.writesOperand || (r.mode != .imm && r.mode != .rel)) &&
  decide (1 ≤ r.baseCycles)

/-- A table that meets R115. -/
def OpTable.lawful (t : OpTable) : Bool := t.all fun row => row.all OpRecord.lawful

/-! ## Decoding -/

/-- Why bytes do not decode. -/
inductive DecodeError where
  /-- there is no byte at all -/
  | noOpcode
  /-- the bytes end before the operand bytes of this opcode's mode do -/
  | truncated (opcode : Byte)
  /-- the table's record for this opcode pairs a mnemonic with a mode that R115 rules out (never with the default table) -/
  | unlawfulRecord (opcode : Byte)
  deriving DecidableEq, Repr

/-- Takes the operand bytes of a mode off the front: a 16-bit operand is `{byte 2, byte 1}` (R111, R113). -/
def takeOperand : Mode → List Byte → Option (Operand × List Byte)
  | .imp, rest => some (.imp, rest)
  | .imm, b :: rest => some (.imm b, rest)
  | .zp0, b :: rest => some (.zp0 b, rest)
  | .zpx, b :: rest => some (.zpx b, rest)
  | .zpy, b :: rest => some (.zpy b, rest)
  | .izx, b :: rest => some (.izx b, rest)
  | .izy, b :: rest => some (.izy b, rest)
  | .rel, b :: rest => some (.rel b, rest)
  | .abs, l :: h :: rest => some (.abs (mk16 h l), rest)
  | .abx, l :: h :: rest => some (.abx (mk16 h l), rest)
  | .aby, l :: h :: rest => some (.aby (mk16 h l), rest)
  | .ind, l :: h :: rest => some (.ind (mk16 h l), rest)
  | _, _ => none

/-- The instruction a mnemonic and an operand make; `none` for a pair that `Instr` has no constructor for, each of which
R115 (a), (b) or (c) rules out. -/
def assemble (opcode : Byte) : Mnemonic → Operand → Option Instr
  | .adc, o => some (.adc o)
  | .and, o => some (.and o)
  | .asl, o => some (.asl o)
  | .bcc, .rel d => some (.bcc d)
  | .bcs, .rel d => some (.bcs d)
  | .beq, .rel d => some (.beq d)
  | .bit, o => some (.bit o)
  | .bmi, .rel d => some (.bmi d)
  | .bne, .rel d => some (.bne d)
  | .bpl, .rel d => some (.bpl d)
  | .brk, .imp => some .brk
  | .bvc, .rel d => some (.bvc d)
  | .bvs, .rel d => some (.bvs d)
  | .clc, .imp => some .clc
  | .cld, .imp => some .cld
  | .cli, .imp => some .cli
  | .clv, .imp => some .clv
  | .cmp, o => some (.cmp o)
  | .cpx, o => some (.cpx o)
  | .cpy, o => some (.cpy o)
  | .dec, o => some (.dec o)
  | .dex, .imp => some .dex
  | .dey, .imp => some .dey
  | .eor, o => some (.eor o)
  | .inc, o => some (.inc o)
  | .inx, .imp => some .inx
  | .iny, .imp => some .iny
  | .jmp, o => some (.jmp o)
  | .jsr, .abs w => some (.jsr w)
  | .lda, o => some (.lda o)
  | .ldx, o => some (.ldx o)
  | .ldy, o => some (.ldy o)
  | .lsr, o => some (.lsr o)
  | .nop, .imp => some .nop
  | .ora, o => some (.ora o)
  | .pha, .imp => some .pha
  | .php, .imp => some .php
  | .pla, .imp => some .pla
  | .plp, .imp => some .plp
  | .rol, o => some (.rol o)
  | .ror, o => some (.ror o)
  | .rti, .imp => some .rti
  | .rts, .imp => some .rts
  | .sbc, o => some (.sbc o)
  | .sec, .imp => some .sec
  | .sed, .imp => some .sed
  | .sei, .imp => some .sei
  | .sta, o => some (.sta o)
  | .stx, o => some (.stx o)
  | .sty, o => some (.sty o)
  | .tax, .imp => some .tax
  | .tay, .imp => some .tay
  | .tsx, .imp => some .tsx
  | .txa, .imp => some .txa
  | .txs, .imp => some .txs
  | .tya, .imp => some .tya
  | .dnop, .imp => some (.dnop opcode)
  | _, _ => none

/-- Decodes the instruction at the front of the bytes under a table, and gives the bytes that follow it (R142). -/
def decodeWith (t : OpTable) : List Byte → Except DecodeError (Instr × List Byte)
  | [] => .error .noOpcode
  | opcode :: bytes =>
    let r := t.lookup opcode
    match takeOperand r.mode bytes with
    | none => .error (.truncated opcode)
    | some (o, rest) =>
      match assemble opcode r.mnemonic o with
      | none => .error (.unlawfulRecord opcode)
      | some i => .ok (i, rest)

/-- Decodes under the default table. -/
def decode : List Byte → Except DecodeError (Instr × List Byte) := decodeWith defaultTable

/-! ## Encoding -/

/-- The byte a mnemonic's line of R121 gives for a mode (0 where it gives none). -/
def byteFor (m : Mode) (line : List (Mode × Byte)) : Byte :=
  match line.find? (fun e => e.1 == m) with
  | some e => e.2
  | none => 0x00

/-- The opcode byte, from R121's list by mnemonic. -/
def opcodeOf : Instr → Byte
  | .adc o => byteFor o.mode [(.imm, 0x69), (.zp0, 0x65), (.zpx, 0x75), (.abs, 0x6D), (.abx, 0x7D), (.aby, 0x79), (.izx, 0x61), (.izy, 0x71)]
  | .and o => byteFor o.mode [(.imm, 0x29), (.zp0, 0x25), (.zpx, 0x35), (.abs, 0x2D), (.abx, 0x3D), (.aby, 0x39), (.izx, 0x21), (.izy, 0x31)]
  | .asl o => byteFor o.mode [(.imp, 0x0A), (.zp0, 0x06), (.zpx, 0x16), (.abs, 0x0E), (.abx, 0x1E)]
  | .bcc _ => 0x90
  | .bcs _ => 0xB0
  | .beq _ => 0xF0
  | .bit o => byteFor o.mode [(.zp0, 0x24), (.abs, 0x2C)]
  | .bmi _ => 0x30
  | .bne _ => 0xD0
  | .bpl _ => 0x10
  | .brk => 0x00
  | .bvc _ => 0x50
  | .bvs _ => 0x70
  | .clc => 0x18
  | .cld => 0xD8
  | .cli => 0x58
  | .clv => 0xB8
  | .cmp o => byteFor o.mode [(.imm, 0xC9), (.zp0, 0xC5), (.zpx, 0xD5), (.abs, 0xCD), (.abx, 0xDD), (.aby, 0xD9), (.izx, 0xC1), (.izy, 0xD1)]
  | .cpx o => byteFor o.mode [(.imm, 0xE0), (.zp0, 0xE4), (.abs, 0xEC)]
  | .cpy o => byteFor o.mode [(.imm, 0xC0), (.zp0, 0xC4), (.abs, 0xCC)]
  | .dec o => byteFor o.mode [(.zp0, 0xC6), (.zpx, 0xD6), (.abs, 0xCE), (.abx, 0xDE)]
  | .dex => 0xCA
  | .dey => 0x88
  | .eor o => byteFor o.mode [(.imm, 0x49), (.zp0, 0x45), (.zpx, 0x55), (.abs, 0x4D), (.abx, 0x5D), (.aby, 0x59), (.izx, 0x41), (.izy, 0x51)]
  | .inc o => byteFor o.mode [(.zp0, 0xE6), (.zpx, 0xF6), (.abs, 0xEE), (.abx, 0xFE)]
  | .inx => 0xE8
  | .iny => 0xC8
  | .jmp o => byteFor o.mode [(.abs, 0x4C), (.ind, 0x6C)]
  | .jsr _ => 0x20
  | .lda o => byteFor o.mode [(.imm, 0xA9), (.zp0, 0xA5), (.zpx, 0xB5), (.abs, 0xAD), (.abx, 0xBD), (.aby, 0xB9), (.izx, 0xA1), (.izy, 0xB1)]
  | .ldx o => byteFor o.mode [(.imm, 0xA2), (.zp0, 0xA6), (.zpy, 0xB6), (.abs, 0xAE), (.aby, 0xBE)]
  | .ldy o => byteFor o.mode [(.imm, 0xA0), (.zp0, 0xA4), (.zpx, 0xB4), (.abs, 0xAC), (.abx, 0xBC)]
  | .lsr o => byteFor o.mode [(.imp, 0x4A), (.zp0, 0x46), (.zpx, 0x56), (.abs, 0x4E), (.abx, 0x5E)]
  | .nop => 0xEA
  | .ora o => byteFor o.mode [(.imm, 0x09), (.zp0, 0x05), (.zpx, 0x15), (.abs, 0x0D), (.abx, 0x1D), (.aby, 0x19), (.izx, 0x01), (.izy, 0x11)]
  | .pha => 0x48
  | .php => 0x08
  | .pla => 0x68
  | .plp => 0x28
  | .rol o => byteFor o.mode [(.imp, 0x2A), (.zp0, 0x26), (.zpx, 0x36), (.abs, 0x2E), (.abx, 0x3E)]
  | .ror o => byteFor o.mode [(.imp, 0x6A), (.zp0, 0x66), (.zpx, 0x76), (.abs, 0x6E), (.abx, 0x7E)]
  | .rti => 0x40
  | .rts => 0x60
  | .sbc o => byteFor o.mode [(.imm, 0xE9), (.zp0, 0xE5), (.zpx, 0xF5), (.abs, 0xED), (.abx, 0xFD), (.aby, 0xF9), (.izx, 0xE1), (.izy, 0xF1)]
  | .sec => 0x38
  | .sed => 0xF8
  | .sei => 0x78
  | .sta o => byteFor o.mode [(.zp0, 0x85), (.zpx, 0x95), (.abs, 0x8D), (.abx, 0x9D), (.aby, 0x99), (.izx, 0x81), (.izy, 0x91)]
  | .stx o => byteFor o.mode [(.zp0, 0x86), (.zpy, 0x96), (.abs, 0x8E)]
  | .sty o => byteFor o.mode [(.zp0, 0x84), (.zpx, 0x94), (.abs, 0x8C)]
  | .tax => 0xAA
  | .tay => 0xA8
  | .tsx => 0xBA
  | .txa => 0x8A
  | .txs => 0x9A
  | .tya => 0x98
  | .dnop b => b

/-- The operand bytes in instruction order, low byte first (R111). -/
def Operand.bytes : Operand → List Byte
  | .imp => []
  | .imm b | .zp0 b | .zpx b | .zpy b | .izx b | .izy b | .rel b => [b]
  | .abs w | .abx w | .aby w | .ind w => [lo w, hi w]

/-- The bytes of a well-formed instruction. -/
def encode (i : Instr) : List Byte := opcodeOf i :: i.operand.bytes

/-- An instruction's length in bytes (R110, R112): BRK's is 1 (R127). -/
def Instr.length (i : Instr) : Nat := 1 + i.operand.mode.operandCount

/-- The base cycle count the default table gives the instruction (R120). -/
def Instr.baseCycles (i : Instr) : Nat := (defaultTable.lookup (opcodeOf i)).baseCycles

/-! ## The host's table words -/

/-- The bytes of a table word as they lie in memory, up to the longest instruction: byte `k` is bits `8k+7..8k`, and every
bit from `nbits` on is 0. -/
def tableWordBytes (nbits w : Nat) : List Byte :=
  let v := w % 2 ^ nbits
  [BitVec.ofNat 8 v, BitVec.ofNat 8 (v / 2 ^ 8), BitVec.ofNat 8 (v / 2 ^ 16)]

/-- The instruction the decoder reads from a word of the opcode table. -/
def decodeTableWord (nbits w : Nat) : Option Instr :=
  match decode (tableWordBytes nbits w) with
  | .ok (i, _) => some i
  | .error _ => none

end Sys2Proof
end

