-- ==== Sys2Proof/Machine/State.lean ====
section
/-! DEFINITION. The state of the machine: registers, scratch registers, the bus's devices with their storage, the fatal
mark (files 10 and 20 of spec/), and the state right after reset. The configuration (R14: the decode table, the device list) is part of it (log 15). -/

namespace Sys2Proof.Machine

/-- The reasons of `Fatal(reason)`, a closed set (R310). The model stops with the reason; it names no later state, which is
safe (log 5). -/
inductive Fault where
  /-- `NoDevice(a)`: raised by a bus read or write that no device claims (R70). Safe. -/
  | noDevice (addr : Word)
  /-- `InvalidMapperAccess(a)`: raised by a cartridge access whose originator is the picture unit when `CHR_BANKS = 0`
  (R80). Safe. -/
  | invalidMapperAccess (addr : Word)
  /-- `UnknownMapper(id)`: raised by construction with a mapper identifier other than 0, and by an access to such a
  cartridge (R81). Safe. -/
  | unknownMapper (id : Nat)
  /-- `NoProcessor`: raised by a tick on a bus with no connected processor (R311). Safe. -/
  | noProcessor
  deriving DecidableEq, Repr

/-- Why the model gives no meaning. -/
inductive Refusal where
  /-- An instruction rejected by name in `exec`'s arm; no arm uses it. Safe. -/
  | notModelled (mnemonic : String)
  /-- Raised by a processor access to a cartridge with `PRG_BANKS = 0`, a configuration the spec refuses (R79, U13). Safe. -/
  | emptyProgramRegion
  /-- Raised by an access to a cartridge that indexes past the end of its region, which no bank size of R82 allows: the spec
  gives such an access no effect (log 24). Safe. -/
  | outsideRegion (offset : Nat)
  /-- Raised by construction with a cartridge image whose length is not its region's (U13). Safe. -/
  | imageLength
  /-- Raised by an access routed to the Cpu variant; its range is empty, so the bus never does it (R64). Safe. -/
  | cpuNotAddressable
  /-- Raised by a step under a table whose record for the opcode breaks R115; never under the default table. Safe. -/
  | unlawfulRecord (opcode : Byte)
  deriving DecidableEq, Repr

/-- Which subsystem issued a bus access (R11, R62). -/
inductive Originator where
  | processor
  | pictureUnit
  deriving DecidableEq, Repr

/-- The storage of a device: the listed bytes by offset, offsets strictly rising, no listed byte equal to what an unlisted
offset reads as. -/
abbrev Memory := List Host.Cell

/-- The two RAM configurations (R75): flat, or mirrored behind a window at a base address. -/
inductive RamKind where
  | flat
  | mirrored (windowBase : Word)
  deriving DecidableEq, Repr

/-- A cartridge: its mapper value {`MAPPER_ID`, `PRG_BANKS`, `CHR_BANKS`}, `PRG_BANK_SIZE`, `CHR_BANK_SIZE`, `CART_WRITABLE` and
its two regions (R6, R51). -/
structure Cartridge where
  mapperId : Nat
  prgBanks : Nat
  chrBanks : Nat
  prgBankSize : Nat
  chrBankSize : Nat
  writable : Bool
  prg : Memory
  chr : Memory
  deriving DecidableEq, Repr

/-- The closed set of device variants (R64). -/
inductive Device where
  | ram (kind : RamKind) (store : Memory)
  | cpu
  /-- the opaque picture unit, on the addresses `first..last` of `PPU_RANGE` (R85) -/
  | pictureUnit (first last : Word)
  | cartridge (c : Cartridge)
  deriving DecidableEq, Repr

/-- A device's region of storage: the RAM bytes (R50), the program region, the pattern region (R51). -/
inductive Region where
  | ram | prg | chr
  deriving DecidableEq, Repr

/-- Where a device leads an access: a byte of one of its regions, or the picture unit's own, opaque side (R85). -/
inductive Target where
  | cell (region : Region) (offset : Nat)
  | opaqueUnit
  deriving DecidableEq, Repr

/-- The state. INVENTORY.md lists the rule and the reset value of every field. -/
@[ext]
structure State where
  /-- accumulator `A` (R20) -/
  a : Byte
  /-- index register `X` (R20) -/
  x : Byte
  /-- index register `Y` (R20) -/
  y : Byte
  /-- program counter `PC` (R23) -/
  pc : Word
  /-- stack pointer `SP` (R25) -/
  sp : Byte
  /-- flag byte `P` (R30) -/
  p : Byte
  /-- scratch operand value (R41) -/
  fetched : Byte
  /-- effective address (R42) -/
  addressAbs : Word
  /-- sign-extended displacement (R42) -/
  addressRel : Word
  /-- cycle countdown (R43) -/
  cycles : Nat
  /-- absorbing fatal mark (R44) -/
  fatal : Option Fault
  /-- the decode table `OPTABLE`, built once and never changed (R6, R14, R114; log 15) -/
  opTable : OpTable
  /-- the bus's ordered device list, each device with its storage (R50, R51, R52) -/
  devices : List Device
  /-- whether the bus has its processor (R52, R72) -/
  processorConnected : Bool
  /-- THE MODEL'S OWN: how many picture-unit reads have drawn a free byte (R85, log 6) -/
  draws : Nat
  deriving DecidableEq, Repr

/-- Reference configuration FLAT (R90): every processor address is RAM. -/
def flatDevices (ram : Memory) : List Device := [.ram .flat ram]

/-- Reference configuration CART (R90) without a picture unit: mirrored RAM at the default window, mapper 0,
the bank sizes of R82. -/
def cartDevices (ram : Memory) (prgBanks chrBanks : Nat) (writable : Bool) (prg chr : Memory) : List Device :=
  [.ram (.mirrored Config.ramWindowBase) ram,
   .cartridge
    { mapperId := 0, prgBanks, chrBanks, prgBankSize := Config.prgBankSize, chrBankSize := Config.chrBankSize, writable, prg, chr }]

/-- The machine right after reset (R330, R331) in configuration FLAT with nothing listed in memory (log 2, log 3); `PC` is
the word such a memory holds at 0xFFFC. -/
def State.reset : State where
  a := Config.resetDefaults.a
  x := Config.resetDefaults.x
  y := Config.resetDefaults.y
  pc := 0x0000
  sp := Config.resetSP
  p := Config.resetDefaults.pOther ||| 0x20
  fetched := 0x00
  addressAbs := 0x0000
  addressRel := 0x0000
  cycles := Config.resetCycles
  fatal := none
  opTable := defaultTable
  devices := flatDevices []
  processorConnected := true
  draws := 0

end Sys2Proof.Machine
end

