-- ==== Sys2Proof/Machine/Registers.lean ====
section
/-! DEFINITION. The outcome combinator, and one named update per field of the state. -/

namespace Sys2Proof.Machine

/-- The outcome of an operation that answers an `α`. -/
abbrev Result (α : Type) := Host.Outcome α Fault Refusal

/-- Goes on with the answer of an operation, unless it stopped: a fatal or a refusal stops the whole step (R143). -/
def andThen {α β : Type} (r : Result α) (k : α → Result β) : Result β :=
  match r with
  | .next v => k v
  | .fault f => .fault f
  | .refused f => .refused f

/-- `A <- v` -/
def State.setA (v : Byte) (s : State) : State := { s with a := v }
/-- `X <- v` -/
def State.setX (v : Byte) (s : State) : State := { s with x := v }
/-- `Y <- v` -/
def State.setY (v : Byte) (s : State) : State := { s with y := v }
/-- `PC <- v` -/
def State.setPc (v : Word) (s : State) : State := { s with pc := v }
/-- `SP <- v` -/
def State.setSp (v : Byte) (s : State) : State := { s with sp := v }
/-- `P <- v`, the whole-byte access of the pulls (R30) -/
def State.setP (v : Byte) (s : State) : State := { s with p := v }
/-- `fetched <- v` -/
def State.setFetched (v : Byte) (s : State) : State := { s with fetched := v }
/-- `address_abs <- v` -/
def State.setAddressAbs (v : Word) (s : State) : State := { s with addressAbs := v }
/-- `address_rel <- v` -/
def State.setAddressRel (v : Word) (s : State) : State := { s with addressRel := v }
/-- `cycles <- v` -/
def State.setCycles (v : Nat) (s : State) : State := { s with cycles := v }
/-- sets the fatal mark (R44) -/
def State.setFatal (v : Option Fault) (s : State) : State := { s with fatal := v }
/-- replaces the device list: one device's storage changed -/
def State.setDevices (v : List Device) (s : State) : State := { s with devices := v }
/-- connects or disconnects the processor (R72) -/
def State.setConnected (v : Bool) (s : State) : State := { s with processorConnected := v }
/-- counts one more draw -/
def State.setDraws (v : Nat) (s : State) : State := { s with draws := v }

end Sys2Proof.Machine
end

