-- ==== Sys2Proof/Machine/Memory.lean ====
section
/-! DEFINITION. A device's storage: reading and writing one byte, and the canonical form. -/

namespace Sys2Proof.Machine

/-- The byte at an offset; an unlisted one reads as `Config.blank`. -/
def Memory.read : Memory → Nat → Byte
  | [], _ => Config.blank
  | (k, v) :: rest, i => if i = k then v else Memory.read rest i

/-- Stores one byte, keeping the canonical form: storing what an unlisted offset reads as removes the entry. -/
def Memory.write : Memory → Nat → Byte → Memory
  | [], i, v => if v = Config.blank then [] else [(i, v)]
  | (k, w) :: rest, i, v =>
    if i < k then (if v = Config.blank then (k, w) :: rest else (i, v) :: (k, w) :: rest)
    else if i = k then (if v = Config.blank then rest else (i, v) :: rest)
    else (k, w) :: Memory.write rest i v

/-- The canonical form, from an offset on: offsets strictly rising, no listed byte blank. -/
def Memory.wfFrom : Nat → Memory → Bool
  | _, [] => true
  | n, (k, v) :: rest => decide (n ≤ k) && v != Config.blank && Memory.wfFrom (k + 1) rest

/-- The canonical form. -/
def Memory.wf (m : Memory) : Bool := Memory.wfFrom 0 m

/-- Every listed offset lies in a region of this size. -/
def Memory.within (size : Nat) (m : Memory) : Bool := m.all fun c => decide (c.1 < size)

/-- The storage that holds an image from offset `base` on. -/
def Memory.ofImage (base : Nat) : List Byte → Memory
  | [] => []
  | v :: rest => if v = Config.blank then Memory.ofImage (base + 1) rest else (base, v) :: Memory.ofImage (base + 1) rest

end Sys2Proof.Machine
end

