-- ==== Sys2Proof/Machine/Bus.lean ====
section
/-! DEFINITION. The device contract and the bus arbiter (file 20 of spec/). -/

namespace Sys2Proof.Machine

/-! ## The device contract (R62, R63) -/

/-- The addresses `first..last` of a range parameter. -/
def inRange (first last a : Word) : Bool := decide (first.toNat ≤ a.toNat) && decide (a.toNat ≤ last.toNat)

/-- `within_range(address, originator)` (R62): RAM by its configuration (R75), the Cpu variant never (R64), the picture unit
on its range (R85), the cartridge from 0x8000 for the processor and up to 0x1FFF for the picture unit (R78). No RAM answers
the picture unit (R75); that the picture unit's device does not answer itself is log 7. -/
def Device.withinRange : Device → Word → Originator → Bool
  | .ram .flat _, _, .processor => true
  | .ram (.mirrored base) _, a, .processor =>
    decide (base.toNat ≤ a.toNat) && decide (a.toNat < base.toNat + Config.ramWindowSize)
  | .ram _ _, _, .pictureUnit => false
  | .cpu, _, _ => false
  | .pictureUnit first last, a, .processor => inRange first last a
  | .pictureUnit _ _, _, .pictureUnit => false
  | .cartridge _, a, .processor => decide (0x8000 ≤ a.toNat)
  | .cartridge _, a, .pictureUnit => decide (a.toNat ≤ 0x1FFF)

/-- A byte of a cartridge's region, or a refusal where the offset lies past its end: no bank size of R82 leads there, and the
spec gives such an access no effect (log 24). -/
def cellWithin (r : Region) (offset size : Nat) : Result Target :=
  if offset < size then .next (.cell r offset) else .refused (.outsideRegion offset)

/-- The mapper: a pure function of the address, the originator and the mapper value (R79, R80, R81). -/
def Cartridge.translate (c : Cartridge) (a : Word) (o : Originator) : Result Target :=
  if c.mapperId ≠ 0 then .fault (.unknownMapper c.mapperId)
  else
    match o with
    | .processor =>
      if c.prgBanks = 0 then .refused .emptyProgramRegion
      else cellWithin .prg (a &&& (if 1 < c.prgBanks then 0x7FFF else 0x3FFF)).toNat (c.prgBanks * c.prgBankSize)
    | .pictureUnit =>
      if c.chrBanks = 0 then .fault (.invalidMapperAccess a)
      else cellWithin .chr a.toNat (c.chrBanks * c.chrBankSize)

/-- Where a device leads an access to an address in its range (R75, R76, R79, R80, R85). -/
def Device.translate : Device → Word → Originator → Result Target
  | .ram .flat _, a, _ => .next (.cell .ram a.toNat)
  | .ram (.mirrored _) _, a, _ => .next (.cell .ram (a &&& 0x07FF).toNat)
  | .cpu, _, _ => .refused .cpuNotAddressable
  | .pictureUnit _ _, _, _ => .next .opaqueUnit
  | .cartridge c, a, o => c.translate a o

/-- The byte a device's region holds. -/
def Device.load : Device → Region → Nat → Byte
  | .ram _ m, .ram, i => m.read i
  | .cartridge c, .prg, i => c.prg.read i
  | .cartridge c, .chr, i => c.chr.read i
  | _, _, _ => Config.blank

/-- The device after a byte was put into its region, whatever it lets a bus write do. -/
def Device.put : Device → Region → Nat → Byte → Device
  | .ram kind m, .ram, i, v => .ram kind (m.write i v)
  | .cartridge c, .prg, i, v => .cartridge { c with prg := c.prg.write i v }
  | .cartridge c, .chr, i, v => .cartridge { c with chr := c.chr.write i v }
  | d, _, _, _ => d

/-- Whether a bus write stores: RAM always (R77), a cartridge when `CART_WRITABLE` (R79, R80). -/
def Device.storable : Device → Bool
  | .ram _ _ => true
  | .cartridge c => c.writable
  | .cpu => false
  | .pictureUnit _ _ => false

/-- The device after a bus write (R75, R79, R80). -/
def Device.store (d : Device) (r : Region) (i : Nat) (v : Byte) : Device :=
  if d.storable then d.put r i v else d

/-! ## The arbiter (R70) -/

/-- The first device, in list order, whose range contains the address, with its place in the list (R70, R71). -/
def select : List Device → Word → Originator → Option (Nat × Device)
  | [], _, _ => none
  | d :: rest, a, o => if d.withinRange a o then some (0, d) else (select rest a o).map fun e => (e.1 + 1, e.2)

/-- The place, device and target of an access, or the way it stops: `Fatal(NoDevice(a))` when no device claims the address
(R70), and no access at all once the fatal mark is set (R70, R310). -/
def route (o : Originator) (a : Word) (s : State) : Result (Nat × Device × Target) :=
  match s.fatal with
  | some f => .fault f
  | none =>
    match select s.devices a o with
    | none => .fault (.noDevice a)
    | some (n, d) => andThen (d.translate a o) fun t => .next (n, d, t)

/-- A one-byte read by an originator (R70). A picture unit's read is a draw (R85). -/
def busReadAs (o : Originator) (a : Word) (s : State) : Result (Byte × State) :=
  andThen (route o a s) fun e =>
    match e.2.2 with
    | .cell r i => .next (e.2.1.load r i, s)
    | .opaqueUnit => .next (Config.pictureDraw s.draws, s.setDraws (s.draws + 1))

/-- A one-byte write by an originator (R70). A picture unit's write changes nothing in the CORE (R85). -/
def busWriteAs (o : Originator) (a : Word) (v : Byte) (s : State) : Result State :=
  andThen (route o a s) fun e =>
    match e.2.2 with
    | .cell r i => .next (s.setDevices (s.devices.set e.1 (e.2.1.store r i v)))
    | .opaqueUnit => .next s

/-- `BusRead(a)` (R9, R70). -/
def busRead (a : Word) (s : State) : Result (Byte × State) := busReadAs .processor a s

/-- `BusWrite(a, v)` (R9, R70). -/
def busWrite (a : Word) (v : Byte) (s : State) : Result State := busWriteAs .processor a v s

/-- Puts a byte into the storage behind a processor address, even where `CART_WRITABLE` is false: an image supplied at
construction (R51, R336). An address with no storage behind it is left alone. -/
def pokeByte (a : Word) (v : Byte) (s : State) : State :=
  match route .processor a s with
  | .next (n, d, .cell r i) => s.setDevices (s.devices.set n (d.put r i v))
  | _ => s

/-- Puts bytes at consecutive addresses (modulo 2^16). -/
def pokeBytes (a : Word) : List Byte → State → State
  | [], s => s
  | v :: rest, s => pokeBytes (a + 1) rest (pokeByte a v s)

/-! ## Storage as claims see it -/

/-- The byte of storage a processor address names: the device's place, its region, the offset. -/
def cellOf (a : Word) (s : State) : Option (Nat × Region × Nat) :=
  match select s.devices a .processor with
  | none => none
  | some (n, d) =>
    match d.translate a .processor with
    | .next (.cell r i) => some (n, r, i)
    | _ => none

/-- The byte of a cell of storage: a device's place in the list, a region of it, an offset. -/
def cellByte (c : Nat × Region × Nat) (s : State) : Option Byte := (s.devices[c.1]?).map fun d => d.load c.2.1 c.2.2

/-- The byte stored at a processor address, where there is storage behind it; reading it this way changes nothing. -/
def byteAt (a : Word) (s : State) : Option Byte :=
  match select s.devices a .processor with
  | none => none
  | some (_, d) =>
    match d.translate a .processor with
    | .next (.cell r i) => some (d.load r i)
    | _ => none

/-- Whether a bus write to the address stores a byte. -/
def storableAt (a : Word) (s : State) : Bool :=
  match select s.devices a .processor with
  | none => false
  | some (_, d) => d.storable && (cellOf a s).isSome

/-- Whether the bus serves an access to the address: some device claims it and can answer. -/
def servesAt (a : Word) (s : State) : Bool :=
  match select s.devices a .processor with
  | none => false
  | some (_, d) =>
    match d.translate a .processor with
    | .next _ => true
    | _ => false

end Sys2Proof.Machine
end

