-- ==== Sys2Proof/Machine/Flags.lean ====
section
/-! DEFINITION. The flag byte and the ALU's flag computation (R30 to R36, R148, R199 to R201, R205, R208, R230 to R233). -/

namespace Sys2Proof.Machine

/-- The flags of `P`. -/
inductive Flag where
  | c | z | i | d | b | u | v | n
  deriving DecidableEq, Repr

/-- A flag's bit index (R30). -/
def Flag.bit : Flag → Nat
  | .c => 0
  | .z => 1
  | .i => 2
  | .d => 3
  | .b => 4
  | .u => 5
  | .v => 6
  | .n => 7

/-- `get_flag(f)` (R30). -/
def getFlag (f : Flag) (p : Byte) : Bool := p.getLsbD f.bit

/-- `set_flag(f, v)`: sets bit f, "leaving all others untouched" (R30). -/
def setFlag (f : Flag) (v : Bool) (p : Byte) : Byte :=
  let mask : Byte := 1#8 <<< f.bit
  if v then p ||| mask else p &&& ~~~mask

/-- A flag of the register `P`. -/
def State.flag (f : Flag) (s : State) : Bool := getFlag f s.p

/-- `set_flag` on the register `P`. -/
def State.setFlag (f : Flag) (v : Bool) (s : State) : State := s.setP (Machine.setFlag f v s.p)

/-- `SetZN(v)` on a flag byte (R148). -/
def znFlags (v : Byte) (p : Byte) : Byte := Machine.setFlag .n (v.getLsbD 7) (Machine.setFlag .z (v == 0) p)

/-- `SetZN(v)` (R148). -/
def State.setZN (v : Byte) (s : State) : State := s.setP (znFlags v s.p)

/-- The sum, carry and overflow of `A + W + C` in 16-bit arithmetic, where `W` is a byte (R199, R200): ADC adds the operand,
SBC its complement (R201). -/
structure AddResult where
  sum : Byte
  carry : Bool
  overflow : Bool
  deriving DecidableEq, Repr

/-- R200's computation on an accumulator, a byte and a carry. -/
def addBytes (a w : Byte) (c : Bool) : AddResult :=
  let t := zext16 a + zext16 w + bit16 c
  { sum := lo t
    carry := decide (0x00FF < t.toNat)
    overflow := ((t ^^^ zext16 a) &&& (t ^^^ zext16 w) &&& 0x0080) != 0 }

/-- The complemented operand byte of SBC, `M ^ 0xFF` (R201). -/
def complement (m : Byte) : Byte := m ^^^ 0xFF

/-- Writes `C`, `V`, `Z`, `N` and `A` from an addition (R200, R201). -/
def State.applyAdd (r : AddResult) (s : State) : State :=
  (((s.setFlag .c r.carry).setFlag .v r.overflow).setZN r.sum).setA r.sum

/-- The flags of a comparison of a register with a byte (R205, R206, R207). -/
def State.compare (reg m : Byte) (s : State) : State :=
  let t := zext16 reg - zext16 m
  (s.setFlag .c (decide (m.toNat ≤ reg.toNat))).setZN (lo t)

/-- The flags of BIT (R208). -/
def State.bitTest (m : Byte) (s : State) : State :=
  ((s.setFlag .z ((s.a &&& m) == 0)).setFlag .n (m.getLsbD 7)).setFlag .v (m.getLsbD 6)

/-- A shift's result byte and the bit it moves into `C`. -/
structure ShiftResult where
  value : Byte
  carry : Bool
  deriving DecidableEq, Repr

/-- ASL (R230): bit 8 of the 16-bit shift is the bit shifted out. -/
def shiftAsl (_ : Bool) (m : Byte) : ShiftResult :=
  let t := zext16 m <<< 1
  { value := lo t, carry := t.getLsbD 8 }

/-- LSR (R231). -/
def shiftLsr (_ : Bool) (m : Byte) : ShiftResult := { value := m >>> 1, carry := m.getLsbD 0 }

/-- ROL (R232): the old `C` enters bit 0. -/
def shiftRol (c : Bool) (m : Byte) : ShiftResult :=
  let t := (zext16 m <<< 1) ||| bit16 c
  { value := lo t, carry := t.getLsbD 8 }

/-- ROR (R233): the old `C` enters bit 7. -/
def shiftRor (c : Bool) (m : Byte) : ShiftResult :=
  { value := ((if c then 1#8 else 0#8) <<< 7) ||| (m >>> 1), carry := m.getLsbD 0 }

end Sys2Proof.Machine
end

