-- ==== Sys2Proof/Machine/Ops.lean ====
section
/-! DEFINITION. The stack, the vectors, taking an exception and returning from one, the interrupt requests and the reset
transition (R149 to R153, R302, R306, R330). -/

namespace Sys2Proof.Machine

/-! ## The stack (R25, R26, R149 to R152) -/

/-- `{0x01, SP}`: the stack location a value of `SP` names (R25). -/
def stackAddr (sp : Byte) : Word := mk16 0x01 sp

/-- `Push8(v)` (R149). -/
def push8 (v : Byte) (s : State) : Result State :=
  andThen (busWrite (stackAddr s.sp) v s) fun s => .next (s.setSp (s.sp - 1))

/-- `Pull8()` (R150). -/
def pull8 (s : State) : Result (Byte × State) :=
  let s := s.setSp (s.sp + 1)
  busRead (stackAddr s.sp) s

/-- `Push16(w)`: high byte first (R151). -/
def push16 (w : Word) (s : State) : Result State := andThen (push8 (hi w) s) fun s => push8 (lo w) s

/-- `Pull16()`: low byte first (R152). -/
def pull16 (s : State) : Result (Word × State) :=
  andThen (pull8 s) fun (l, s) => andThen (pull8 s) fun (h, s) => .next (mk16 h l, s)

/-- `Read16(a)`: low byte first (R153). -/
def read16 (a : Word) (s : State) : Result (Word × State) :=
  andThen (busRead a s) fun (l, s) => andThen (busRead (a + 1) s) fun (h, s) => .next (mk16 h l, s)

/-! ## The vectors (R95, R307) -/

/-- The non-maskable interrupt's vector (R95). -/
def nmiVector : Word := 0xFFFA

/-- The reset vector (R95). -/
def resetVector : Word := 0xFFFC

/-- The vector of the maskable interrupt and of BRK (R95). -/
def irqVector : Word := 0xFFFE

/-! ## Taking an exception, and the return from one (R306, R308) -/

/-- The three entries of R306. -/
inductive TrapKind where
  | brk | irq | nmi
  deriving DecidableEq, Repr

/-- The vector an entry loads `PC` from (R302, R307). -/
def TrapKind.vector : TrapKind → Word
  | .brk | .irq => irqVector
  | .nmi => nmiVector

/-- Takes an exception (R284, R302, R306): BRK sets `I` before its push, an interrupt after it; the return address is pushed
high byte first, then `P` with `U` = 1 and `B` = 1 for BRK and 0 for an interrupt; `B` is 0 in the register afterwards, `I`
and `U` are 1, and `PC` is read from the vector. -/
def takeTrap (kind : TrapKind) (returnAddr : Word) (s : State) : Result State :=
  let s := if kind = .brk then s.setFlag .i true else s
  andThen (push16 returnAddr s) fun s =>
  let s := (s.setFlag .b (kind = .brk)).setFlag .u true
  andThen (push8 s.p s) fun s =>
  let s := (s.setFlag .b false).setFlag .i true
  andThen (read16 kind.vector s) fun (target, s) => .next (s.setPc target)

/-- Returns from an exception (R285, R308): pulls `P`, clears `B` and `U` in the register, pulls `PC` low byte first. -/
def returnFromTrap (s : State) : Result State :=
  andThen (pull8 s) fun (flags, s) =>
  let s := ((s.setP flags).setFlag .b false).setFlag .u false
  andThen (pull16 s) fun (target, s) => .next (s.setPc target)

/-! ## The host's interrupt and reset transitions -/

/-- `Interrupt(nmi)` (R302): a maskable request with `I` = 1 is ignored and dropped (R303). That a bus with no connected
processor does not stop it is the model's choice (DESIGN CHOICE, log 12): the spec makes only a tick fatal there (R72, R311). -/
def interrupt (nonMaskable : Bool) (s : State) : Result State :=
  match s.fatal with
  | some _ => .next s
  | none =>
    if !nonMaskable && s.flag .i then .next s
    else
      andThen (takeTrap (if nonMaskable then .nmi else .irq) s.pc s) fun s =>
      .next (s.setCycles (if nonMaskable then 8 else 7))

/-- `Reset()` (R330): two bus reads, no write. That a bus with no connected processor does not stop it is the model's choice
(DESIGN CHOICE, log 12): the spec makes only a tick fatal there (R72, R311). -/
def resetMachine (rp : Config.ResetParams) (s : State) : Result State :=
  match s.fatal with
  | some _ => .next s
  | none =>
    let s := ((s.setA rp.a).setX rp.x).setY rp.y
    let s := (s.setSp Config.resetSP).setP (Machine.setFlag .u true rp.pOther)
    let s := ((s.setFetched 0x00).setAddressAbs 0x0000).setAddressRel 0x0000
    andThen (read16 resetVector s) fun (target, s) => .next ((s.setPc target).setCycles Config.resetCycles)

end Sys2Proof.Machine
end

