-- ==== Sys2Proof/Machine/Operands.lean ====
section
/-! DEFINITION. The addressing-mode resolver (file 41 of spec/), the operand fetch (R147), and the shapes that the
instruction families share. The operand bytes were consumed by the fetch, so on entry `PC` is the address of the byte after
the instruction (R23, log 8). -/

namespace Sys2Proof.Machine

/-- Whether adding an index left the page: the high byte changed (R167). -/
def pageCrossed (base ea : Word) : Bool := hi ea != hi base

/-- An effective address formed by a 16-bit index addition, with its page-cross report (R167, R168, R171). -/
def indexed (base : Word) (index : Byte) (s : State) : Bool × State :=
  let ea := base + zext16 index
  (pageCrossed base ea, s.setAddressAbs ea)

/-- Page-zero arithmetic, `(b + index) & 0x00FF` (R164). -/
def zeroPage (b index : Byte) : Word := (zext16 b + zext16 index) &&& 0x00FF

/-- `Resolve(mode)` (R160 to R173): writes `address_abs`, `address_rel` or `fetched`, and answers "may need extra cycle". -/
def resolve (o : Operand) (s : State) : Result (Bool × State) :=
  match o with
  | .imp => .next (false, s.setFetched s.a)
  | .imm _ => .next (false, s.setAddressAbs (s.pc - 1))
  | .zp0 b => .next (false, s.setAddressAbs (zext16 b &&& 0x00FF))
  | .zpx b => .next (false, s.setAddressAbs (zeroPage b s.x))
  | .zpy b => .next (false, s.setAddressAbs (zeroPage b s.y))
  | .abs w => .next (false, s.setAddressAbs w)
  | .abx w => .next (indexed w s.x s)
  | .aby w => .next (indexed w s.y s)
  | .ind ptr =>
    andThen (busRead ptr s) fun (l, s) =>
    andThen (busRead (if lo ptr = 0xFF then ptr &&& 0xFF00 else ptr + 1) s) fun (h, s) =>
    .next (false, s.setAddressAbs (mk16 h l))
  | .izx t =>
    andThen (busRead (zeroPage t s.x) s) fun (l, s) =>
    andThen (busRead ((zext16 t + zext16 s.x + 1) &&& 0x00FF) s) fun (h, s) =>
    .next (false, s.setAddressAbs (mk16 h l))
  | .izy t =>
    andThen (busRead (zext16 t &&& 0x00FF) s) fun (l, s) =>
    andThen (busRead ((zext16 t + 1) &&& 0x00FF) s) fun (h, s) =>
    .next (indexed (mk16 h l) s.y s)
  | .rel d => .next (false, s.setAddressRel (sext16 d))

/-- `FetchOperand()` (R147): mode `IMP` uses the accumulator that the resolver left in `fetched`; the immediate byte was read
with the instruction's other bytes (log 8); every other mode reads `address_abs`. -/
def fetchOperand (o : Operand) (s : State) : Result (Byte × State) :=
  match o with
  | .imp => .next (s.fetched, s)
  | .imm b => .next (b, s.setFetched b)
  | _ => andThen (busRead s.addressAbs s) fun (m, s) => .next (m, s.setFetched m)

/-- `WriteBack(r)` of the shifts (R229). -/
def writeBack (o : Operand) (r : Byte) (s : State) : Result State :=
  match o with
  | .imp => .next (s.setA r)
  | _ => busWrite s.addressAbs r s

/-- The bonus cycle, added when both the mode and the operation agree (R144). -/
def addBonus (earned : Bool) (s : State) : State := if earned then s.setCycles (s.cycles + 1) else s

/-- The shape of an operation that reads its operand and writes no memory: resolve, fetch the operand, apply the effect, add
the bonus if the operation is eligible for it (R143, R144). -/
def withOperand (o : Operand) (eligible : Bool) (effect : Byte → State → State) (s : State) : Result State :=
  andThen (resolve o s) fun (crossed, s) =>
  andThen (fetchOperand o s) fun (m, s) =>
  .next (addBonus (crossed && eligible) (effect m s))

/-- The shape of a pure store: resolve, then the one write of `address_abs` (R183 to R185). -/
def storeOperand (o : Operand) (value : State → Byte) (s : State) : Result State :=
  andThen (resolve o s) fun (_, s) => busWrite s.addressAbs (value s) s

/-- The shape of INC and DEC: one read and one write of `address_abs`, `Z` and `N` from the new value (R209, R210). -/
def modifyOperand (o : Operand) (f : Byte → Byte) (s : State) : Result State :=
  andThen (resolve o s) fun (_, s) =>
  andThen (fetchOperand o s) fun (m, s) =>
  andThen (busWrite s.addressAbs (f m) s) fun s => .next (s.setZN (f m))

/-- The shape of the shifts and rotates (R229): `C` from the bit shifted out, `Z` and `N` from the result, then the write
back. -/
def shiftOperand (o : Operand) (f : Bool → Byte → ShiftResult) (s : State) : Result State :=
  andThen (resolve o s) fun (_, s) =>
  andThen (fetchOperand o s) fun (m, s) =>
  let r := f (s.flag .c) m
  writeBack o r.value ((s.setFlag .c r.carry).setZN r.value)

/-- The shape of an operation of mode `IMP` that makes no bus access (R161). -/
def implied (effect : State → State) (s : State) : Result State := .next (effect (s.setFetched s.a))

/-- `Branch(cond)` (R260): one extra cycle when taken, one more when the target is on another page than the next
instruction. -/
def branch (cond : Bool) (s : State) : State :=
  if cond then
    let target := s.pc + s.addressRel
    (s.setCycles (if pageCrossed s.pc target then s.cycles + 2 else s.cycles + 1)).setPc target
  else s

/-- The shape of a conditional branch (R172, R260). -/
def branchOn (disp : Byte) (cond : State → Bool) (s : State) : Result State :=
  andThen (resolve (.rel disp) s) fun (_, s) => .next (branch (cond s) s)

end Sys2Proof.Machine
end

