-- ==== Sys2Proof/Machine/Arith.lean ====
section
/-! DEFINITION. Arithmetic, logic, compare, increment and decrement (file 43 of spec/). -/

namespace Sys2Proof.Machine

/-- ADC (R200); `D` is ignored. -/
def execAdc (o : Operand) (s : State) : Result State :=
  withOperand o true (fun m s => s.applyAdd (addBytes s.a m (s.flag .c))) s

/-- SBC (R201): ADC's computation on the complemented operand byte. -/
def execSbc (o : Operand) (s : State) : Result State :=
  withOperand o true (fun m s => s.applyAdd (addBytes s.a (complement m) (s.flag .c))) s

/-- AND (R202). -/
def execAnd (o : Operand) (s : State) : Result State :=
  withOperand o true (fun m s => (s.setA (s.a &&& m)).setZN (s.a &&& m)) s

/-- ORA (R203). -/
def execOra (o : Operand) (s : State) : Result State :=
  withOperand o true (fun m s => (s.setA (s.a ||| m)).setZN (s.a ||| m)) s

/-- EOR (R204). -/
def execEor (o : Operand) (s : State) : Result State :=
  withOperand o true (fun m s => (s.setA (s.a ^^^ m)).setZN (s.a ^^^ m)) s

/-- CMP (R205): eligible for the bonus cycle. -/
def execCmp (o : Operand) (s : State) : Result State := withOperand o true (fun m s => s.compare s.a m) s

/-- CPX (R206). -/
def execCpx (o : Operand) (s : State) : Result State := withOperand o false (fun m s => s.compare s.x m) s

/-- CPY (R207). -/
def execCpy (o : Operand) (s : State) : Result State := withOperand o false (fun m s => s.compare s.y m) s

/-- BIT (R208). -/
def execBit (o : Operand) (s : State) : Result State := withOperand o false (fun m s => s.bitTest m) s

/-- INC (R209). -/
def execInc (o : Operand) (s : State) : Result State := modifyOperand o (fun m => m + 1) s

/-- DEC (R210). -/
def execDec (o : Operand) (s : State) : Result State := modifyOperand o (fun m => m - 1) s

/-- INX (R211). -/
def execInx (s : State) : Result State := implied (fun s => (s.setX (s.x + 1)).setZN (s.x + 1)) s

/-- INY (R212). -/
def execIny (s : State) : Result State := implied (fun s => (s.setY (s.y + 1)).setZN (s.y + 1)) s

/-- DEX (R213). -/
def execDex (s : State) : Result State := implied (fun s => (s.setX (s.x - 1)).setZN (s.x - 1)) s

/-- DEY (R214). -/
def execDey (s : State) : Result State := implied (fun s => (s.setY (s.y - 1)).setZN (s.y - 1)) s

end Sys2Proof.Machine
end

