-- ==== Sys2Proof/Machine/Branch.lean ====
section
/-! DEFINITION. Branches, jumps, subroutine call and return (file 46 of spec/). -/

namespace Sys2Proof.Machine

/-- BCC (R261). -/
def execBcc (disp : Byte) (s : State) : Result State := branchOn disp (fun s => !s.flag .c) s

/-- BCS (R262). -/
def execBcs (disp : Byte) (s : State) : Result State := branchOn disp (fun s => s.flag .c) s

/-- BEQ (R263). -/
def execBeq (disp : Byte) (s : State) : Result State := branchOn disp (fun s => s.flag .z) s

/-- BNE (R264). -/
def execBne (disp : Byte) (s : State) : Result State := branchOn disp (fun s => !s.flag .z) s

/-- BMI (R265). -/
def execBmi (disp : Byte) (s : State) : Result State := branchOn disp (fun s => s.flag .n) s

/-- BPL (R266). -/
def execBpl (disp : Byte) (s : State) : Result State := branchOn disp (fun s => !s.flag .n) s

/-- BVC (R267). -/
def execBvc (disp : Byte) (s : State) : Result State := branchOn disp (fun s => !s.flag .v) s

/-- BVS (R268). -/
def execBvs (disp : Byte) (s : State) : Result State := branchOn disp (fun s => s.flag .v) s

/-- JMP (R269): no read at the target. -/
def execJmp (o : Operand) (s : State) : Result State :=
  andThen (resolve o s) fun (_, s) => .next (s.setPc s.addressAbs)

/-- JSR (R270): pushes the address of its own last byte, high byte first. -/
def execJsr (addr : Word) (s : State) : Result State :=
  andThen (resolve (.abs addr) s) fun (_, s) =>
  let s := s.setPc (s.pc - 1)
  andThen (push16 s.pc s) fun s => .next (s.setPc s.addressAbs)

/-- RTS (R271). -/
def execRts (s : State) : Result State :=
  andThen (resolve .imp s) fun (_, s) =>
  andThen (pull16 s) fun (target, s) => .next (s.setPc (target + 1))

end Sys2Proof.Machine
end

