-- ==== Sys2Proof/Machine/FlagNop.lean ====
section
/-! DEFINITION. Flag instructions and no-operations (file 45 of spec/). -/

namespace Sys2Proof.Machine

/-- CLC (R240). -/
def execClc (s : State) : Result State := implied (fun s => s.setFlag .c false) s

/-- SEC (R241). -/
def execSec (s : State) : Result State := implied (fun s => s.setFlag .c true) s

/-- CLI (R242). -/
def execCli (s : State) : Result State := implied (fun s => s.setFlag .i false) s

/-- SEI (R243). -/
def execSei (s : State) : Result State := implied (fun s => s.setFlag .i true) s

/-- CLD (R244). -/
def execCld (s : State) : Result State := implied (fun s => s.setFlag .d false) s

/-- SED (R245). -/
def execSed (s : State) : Result State := implied (fun s => s.setFlag .d true) s

/-- CLV (R246). -/
def execClv (s : State) : Result State := implied (fun s => s.setFlag .v false) s

/-- NOP (R247). -/
def execNop (s : State) : Result State := implied (fun s => s) s

/-- DNOP, the default no-op, the same for every unassigned opcode byte (R248). -/
def execDnop (_opcode : Byte) (s : State) : Result State := implied (fun s => s) s

end Sys2Proof.Machine
end

