-- ==== Sys2Proof/Machine/LoadStore.lean ====
section
/-! DEFINITION. Loads, stores and register transfers (file 42 of spec/). -/

namespace Sys2Proof.Machine

/-- LDA (R180). -/
def execLda (o : Operand) (s : State) : Result State := withOperand o true (fun m s => (s.setA m).setZN m) s

/-- LDX (R181). -/
def execLdx (o : Operand) (s : State) : Result State := withOperand o true (fun m s => (s.setX m).setZN m) s

/-- LDY (R182). -/
def execLdy (o : Operand) (s : State) : Result State := withOperand o true (fun m s => (s.setY m).setZN m) s

/-- STA (R183): no flag, no operand read. -/
def execSta (o : Operand) (s : State) : Result State := storeOperand o (fun s => s.a) s

/-- STX (R184). -/
def execStx (o : Operand) (s : State) : Result State := storeOperand o (fun s => s.x) s

/-- STY (R185). -/
def execSty (o : Operand) (s : State) : Result State := storeOperand o (fun s => s.y) s

/-- TAX (R186). -/
def execTax (s : State) : Result State := implied (fun s => (s.setX s.a).setZN s.a) s

/-- TAY (R187). -/
def execTay (s : State) : Result State := implied (fun s => (s.setY s.a).setZN s.a) s

/-- TXA (R188). -/
def execTxa (s : State) : Result State := implied (fun s => (s.setA s.x).setZN s.x) s

/-- TYA (R189). -/
def execTya (s : State) : Result State := implied (fun s => (s.setA s.y).setZN s.y) s

/-- TSX (R190). -/
def execTsx (s : State) : Result State := implied (fun s => (s.setX s.sp).setZN s.sp) s

/-- TXS (R191): the one transfer that writes no flag. -/
def execTxs (s : State) : Result State := implied (fun s => s.setSp s.x) s

end Sys2Proof.Machine
end

