-- ==== Sys2Proof/Machine/Shift.lean ====
section
/-! DEFINITION. Shifts and rotates (file 44 of spec/). -/

namespace Sys2Proof.Machine

/-- ASL (R230). -/
def execAsl (o : Operand) (s : State) : Result State := shiftOperand o shiftAsl s

/-- LSR (R231). -/
def execLsr (o : Operand) (s : State) : Result State := shiftOperand o shiftLsr s

/-- ROL (R232). -/
def execRol (o : Operand) (s : State) : Result State := shiftOperand o shiftRol s

/-- ROR (R233). -/
def execRor (o : Operand) (s : State) : Result State := shiftOperand o shiftRor s

end Sys2Proof.Machine
end

