-- ==== Sys2Proof/Machine/Stack.lean ====
section
/-! DEFINITION. Stack and system instructions (file 47 of spec/). -/

namespace Sys2Proof.Machine

/-- PHA (R280). -/
def execPha (s : State) : Result State := andThen (resolve .imp s) fun (_, s) => push8 s.a s

/-- PLA (R281). -/
def execPla (s : State) : Result State :=
  andThen (resolve .imp s) fun (_, s) =>
  andThen (pull8 s) fun (m, s) => .next ((s.setA m).setZN m)

/-- PHP (R282): the byte pushed has bits 4 and 5 set, the register keeps its value. -/
def execPhp (s : State) : Result State := andThen (resolve .imp s) fun (_, s) => push8 (s.p ||| 0x30) s

/-- PLP (R283). -/
def execPlp (s : State) : Result State :=
  andThen (resolve .imp s) fun (_, s) =>
  andThen (pull8 s) fun (m, s) => .next (((s.setP m).setFlag .b false).setFlag .u false)

/-- BRK (R284): its effect is to take the exception, with the address of the BRK opcode plus 2 as return address. -/
def execBrk (s : State) : Result State :=
  andThen (resolve .imp s) fun (_, s) =>
  let s := s.setPc (s.pc + 1)
  takeTrap .brk s.pc s

/-- RTI (R285). -/
def execRti (s : State) : Result State := andThen (resolve .imp s) fun (_, s) => returnFromTrap s

end Sys2Proof.Machine
end

