-- ==== Sys2Proof/Machine/Tick.lean ====
section
/-! DEFINITION. Fetching an instruction and the tick (R140 to R143). The table is the state's `OPTABLE` (R6). -/

namespace Sys2Proof.Machine

/-- Reads one byte at `PC` and advances `PC` (R141, R160). -/
def fetchByte (s : State) : Result (Byte × State) :=
  andThen (busRead s.pc s) fun (b, s) => .next (b, s.setPc (s.pc + 1))

/-- Reads `n` bytes of the instruction stream, in address order (R110, R154). -/
def fetchBytes : Nat → State → Result (List Byte × State)
  | 0, s => .next ([], s)
  | n + 1, s =>
    andThen (fetchByte s) fun (b, s) =>
    andThen (fetchBytes n s) fun (bs, s) => .next (b :: bs, s)

/-- Fetches and decodes one instruction: the opcode byte, its record, then the operand bytes its mode consumes; gives the
instruction and its base cycle count (R141, R142, R111). -/
def fetchInstr (t : OpTable) (s : State) : Result (Instr × Nat × State) :=
  andThen (fetchByte s) fun (opcode, s) =>
  let r := t.lookup opcode
  andThen (fetchBytes r.mode.operandCount s) fun (operand, s) =>
  match decodeWith t (opcode :: operand) with
  | .ok (i, _) => .next (i, r.baseCycles, s)
  | .error _ => .refused (.unlawfulRecord opcode)

/-- `InstructionStep()` (R143): the scratch addresses are cleared (R42), the instruction is fetched and decoded, `cycles` is
loaded with the base count, and the instruction runs. -/
def instructionStep (s : State) : Result State :=
  let s := (s.setAddressAbs 0x0000).setAddressRel 0x0000
  andThen (fetchInstr s.opTable s) fun (i, base, s) => exec i (s.setCycles base)

/-- `Tick()` (R140): nothing once the fatal mark is set; `Fatal(NoProcessor)` without a processor (R311); an instruction step
when `cycles` is 0; then one cycle less. Under a table that R115 (e) excludes, an instruction of base count 0 runs and the count stays at 0
instead of falling below it: the model's choice (DESIGN CHOICE, log 25). -/
def tick (s : State) : Result State :=
  match s.fatal with
  | some _ => .next s
  | none =>
    if !s.processorConnected then .fault .noProcessor
    else if s.cycles = 0 then andThen (instructionStep s) fun s => .next (s.setCycles (s.cycles - 1))
    else .next (s.setCycles (s.cycles - 1))

end Sys2Proof.Machine
end

