-- ==== Sys2Proof/Machine/Step.lean ====
section
/-! DEFINITION. The step: one tick of the machine (R140, R320), and the placing of a word where the next step fetches. -/

namespace Sys2Proof.Machine

/-- One step is one `Tick()` (R140). -/
def step (s : State) : Host.Outcome State Fault Refusal := tick s

/-- The state with the instruction of an opcode-table word stored at `PC` and its idle ticks over, so that the very next step
runs that instruction (log 11). -/
def State.withFetchWord (s : State) (nbits w : Nat) : State :=
  (pokeBytes s.pc (tableWordBytes nbits w) s).setCycles 0

end Sys2Proof.Machine
end

