-- ==== Sys2Proof/Machine/HostBoundary.lean ====
section
/-! DEFINITION. What happens to the machine between ticks: the host's calls (R72, R74, R335, R336, R345), the picture unit's
accesses to the bus (R60, R80), and the absorbing fatal mark that they raise (R44, R310). -/

namespace Sys2Proof.Machine

/-! ## The fatal mark -/

/-- The state an operation leaves: a raised fatal sets the mark (R44, R310). The state apart from the mark is
unspecified after a fatal (R143); this keeps what it was, and no claim may rest on that (log 5). A refusal leaves the state:
the spec gives no such machine. -/
def settle (before : State) : Result State → State
  | .next s => s
  | .fault f => before.setFatal (some f)
  | .refused _ => before

/-- The byte a read answered, where it answered one, and the state it leaves. -/
def settleRead (before : State) : Result (Byte × State) → Option Byte × State
  | .next (v, s) => (some v, s)
  | .fault f => (none, settle before (.fault f))
  | .refused r => (none, settle before (.refused r))

/-! ## Accesses from outside the processor -/

/-- A read by an originator between ticks (R70), with the mark where it raises a fatal. -/
def accessRead (o : Originator) (a : Word) (s : State) : Option Byte × State := settleRead s (busReadAs o a s)

/-- A write by an originator between ticks (R70), with the mark where it raises a fatal. -/
def accessWrite (o : Originator) (a : Word) (v : Byte) (s : State) : State := settle s (busWriteAs o a v s)

/-- The host's raw read: an access with originator Processor (R74). -/
def hostRead (a : Word) (s : State) : Option Byte × State := accessRead .processor a s

/-- The host's raw write: an access with originator Processor (R74). -/
def hostWrite (a : Word) (v : Byte) (s : State) : State := accessWrite .processor a v s

/-- The picture unit's read; with no pattern bank it sets the mark (R44, R80). -/
def pictureRead (a : Word) (s : State) : Option Byte × State := accessRead .pictureUnit a s

/-- The picture unit's write; with no pattern bank it sets the mark (R44, R80). -/
def pictureWrite (a : Word) (v : Byte) (s : State) : State := accessWrite .pictureUnit a v s

/-- `clone_state`: the state is a value, so the copy is the state itself (R53). -/
def cloneState (s : State) : State := s

/-! ## The actions at a tick boundary -/

/-- The host's calls (R345), each at a tick boundary (R341); and the accesses of the picture unit, which is outside this block
(R13, R80): that they too fall between ticks is log 23. -/
inductive HostAction where
  | tick
  | reset
  | interrupt (nonMaskable : Bool)
  | read (addr : Word)
  | write (addr : Word) (value : Byte)
  | cloneState
  /-- not a call of the host: the picture unit reads on the bus (R80, log 23) -/
  | pictureRead (addr : Word)
  /-- not a call of the host: the picture unit writes on the bus (R80, log 23) -/
  | pictureWrite (addr : Word) (value : Byte)
  deriving DecidableEq, Repr

/-- The state after one action, under reset parameters. -/
def hostAct (rp : Config.ResetParams) : HostAction → State → State
  | .tick, s => settle s (step s)
  | .reset, s => settle s (resetMachine rp s)
  | .interrupt nmi, s => settle s (interrupt nmi s)
  | .read a, s => (hostRead a s).2
  | .write a v, s => hostWrite a v s
  | .cloneState, s => cloneState s
  | .pictureRead a, s => (pictureRead a s).2
  | .pictureWrite a v, s => pictureWrite a v s

/-- The state after a sequence of actions, applied one after another (R305). -/
def hostRun (rp : Config.ResetParams) (calls : List HostAction) (s : State) : State :=
  calls.foldl (fun s c => hostAct rp c s) s

/-- Program loading: byte i of the buffer is written at `u16(LOAD_ADDR + i)` by the host's raw write (R336). `LOAD_ADDR` is
OPEN, so it is an argument. -/
def loadProgram (loadAddr : Word) : List Byte → State → State
  | [], s => s
  | v :: rest, s => loadProgram (loadAddr + 1) rest (hostWrite loadAddr v s)

/-! ## Construction and wiring, before the first reset (R72, R81, R335) -/

/-- A cartridge built from its parameters (R6) and its images, which have exactly their regions' lengths; an unknown mapper is
fatal (R51, R81, R82, U3, U13). -/
def buildCartridge (mapperId prgBanks chrBanks prgBankSize chrBankSize : Nat) (writable : Bool) (prgInit chrInit : List Byte) :
    Result Device :=
  if mapperId ≠ 0 then .fault (.unknownMapper mapperId)
  else if prgBanks = 0 then .refused .emptyProgramRegion
  else if prgInit.length ≠ prgBanks * prgBankSize ∨ chrInit.length ≠ chrBanks * chrBankSize then
    .refused .imageLength
  else
    .next (.cartridge { mapperId, prgBanks, chrBanks, prgBankSize, chrBankSize, writable,
                        prg := Memory.ofImage 0 prgInit, chr := Memory.ofImage 0 chrInit })

/-- `add_device(device) -> handle`: the device goes to the end of the list; its handle is its place (R72, log 10). That it acts once
the fatal mark is set is the model's choice (DESIGN CHOICE, log 26). -/
def addDevice (d : Device) (s : State) : Nat × State := (s.devices.length, s.setDevices (s.devices ++ [d]))

/-- Construction of a machine's cartridge: it goes on the bus, or the machine starts with the mark it raised (R44, R81). A mark
already set stays (R310); that nothing is put on the bus then is the model's choice (DESIGN CHOICE, log 26). -/
def addCartridge (mapperId prgBanks chrBanks prgBankSize chrBankSize : Nat) (writable : Bool) (prgInit chrInit : List Byte)
    (s : State) : State :=
  match s.fatal with
  | some _ => s
  | none =>
    settle s <|
      andThen (buildCartridge mapperId prgBanks chrBanks prgBankSize chrBankSize writable prgInit chrInit) fun d =>
      .next (addDevice d s).2

/-- `remove_device(handle)` (R72, log 10). That it acts once the fatal mark is set is the model's choice (DESIGN CHOICE, log 26). -/
def removeDevice (handle : Nat) (s : State) : State := s.setDevices (s.devices.eraseIdx handle)

/-- `connect_processor(cpu)` (R72): the one processor of this state. That it acts once the fatal mark is set is the model's choice
(DESIGN CHOICE, log 26). -/
def connectProcessor (s : State) : State := s.setConnected true

end Sys2Proof.Machine
end

