-- ==== Sys2Proof/Safety.lean ====
section
/-! DEFINITION. What claims call a legal configuration, a live machine and a legal state. -/

namespace Sys2Proof.Safety

open Sys2Proof Sys2Proof.Machine

/-- A machine that a tick can advance: no fatal mark, and a processor (R310, R311). -/
def Live (s : State) : Prop := s.fatal = none ∧ s.processorConnected = true

/-- No two devices claim one address for the same originator: R71's premise on a configuration. -/
def DisjointRanges (ds : List Device) : Prop :=
  ∀ (a : Word) (o : Originator), ds.Pairwise fun d e => ¬(d.withinRange a o = true ∧ e.withinRange a o = true)

/-- Every processor address is served by some device: no access can be fatal, as in configuration FLAT (R90). -/
def AllServed (s : State) : Prop := ∀ a : Word, servesAt a s = true

/-- A device's storage is in canonical form and inside its region (R50, R51, R82). -/
def deviceWf : Device → Bool
  | .ram .flat m => m.wf && m.within Config.flatSize
  | .ram (.mirrored _) m => m.wf && m.within Config.mirroredSize
  | .cpu => true
  | .pictureUnit _ _ => true
  | .cartridge c =>
    c.prg.wf && c.prg.within (c.prgBanks * c.prgBankSize) && c.chr.wf && c.chr.within (c.chrBanks * c.chrBankSize)

/-- The storage of every device is well formed. -/
def memoryWf (s : State) : Bool := s.devices.all deviceWf

/-- A device without its storage: what is configuration and never changes while the machine runs (R14). -/
def deviceShape : Device → Device
  | .ram kind _ => .ram kind []
  | .cpu => .cpu
  | .pictureUnit first last => .pictureUnit first last
  | .cartridge c => .cartridge { c with prg := [], chr := [] }

/-- The configuration part of the device list (R14, R52); the decode table is the rest of the configuration. -/
def configOf (s : State) : List Device := s.devices.map deviceShape

/-- The invariant of every tick boundary after a reset: storage well formed, `B` clear in the register (R34), and under the
default table a cycle count that it can load (R43). -/
def Inv (s : State) : Prop :=
  memoryWf s = true ∧ s.flag .b = false ∧ (s.opTable = defaultTable → s.cycles ≤ 8)

/-- A run is safe when every tick of it answers a next state. -/
def SafeFor : Nat → State → Prop
  | 0, _ => True
  | k + 1, s => ∃ s', step s = .next s' ∧ SafeFor k s'

end Sys2Proof.Safety
end

