-- ==== Sys2Proof/Certificates/Slice0/Obligations.lean ====
section
/-! DEFINITION. The statements for the provers, and the words they are written in. -/

namespace Sys2Proof.Claims

open Sys2Proof Sys2Proof.Machine Sys2Proof.Safety

/-! ## Words the statements share -/

/-- The flag byte `q` is `p` with the listed flags written and every other flag as it was. -/
def FlagsWritten (p q : Byte) (written : List (Flag × Bool)) : Prop :=
  ∀ f : Flag, getFlag f q = (written.lookup f).getD (getFlag f p)

/-- The high byte of a word, as a number. -/
def highByte (w : Word) : Byte := BitVec.ofNat 8 (w.toNat / 256)

/-- The low byte of a word, as a number. -/
def lowByte (w : Word) : Byte := BitVec.ofNat 8 (w.toNat % 256)

/-- The word of two bytes, as a number (R8, R96). -/
def wordOf (h l : Byte) : Word := BitVec.ofNat 16 (256 * h.toNat + l.toNat)

/-- The stack location of a value of `SP`: processor address 0x0100 + SP (R25). -/
def stackAt (sp : Byte) : Word := BitVec.ofNat 16 (0x0100 + sp.toNat)

/-- The bus answers these reads, in this order, with these bytes. -/
def Reads : State → List (Word × Byte) → State → Prop
  | s, [], t => t = s
  | s, (a, v) :: rest, t => ∃ s1, busRead a s = .next (v, s1) ∧ Reads s1 rest t

/-- Bytes at consecutive addresses (modulo 2^16). -/
def placed (a : Word) : List Byte → List (Word × Byte)
  | [] => []
  | v :: rest => (a, v) :: placed (a + 1) rest

/-- The operand is readable: the resolver answers, with its page-cross report, and the operand fetch answers the byte `m`. -/
def OperandIs (o : Operand) (s : State) (crossed : Bool) (m : Byte) (t : State) : Prop :=
  ∃ s1, resolve o s = .next (crossed, s1) ∧ fetchOperand o s1 = .next (m, t)

/-- The state with the scratch registers and the draw count that resolving and fetching the operand left. -/
def scratch (s t : State) : State :=
  { s with fetched := t.fetched, addressAbs := t.addressAbs, addressRel := t.addressRel, draws := t.draws }

/-- The instruction completes in exactly the state `u`, and every byte of storage reads as before. -/
def RunsTo (i : Instr) (s u : State) : Prop := exec i s = .next u ∧ ∀ b : Word, byteAt b u = byteAt b s

/-- Storage after writes to addresses, the last write first: an address that names the cell of a written, storing address reads
what was written there last, and every other address reads as before; and a cell that no written address names, reachable by
the processor or not, holds what it held. -/
def Stored (s t : State) (writes : List (Word × Byte)) : Prop :=
  (∀ b : Word, byteAt b t =
    match writes.find? (fun w => storableAt w.1 s && decide (cellOf b s = cellOf w.1 s)) with
    | some w => some w.2
    | none => byteAt b s) ∧
  ∀ c : Nat × Region × Nat, (∀ w ∈ writes, cellOf w.1 s ≠ some c) → cellByte c t = cellByte c s

/-- An operation answers exactly the state `u` but for storage, which holds the writes (last first); the configuration is as
before. -/
def AnswersStoring (r : Result State) (s u : State) (writes : List (Word × Byte)) : Prop :=
  ∃ ds : List Device, r = .next { u with devices := ds } ∧ Stored s { u with devices := ds } writes ∧
    ds.map deviceShape = configOf s

/-- A mnemonic with an operand: in each listed mode it is well formed, its encoding is the listed byte and the operand bytes,
and the default table's record has the mode and the base cycle count. -/
def EncodedAs (mk : Operand → Instr) (rows : List (Mode × Byte × Nat)) : Prop :=
  ∀ (o : Operand) (e : Mode × Byte × Nat), e ∈ rows → o.mode = e.1 →
    (mk o).wellFormed = true ∧ encode (mk o) = e.2.1 :: o.bytes ∧
    defaultTable.lookup e.2.1 = ⟨(mk o).mnemonic, e.1, e.2.2⟩

/-- An instruction of mode `IMP` only: its encoding is the one byte, its base cycle count the number. -/
def EncodedAlone (i : Instr) (opcode : Byte) (base : Nat) : Prop :=
  encode i = [opcode] ∧ defaultTable.lookup opcode = ⟨i.mnemonic, .imp, base⟩

/-- A branch: its encoding is the opcode byte and the displacement byte. -/
def EncodedBranch (mk : Byte → Instr) (opcode : Byte) (base : Nat) : Prop :=
  ∀ d : Byte, encode (mk d) = [opcode, d] ∧ defaultTable.lookup opcode = ⟨(mk d).mnemonic, .rel, base⟩

/-- What R260 says of one branch: not taken it changes nothing but `address_rel`; taken it goes to `PC + disp` modulo 2^16 for
one extra cycle, or two when the target is on another page than the next instruction. -/
def BranchesOn (mk : Byte → Instr) (f : Flag) (when_ : Bool) : Prop :=
  ∀ (d : Byte) (s : State),
    (getFlag f s.p ≠ when_ → RunsTo (mk d) s { s with addressRel := d.signExtend 16 }) ∧
    (getFlag f s.p = when_ → ∃ target : Word, (target.toNat : Int) = ((s.pc.toNat : Int) + d.toInt) % 65536 ∧
      RunsTo (mk d) s
        { s with
          addressRel := d.signExtend 16
          pc := target
          cycles := s.cycles + 1 + (if target.toNat / 256 ≠ s.pc.toNat / 256 then 1 else 0) })

/-- The result byte and the bit shifted out of the four shifts, from the old carry (R230 to R233). -/
def aslOf (_ : Bool) (m : Byte) : Byte × Bool := (BitVec.ofNat 8 (2 * m.toNat), m.getLsbD 7)
/-- R231 -/
def lsrOf (_ : Bool) (m : Byte) : Byte × Bool := (BitVec.ofNat 8 (m.toNat / 2), m.getLsbD 0)
/-- R232 -/
def rolOf (c : Bool) (m : Byte) : Byte × Bool := (BitVec.ofNat 8 (2 * m.toNat + c.toNat), m.getLsbD 7)
/-- R233 -/
def rorOf (c : Bool) (m : Byte) : Byte × Bool := (BitVec.ofNat 8 (128 * c.toNat + m.toNat / 2), m.getLsbD 0)

/-- What R229 says of one shift: in mode `IMP` the accumulator is shifted; otherwise the byte at the effective address is
read, and the shifted byte written there. -/
def Shifts (mk : Operand → Instr) (f : Bool → Byte → Byte × Bool) : Prop :=
  (∀ s : State, ∃ q : Byte,
    let r := f (getFlag .c s.p) s.a
    FlagsWritten s.p q [(.c, r.2), (.z, r.1 == 0), (.n, r.1.getLsbD 7)] ∧
    RunsTo (mk .imp) s { s with fetched := s.a, a := r.1, p := q }) ∧
  (∀ (o : Operand) (s : State) (crossed : Bool) (m : Byte) (t : State), o ≠ .imp → memoryWf s = true → s.fatal = none →
    OperandIs o s crossed m t → servesAt t.addressAbs s = true →
    ∃ q : Byte,
      let r := f (getFlag .c s.p) m
      FlagsWritten s.p q [(.c, r.2), (.z, r.1 == 0), (.n, r.1.getLsbD 7)] ∧
      AnswersStoring (exec (mk o) s) s { scratch s t with p := q } [(t.addressAbs, r.1)])

/-- The flags each instruction may write (R31 to R35). -/
def flagsWrittenBy : Instr → List Flag
  | .adc _ | .sbc _ => [.c, .z, .v, .n]
  | .asl _ | .lsr _ | .rol _ | .ror _ | .cmp _ | .cpx _ | .cpy _ => [.c, .z, .n]
  | .bit _ => [.z, .v, .n]
  | .and _ | .ora _ | .eor _ | .inc _ | .dec _ | .inx | .iny | .dex | .dey | .lda _ | .ldx _ | .ldy _
  | .tax | .tay | .txa | .tya | .tsx | .pla => [.z, .n]
  | .clc | .sec => [.c]
  | .cli | .sei => [.i]
  | .cld | .sed => [.d]
  | .clv => [.v]
  | .brk => [.i, .b, .u]
  | .plp | .rti => [.c, .z, .i, .d, .b, .u, .v, .n]
  | .sta _ | .stx _ | .sty _ | .txs | .pha | .php | .nop | .dnop _ | .jmp _ | .jsr _ | .rts
  | .bcc _ | .bcs _ | .beq _ | .bne _ | .bmi _ | .bpl _ | .bvc _ | .bvs _ => []

/-- A shift or rotate, and whether it is of the accumulator form (R229). -/
def isShift (i : Instr) (accumulator : Bool) : Bool :=
  i.mnemonic ∈ [.asl, .lsr, .rol, .ror] && (decide (i.operand = .imp) == accumulator)

/-- The instructions that may write `A` (R21 and the rules of files 42 to 47). -/
def writesA (i : Instr) : Bool :=
  i.mnemonic ∈ [.lda, .txa, .tya, .adc, .sbc, .and, .ora, .eor, .pla] || isShift i true

/-- The instructions that may write `X`. -/
def writesX (i : Instr) : Bool := i.mnemonic ∈ [.ldx, .tax, .tsx, .inx, .dex]

/-- The instructions that may write `Y`. -/
def writesY (i : Instr) : Bool := i.mnemonic ∈ [.ldy, .tay, .iny, .dey]

/-- The instructions that replace `PC` after the fetch (R23). -/
def writesPC (i : Instr) : Bool :=
  i.mnemonic ∈ [.bcc, .bcs, .beq, .bne, .bmi, .bpl, .bvc, .bvs, .jmp, .jsr, .rts, .brk, .rti]

/-- The instructions that make a bus write: the stores, the memory read-modify-writes, the pushes (R154). -/
def writesStorage (i : Instr) : Bool :=
  i.mnemonic ∈ [.sta, .stx, .sty, .inc, .dec, .pha, .php, .jsr, .brk] || isShift i false

/-- What each instruction other than TXS adds to `SP` (R149 to R152, R284, R285). -/
def stackMove (i : Instr) : Byte :=
  if i.mnemonic ∈ [.pha, .php] then 0xFF
  else if i.mnemonic = .jsr then 0xFE
  else if i.mnemonic = .brk then 0xFD
  else if i.mnemonic ∈ [.pla, .plp] then 1
  else if i.mnemonic = .rts then 2
  else if i.mnemonic = .rti then 3
  else 0

/-- A next state changed by a function; a fault or a refusal as it is. -/
def mapNext (f : State → State) : Result State → Result State
  | .next s => .next (f s)
  | .fault r => .fault r
  | .refused r => .refused r

end Sys2Proof.Claims

open Sys2Proof Sys2Proof.Machine Sys2Proof.Safety Sys2Proof.Claims

/-! ## Encoding -/

/-- R110, R111, R113, R120, R121: for every well-formed instruction, whatever bytes follow it, decoding its encoding gives
back the instruction with every operand at every value, and the bytes that follow. -/
def Obligations.DecodeOfEncodeIsTheInstruction : Prop :=
  ∀ (i : Instr) (rest : List Byte), i.wellFormed = true → decode (encode i ++ rest) = .ok (i, rest)

/-- R111, R120, R121: bytes that decode are the encoding of the well-formed instruction they decode to, followed by the
rest. -/
def Obligations.DecodedBytesAreTheEncoding : Prop :=
  ∀ (bytes rest : List Byte) (i : Instr), decode bytes = .ok (i, rest) → i.wellFormed = true ∧ bytes = encode i ++ rest

/-- R114, R115: under every table that meets R115, default or not, an opcode byte with enough operand bytes after it always
decodes, to an instruction of the record's mnemonic and mode, and takes exactly the operand bytes of that mode. -/
def Obligations.LawfulTablesDecodeEveryOpcode : Prop :=
  ∀ (t : OpTable) (opcode : Byte) (bytes : List Byte), t.lawful = true →
    (t.lookup opcode).mode.operandCount ≤ bytes.length →
    ∃ i : Instr, decodeWith t (opcode :: bytes) = .ok (i, bytes.drop (t.lookup opcode).mode.operandCount) ∧
      i.mnemonic = (t.lookup opcode).mnemonic ∧ i.operand.mode = (t.lookup opcode).mode

/-- R121, R111: words written out from the encoding, one a family, decode to the instruction they stand for. -/
def Obligations.WrittenOutWordsDecode : Prop :=
  decode [0xA9, 0x42] = .ok (.lda (.imm 0x42), []) ∧
  decode [0x96, 0xF0] = .ok (.stx (.zpy 0xF0), []) ∧
  decode [0x71, 0x40] = .ok (.adc (.izy 0x40), []) ∧
  decode [0x1E, 0xFF, 0x20] = .ok (.asl (.abx 0x20FF), []) ∧
  decode [0xB8] = .ok (.clv, []) ∧
  decode [0x10, 0x80] = .ok (.bpl 0x80, []) ∧
  decode [0x6C, 0xFF, 0x02] = .ok (.jmp (.ind 0x02FF), []) ∧
  decode [0x20, 0x34, 0x12] = .ok (.jsr 0x1234, []) ∧
  decode [0x40] = .ok (.rti, []) ∧
  decode [0x80, 0x99] = .ok (.dnop 0x80, [0x99])

/-! ## The tick -/

/-- R140, R143: with no fatal mark, the processor connected and `cycles` = 0, when the bytes the bus answers from `PC` on decode
under the machine's `OPTABLE` to an instruction, the step is `exec` of that instruction, with `PC` past its bytes, the scratch
addresses cleared and `cycles` at its base count, and then one cycle less. Under the default table: when they are the encoding of
a well-formed instruction. -/
def Obligations.StepRunsTheDecodedInstruction : Prop :=
  ∀ (i : Instr) (s t : State), s.fatal = none → s.processorConnected = true → s.cycles = 0 →
    (∀ (opcode : Byte) (operand : List Byte), decodeWith s.opTable (opcode :: operand) = .ok (i, []) →
      Reads s (placed s.pc (opcode :: operand)) t →
      step s = mapNext (fun u => { u with cycles := u.cycles - 1 })
        (exec i { t with
          pc := s.pc + BitVec.ofNat 16 (1 + operand.length), addressAbs := 0x0000, addressRel := 0x0000,
          cycles := (s.opTable.lookup opcode).baseCycles })) ∧
    (s.opTable = defaultTable → i.wellFormed = true → Reads s (placed s.pc (encode i)) t →
      step s = mapNext (fun u => { u with cycles := u.cycles - 1 })
        (exec i { t with
          pc := s.pc + BitVec.ofNat 16 i.length, addressAbs := 0x0000, addressRel := 0x0000, cycles := i.baseCycles }))

/-- R140, R146: an idle tick decrements `cycles` and changes nothing else. -/
def Obligations.IdleTicksChangeOnlyTheCount : Prop :=
  ∀ s : State, s.fatal = none → s.processorConnected = true → 0 < s.cycles →
    step s = .next { s with cycles := s.cycles - 1 }

/-- R310, R44: once the fatal mark is set, no call of the host and no access of the picture unit changes anything: not a tick, a
reset, an interrupt, a read or a write. -/
def Obligations.TheFatalMarkAbsorbsEveryCall : Prop :=
  ∀ (rp : Config.ResetParams) (call : HostAction) (s : State) (f : Fault), s.fatal = some f → hostAct rp call s = s

/-- R310, R311, R44, R70, R80, R81: whatever raises a fatal, a tick, a reset, an interrupt, a raw access or an access of the picture
unit, sets the mark to its reason; and the four reasons arise: a tick without a processor is `NoProcessor`, an opcode fetch from an
address no device claims `NoDevice`, a picture-originated access to a cartridge with no pattern bank `InvalidMapperAccess`, and
construction with another mapper `UnknownMapper`. -/
def Obligations.RaisedFatalsSetTheMark : Prop :=
  ∀ (rp : Config.ResetParams) (s : State), s.fatal = none →
    (∀ f : Fault,
      (step s = .fault f → (hostAct rp .tick s).fatal = some f) ∧
      (resetMachine rp s = .fault f → (hostAct rp .reset s).fatal = some f) ∧
      (∀ nmi : Bool, interrupt nmi s = .fault f → (hostAct rp (.interrupt nmi) s).fatal = some f) ∧
      (∀ (a : Word) (v : Byte),
        (busRead a s = .fault f → (hostAct rp (.read a) s).fatal = some f) ∧
        (busWrite a v s = .fault f → (hostAct rp (.write a v) s).fatal = some f) ∧
        (busReadAs .pictureUnit a s = .fault f → (hostAct rp (.pictureRead a) s).fatal = some f) ∧
        (busWriteAs .pictureUnit a v s = .fault f → (hostAct rp (.pictureWrite a v) s).fatal = some f))) ∧
    (s.processorConnected = false → (hostAct rp .tick s).fatal = some .noProcessor) ∧
    (s.processorConnected = true → s.cycles = 0 → select s.devices s.pc .processor = none →
      (hostAct rp .tick s).fatal = some (.noDevice s.pc)) ∧
    (∀ (ram prg chr : Memory) (prgBanks : Nat) (writable : Bool) (a : Word) (v : Byte),
      s.devices = cartDevices ram prgBanks 0 writable prg chr → a.toNat ≤ 0x1FFF →
      (hostAct rp (.pictureRead a) s).fatal = some (.invalidMapperAccess a) ∧
      (hostAct rp (.pictureWrite a v) s).fatal = some (.invalidMapperAccess a)) ∧
    (∀ (mapperId prgBanks chrBanks prgBankSize chrBankSize : Nat) (writable : Bool) (prgInit chrInit : List Byte),
      mapperId ≠ 0 →
      (addCartridge mapperId prgBanks chrBanks prgBankSize chrBankSize writable prgInit chrInit s).fatal =
        some (.unknownMapper mapperId))

/-! ## The resolver -/

/-- R161 to R168, R172: the modes that read no pointer. The page-zero sums stay in page zero; the 16-bit sums wrap modulo 2^16
and report a crossing exactly when the page changed; the displacement is sign-extended. -/
def Obligations.DirectModesResolve : Prop :=
  ∀ (s : State) (b : Byte) (w : Word),
    resolve .imp s = .next (false, { s with fetched := s.a }) ∧
    resolve (.imm b) s = .next (false, { s with addressAbs := s.pc - 1 }) ∧
    (∃ ea : Word, ea.toNat = b.toNat ∧ resolve (.zp0 b) s = .next (false, { s with addressAbs := ea })) ∧
    (∃ ea : Word, ea.toNat = (b.toNat + s.x.toNat) % 256 ∧
      resolve (.zpx b) s = .next (false, { s with addressAbs := ea })) ∧
    (∃ ea : Word, ea.toNat = (b.toNat + s.y.toNat) % 256 ∧
      resolve (.zpy b) s = .next (false, { s with addressAbs := ea })) ∧
    resolve (.abs w) s = .next (false, { s with addressAbs := w }) ∧
    (∃ ea : Word, ea.toNat = (w.toNat + s.x.toNat) % 65536 ∧
      resolve (.abx w) s = .next (decide (ea.toNat / 256 ≠ w.toNat / 256), { s with addressAbs := ea })) ∧
    (∃ ea : Word, ea.toNat = (w.toNat + s.y.toNat) % 65536 ∧
      resolve (.aby w) s = .next (decide (ea.toNat / 256 ≠ w.toNat / 256), { s with addressAbs := ea })) ∧
    (∃ d : Word, d.toInt = b.toInt ∧ resolve (.rel b) s = .next (false, { s with addressRel := d }))

/-- R169, R170, R171: the modes that read a pointer, low byte first. `IND` takes the high byte from the start of the same page
when the pointer's low byte is 0xFF; `IZX` and `IZY` read both bytes in page zero; `IZY` adds `Y` modulo 2^16 and reports a
crossing exactly when the page changed. -/
def Obligations.PointerModesResolve : Prop :=
  ∀ (s t : State) (b l h : Byte) (w : Word),
    (Reads s [(w, l), (BitVec.ofNat 16 (if w.toNat % 256 = 255 then w.toNat - 255 else w.toNat + 1), h)] t →
      resolve (.ind w) s = .next (false, { t with addressAbs := wordOf h l })) ∧
    (Reads s [(BitVec.ofNat 16 ((b.toNat + s.x.toNat) % 256), l),
              (BitVec.ofNat 16 ((b.toNat + s.x.toNat + 1) % 256), h)] t →
      resolve (.izx b) s = .next (false, { t with addressAbs := wordOf h l })) ∧
    (Reads s [(BitVec.ofNat 16 b.toNat, l), (BitVec.ofNat 16 ((b.toNat + 1) % 256), h)] t →
      ∃ ea : Word, ea.toNat = (256 * h.toNat + l.toNat + s.y.toNat) % 65536 ∧
        resolve (.izy b) s = .next (decide (ea.toNat / 256 ≠ h.toNat), { t with addressAbs := ea }))

/-- R147: the operand fetch reads the byte at `address_abs` into `fetched`; mode `IMP` makes no bus access and uses what the
resolver left there. The immediate byte was read with the instruction (log 8). -/
def Obligations.TheOperandFetchReadsTheEffectiveAddress : Prop :=
  ∀ (o : Operand) (s t : State) (m : Byte),
    (o.mode ≠ .imp → o.mode ≠ .imm → busRead s.addressAbs s = .next (m, t) →
      fetchOperand o s = .next (m, { t with fetched := m })) ∧
    fetchOperand .imp s = .next (s.fetched, s) ∧
    fetchOperand (.imm m) s = .next (m, { s with fetched := m })

/-! ## Loads, stores, transfers -/

/-- R180, R181, R182: a load writes its register with the operand byte and `Z`, `N` from it, earns the bonus cycle on a page
crossing, and changes nothing else but the scratch registers; no storage. -/
def Obligations.LoadsWriteTheRegisterAndZN : Prop :=
  EncodedAs .lda [(.imm, 0xA9, 2), (.zp0, 0xA5, 3), (.zpx, 0xB5, 4), (.abs, 0xAD, 4), (.abx, 0xBD, 4),
    (.aby, 0xB9, 4), (.izx, 0xA1, 6), (.izy, 0xB1, 5)] ∧
  EncodedAs .ldx [(.imm, 0xA2, 2), (.zp0, 0xA6, 3), (.zpy, 0xB6, 4), (.abs, 0xAE, 4), (.aby, 0xBE, 4)] ∧
  EncodedAs .ldy [(.imm, 0xA0, 2), (.zp0, 0xA4, 3), (.zpx, 0xB4, 4), (.abs, 0xAC, 4), (.abx, 0xBC, 4)] ∧
  ∀ (o : Operand) (s : State) (crossed : Bool) (m : Byte) (t : State), OperandIs o s crossed m t →
    ∃ q : Byte, FlagsWritten s.p q [(.z, m == 0), (.n, m.getLsbD 7)] ∧
      RunsTo (.lda o) s { scratch s t with a := m, p := q, cycles := s.cycles + crossed.toNat } ∧
      RunsTo (.ldx o) s { scratch s t with x := m, p := q, cycles := s.cycles + crossed.toNat } ∧
      RunsTo (.ldy o) s { scratch s t with y := m, p := q, cycles := s.cycles + crossed.toNat }

/-- R183, R184, R185: a store writes its register to the resolved address and changes no flag and no register but the scratch
ones; it never earns the bonus cycle. To an address no device claims it is fatal. -/
def Obligations.StoresWriteTheEffectiveAddress : Prop :=
  EncodedAs .sta [(.zp0, 0x85, 3), (.zpx, 0x95, 4), (.abs, 0x8D, 4), (.abx, 0x9D, 5), (.aby, 0x99, 5),
    (.izx, 0x81, 6), (.izy, 0x91, 6)] ∧
  EncodedAs .stx [(.zp0, 0x86, 3), (.zpy, 0x96, 4), (.abs, 0x8E, 4)] ∧
  EncodedAs .sty [(.zp0, 0x84, 3), (.zpx, 0x94, 4), (.abs, 0x8C, 4)] ∧
  ∀ (o : Operand) (s : State) (crossed : Bool) (t : State), memoryWf s = true → s.fatal = none →
    resolve o s = .next (crossed, t) →
    (servesAt t.addressAbs s = true →
      AnswersStoring (exec (.sta o) s) s (scratch s t) [(t.addressAbs, s.a)] ∧
      AnswersStoring (exec (.stx o) s) s (scratch s t) [(t.addressAbs, s.x)] ∧
      AnswersStoring (exec (.sty o) s) s (scratch s t) [(t.addressAbs, s.y)]) ∧
    (select s.devices t.addressAbs .processor = none →
      exec (.sta o) s = .fault (.noDevice t.addressAbs) ∧ exec (.stx o) s = .fault (.noDevice t.addressAbs) ∧
      exec (.sty o) s = .fault (.noDevice t.addressAbs))

/-- R186 to R191: a transfer copies its register; all but TXS write `Z` and `N` from the value moved, TXS writes no flag. -/
def Obligations.TransfersCopyTheRegister : Prop :=
  EncodedAlone .tax 0xAA 2 ∧ EncodedAlone .tay 0xA8 2 ∧ EncodedAlone .txa 0x8A 2 ∧
  EncodedAlone .tya 0x98 2 ∧ EncodedAlone .tsx 0xBA 2 ∧ EncodedAlone .txs 0x9A 2 ∧
  ∀ s : State,
    (∃ q : Byte, FlagsWritten s.p q [(.z, s.a == 0), (.n, s.a.getLsbD 7)] ∧
      RunsTo .tax s { s with fetched := s.a, x := s.a, p := q } ∧
      RunsTo .tay s { s with fetched := s.a, y := s.a, p := q }) ∧
    (∃ q : Byte, FlagsWritten s.p q [(.z, s.x == 0), (.n, s.x.getLsbD 7)] ∧
      RunsTo .txa s { s with fetched := s.a, a := s.x, p := q }) ∧
    (∃ q : Byte, FlagsWritten s.p q [(.z, s.y == 0), (.n, s.y.getLsbD 7)] ∧
      RunsTo .tya s { s with fetched := s.a, a := s.y, p := q }) ∧
    (∃ q : Byte, FlagsWritten s.p q [(.z, s.sp == 0), (.n, s.sp.getLsbD 7)] ∧
      RunsTo .tsx s { s with fetched := s.a, x := s.sp, p := q }) ∧
    RunsTo .txs s { s with fetched := s.a, sp := s.x }

/-! ## Arithmetic, logic, compare, increment -/

/-- R200: ADC. The sum of `A`, the operand and `C`, reduced to a byte; `C` when it exceeds 255; `V` when both operands have the
same bit 7 and the result's differs; `Z`, `N` from the byte. -/
def Obligations.AdcAddsWithCarry : Prop :=
  EncodedAs .adc [(.imm, 0x69, 2), (.zp0, 0x65, 3), (.zpx, 0x75, 4), (.abs, 0x6D, 4), (.abx, 0x7D, 4),
    (.aby, 0x79, 4), (.izx, 0x61, 6), (.izy, 0x71, 5)] ∧
  ∀ (o : Operand) (s : State) (crossed : Bool) (m : Byte) (t : State), OperandIs o s crossed m t →
    let sum := s.a.toNat + m.toNat + (getFlag .c s.p).toNat
    let r : Byte := BitVec.ofNat 8 sum
    ∃ q : Byte,
      FlagsWritten s.p q
        [(.c, decide (255 < sum)), (.z, r == 0), (.n, r.getLsbD 7),
         (.v, (s.a.getLsbD 7 == m.getLsbD 7) && (r.getLsbD 7 != s.a.getLsbD 7))] ∧
      RunsTo (.adc o) s { scratch s t with a := r, p := q, cycles := s.cycles + crossed.toNat }

/-- R201: SBC. `A - M - (1 - C)` reduced to a byte; `C` exactly when there is no borrow; `V` when `A` and the complemented
operand have the same bit 7 and the result's differs; `Z`, `N` from the byte. -/
def Obligations.SbcSubtractsWithBorrow : Prop :=
  EncodedAs .sbc [(.imm, 0xE9, 2), (.zp0, 0xE5, 3), (.zpx, 0xF5, 4), (.abs, 0xED, 4), (.abx, 0xFD, 4),
    (.aby, 0xF9, 4), (.izx, 0xE1, 6), (.izy, 0xF1, 5)] ∧
  ∀ (o : Operand) (s : State) (crossed : Bool) (m : Byte) (t : State), OperandIs o s crossed m t →
    let diff : Int := (s.a.toNat : Int) - (m.toNat : Int) - (1 - ((getFlag .c s.p).toNat : Int))
    let r : Byte := BitVec.ofInt 8 diff
    ∃ q : Byte,
      FlagsWritten s.p q
        [(.c, decide (0 ≤ diff)), (.z, r == 0), (.n, r.getLsbD 7),
         (.v, (s.a.getLsbD 7 != m.getLsbD 7) && (r.getLsbD 7 != s.a.getLsbD 7))] ∧
      RunsTo (.sbc o) s { scratch s t with a := r, p := q, cycles := s.cycles + crossed.toNat }

/-- R199: `V` reports signed overflow, for the computation of ADC on the operand and of SBC on its complement. -/
def Obligations.OverflowIsSignedOverflow : Prop :=
  ∀ (a m : Byte) (c : Bool),
    ((addBytes a m c).overflow = true ↔
      a.toInt + m.toInt + (c.toNat : Int) < -128 ∨ 127 < a.toInt + m.toInt + (c.toNat : Int)) ∧
    ((addBytes a (complement m) c).overflow = true ↔
      a.toInt - m.toInt - (1 - (c.toNat : Int)) < -128 ∨ 127 < a.toInt - m.toInt - (1 - (c.toNat : Int)))

/-- R202, R203, R204: the bitwise operations; `Z`, `N` from the result. -/
def Obligations.LogicCombinesTheBits : Prop :=
  EncodedAs .and [(.imm, 0x29, 2), (.zp0, 0x25, 3), (.zpx, 0x35, 4), (.abs, 0x2D, 4), (.abx, 0x3D, 4),
    (.aby, 0x39, 4), (.izx, 0x21, 6), (.izy, 0x31, 5)] ∧
  EncodedAs .ora [(.imm, 0x09, 2), (.zp0, 0x05, 3), (.zpx, 0x15, 4), (.abs, 0x0D, 4), (.abx, 0x1D, 4),
    (.aby, 0x19, 4), (.izx, 0x01, 6), (.izy, 0x11, 5)] ∧
  EncodedAs .eor [(.imm, 0x49, 2), (.zp0, 0x45, 3), (.zpx, 0x55, 4), (.abs, 0x4D, 4), (.abx, 0x5D, 4),
    (.aby, 0x59, 4), (.izx, 0x41, 6), (.izy, 0x51, 5)] ∧
  ∀ (o : Operand) (s : State) (crossed : Bool) (m : Byte) (t : State), OperandIs o s crossed m t →
    (∃ r q : Byte, (∀ k, k < 8 → r.getLsbD k = (s.a.getLsbD k && m.getLsbD k)) ∧
      FlagsWritten s.p q [(.z, r == 0), (.n, r.getLsbD 7)] ∧
      RunsTo (.and o) s { scratch s t with a := r, p := q, cycles := s.cycles + crossed.toNat }) ∧
    (∃ r q : Byte, (∀ k, k < 8 → r.getLsbD k = (s.a.getLsbD k || m.getLsbD k)) ∧
      FlagsWritten s.p q [(.z, r == 0), (.n, r.getLsbD 7)] ∧
      RunsTo (.ora o) s { scratch s t with a := r, p := q, cycles := s.cycles + crossed.toNat }) ∧
    (∃ r q : Byte, (∀ k, k < 8 → r.getLsbD k = (s.a.getLsbD k != m.getLsbD k)) ∧
      FlagsWritten s.p q [(.z, r == 0), (.n, r.getLsbD 7)] ∧
      RunsTo (.eor o) s { scratch s t with a := r, p := q, cycles := s.cycles + crossed.toNat })

/-- R205, R206, R207: a comparison writes no register; `C` when the register is not below the operand, `Z` when they are equal,
`N` bit 7 of the difference; CMP alone earns the bonus cycle. -/
def Obligations.ComparesWriteOnlyFlags : Prop :=
  EncodedAs .cmp [(.imm, 0xC9, 2), (.zp0, 0xC5, 3), (.zpx, 0xD5, 4), (.abs, 0xCD, 4), (.abx, 0xDD, 4),
    (.aby, 0xD9, 4), (.izx, 0xC1, 6), (.izy, 0xD1, 5)] ∧
  EncodedAs .cpx [(.imm, 0xE0, 2), (.zp0, 0xE4, 3), (.abs, 0xEC, 4)] ∧
  EncodedAs .cpy [(.imm, 0xC0, 2), (.zp0, 0xC4, 3), (.abs, 0xCC, 4)] ∧
  ∀ (o : Operand) (s : State) (crossed : Bool) (m : Byte) (t : State), OperandIs o s crossed m t →
    (∃ q : Byte, FlagsWritten s.p q [(.c, decide (m.toNat ≤ s.a.toNat)), (.z, s.a == m), (.n, (s.a - m).getLsbD 7)] ∧
      RunsTo (.cmp o) s { scratch s t with p := q, cycles := s.cycles + crossed.toNat }) ∧
    (∃ q : Byte, FlagsWritten s.p q [(.c, decide (m.toNat ≤ s.x.toNat)), (.z, s.x == m), (.n, (s.x - m).getLsbD 7)] ∧
      RunsTo (.cpx o) s { scratch s t with p := q }) ∧
    (∃ q : Byte, FlagsWritten s.p q [(.c, decide (m.toNat ≤ s.y.toNat)), (.z, s.y == m), (.n, (s.y - m).getLsbD 7)] ∧
      RunsTo (.cpy o) s { scratch s t with p := q })

/-- R208: BIT writes `Z` from `A & M`, and `N`, `V` from bits 7 and 6 of the operand; no register. -/
def Obligations.BitTestsTheOperand : Prop :=
  EncodedAs .bit [(.zp0, 0x24, 3), (.abs, 0x2C, 4)] ∧
  ∀ (o : Operand) (s : State) (crossed : Bool) (m : Byte) (t : State), OperandIs o s crossed m t →
    ∃ q : Byte, FlagsWritten s.p q [(.z, (s.a &&& m) == 0), (.n, m.getLsbD 7), (.v, m.getLsbD 6)] ∧
      RunsTo (.bit o) s { scratch s t with p := q }

/-- R209, R210: INC and DEC read the byte at the effective address and write it back one more or one less, modulo 256; `Z`,
`N` from the new byte; no bonus cycle. -/
def Obligations.IncAndDecModifyStorage : Prop :=
  EncodedAs .inc [(.zp0, 0xE6, 5), (.zpx, 0xF6, 6), (.abs, 0xEE, 6), (.abx, 0xFE, 7)] ∧
  EncodedAs .dec [(.zp0, 0xC6, 5), (.zpx, 0xD6, 6), (.abs, 0xCE, 6), (.abx, 0xDE, 7)] ∧
  ∀ (o : Operand) (s : State) (crossed : Bool) (m : Byte) (t : State), memoryWf s = true → s.fatal = none →
    OperandIs o s crossed m t → servesAt t.addressAbs s = true →
    (∃ r q : Byte, r.toNat = (m.toNat + 1) % 256 ∧ FlagsWritten s.p q [(.z, r == 0), (.n, r.getLsbD 7)] ∧
      AnswersStoring (exec (.inc o) s) s { scratch s t with p := q } [(t.addressAbs, r)]) ∧
    (∃ r q : Byte, r.toNat = (m.toNat + 255) % 256 ∧ FlagsWritten s.p q [(.z, r == 0), (.n, r.getLsbD 7)] ∧
      AnswersStoring (exec (.dec o) s) s { scratch s t with p := q } [(t.addressAbs, r)])

/-- R211 to R214: the index registers count modulo 256; `Z`, `N` from the new value. -/
def Obligations.IndexRegistersCount : Prop :=
  EncodedAlone .inx 0xE8 2 ∧ EncodedAlone .iny 0xC8 2 ∧ EncodedAlone .dex 0xCA 2 ∧ EncodedAlone .dey 0x88 2 ∧
  ∀ s : State,
    (∃ r q : Byte, r.toNat = (s.x.toNat + 1) % 256 ∧ FlagsWritten s.p q [(.z, r == 0), (.n, r.getLsbD 7)] ∧
      RunsTo .inx s { s with fetched := s.a, x := r, p := q }) ∧
    (∃ r q : Byte, r.toNat = (s.y.toNat + 1) % 256 ∧ FlagsWritten s.p q [(.z, r == 0), (.n, r.getLsbD 7)] ∧
      RunsTo .iny s { s with fetched := s.a, y := r, p := q }) ∧
    (∃ r q : Byte, r.toNat = (s.x.toNat + 255) % 256 ∧ FlagsWritten s.p q [(.z, r == 0), (.n, r.getLsbD 7)] ∧
      RunsTo .dex s { s with fetched := s.a, x := r, p := q }) ∧
    (∃ r q : Byte, r.toNat = (s.y.toNat + 255) % 256 ∧ FlagsWritten s.p q [(.z, r == 0), (.n, r.getLsbD 7)] ∧
      RunsTo .dey s { s with fetched := s.a, y := r, p := q })

/-- R33: no arithmetic rule reads `D`. ADC and SBC with `D` set to any value do what they do without, and leave it. -/
def Obligations.AdcAndSbcIgnoreDecimal : Prop :=
  ∀ (o : Operand) (s : State) (d : Bool),
    exec (.adc o) (s.setFlag .d d) = mapNext (fun t => t.setFlag .d d) (exec (.adc o) s) ∧
    exec (.sbc o) (s.setFlag .d d) = mapNext (fun t => t.setFlag .d d) (exec (.sbc o) s)

/-! ## Shifts and rotates -/

/-- R229 to R233: the four shifts in both forms: the result and `C` as each rule says, `Z`, `N` from the result, no bonus
cycle. -/
def Obligations.ShiftsMoveOneBit : Prop :=
  EncodedAs .asl [(.imp, 0x0A, 2), (.zp0, 0x06, 5), (.zpx, 0x16, 6), (.abs, 0x0E, 6), (.abx, 0x1E, 7)] ∧
  EncodedAs .lsr [(.imp, 0x4A, 2), (.zp0, 0x46, 5), (.zpx, 0x56, 6), (.abs, 0x4E, 6), (.abx, 0x5E, 7)] ∧
  EncodedAs .rol [(.imp, 0x2A, 2), (.zp0, 0x26, 5), (.zpx, 0x36, 6), (.abs, 0x2E, 6), (.abx, 0x3E, 7)] ∧
  EncodedAs .ror [(.imp, 0x6A, 2), (.zp0, 0x66, 5), (.zpx, 0x76, 6), (.abs, 0x6E, 6), (.abx, 0x7E, 7)] ∧
  Shifts .asl aslOf ∧ Shifts .lsr lsrOf ∧ Shifts .rol rolOf ∧ Shifts .ror rorOf

/-! ## Flags and no-operations -/

/-- R240 to R246: each flag instruction writes its one flag. -/
def Obligations.FlagInstructionsWriteOneFlag : Prop :=
  EncodedAlone .clc 0x18 2 ∧ EncodedAlone .sec 0x38 2 ∧ EncodedAlone .cli 0x58 2 ∧ EncodedAlone .sei 0x78 2 ∧
  EncodedAlone .cld 0xD8 2 ∧ EncodedAlone .sed 0xF8 2 ∧ EncodedAlone .clv 0xB8 2 ∧
  ∀ s : State, ∀ e ∈ [(Instr.clc, Flag.c, false), (.sec, .c, true), (.cli, .i, false), (.sei, .i, true),
      (.cld, .d, false), (.sed, .d, true), (.clv, .v, false)],
    ∃ q : Byte, FlagsWritten s.p q [(e.2.1, e.2.2)] ∧ RunsTo e.1 s { s with fetched := s.a, p := q }

/-- R247, R248, R125: NOP, and the default no-op that every one of the 105 unassigned bytes decodes to with length 1 and base
cycle count 1, change nothing but `fetched`. -/
def Obligations.NoOpsChangeNothing : Prop :=
  EncodedAlone .nop 0xEA 2 ∧ unassigned.length = 105 ∧
  ∀ s : State,
    RunsTo .nop s { s with fetched := s.a } ∧
    ∀ b ∈ unassigned, EncodedAlone (.dnop b) b 1 ∧ decode [b] = .ok (.dnop b, []) ∧
      RunsTo (.dnop b) s { s with fetched := s.a }

/-! ## Branches, jumps, call and return -/

/-- R260 to R268: the eight branches, taken and not taken. -/
def Obligations.BranchesGoWhereTheFlagSays : Prop :=
  EncodedBranch .bcc 0x90 2 ∧ EncodedBranch .bcs 0xB0 2 ∧ EncodedBranch .beq 0xF0 2 ∧ EncodedBranch .bne 0xD0 2 ∧
  EncodedBranch .bmi 0x30 2 ∧ EncodedBranch .bpl 0x10 2 ∧ EncodedBranch .bvc 0x50 2 ∧ EncodedBranch .bvs 0x70 2 ∧
  BranchesOn .bcc .c false ∧ BranchesOn .bcs .c true ∧ BranchesOn .beq .z true ∧ BranchesOn .bne .z false ∧
  BranchesOn .bmi .n true ∧ BranchesOn .bpl .n false ∧ BranchesOn .bvc .v false ∧ BranchesOn .bvs .v true

/-- R269: JMP goes to the resolved address; no flag, no stack, no read at the target. -/
def Obligations.JmpGoesToTheEffectiveAddress : Prop :=
  EncodedAs .jmp [(.abs, 0x4C, 3), (.ind, 0x6C, 5)] ∧
  ∀ (o : Operand) (s : State) (crossed : Bool) (t : State), resolve o s = .next (crossed, t) →
    RunsTo (.jmp o) s { scratch s t with pc := t.addressAbs }

/-- R270: JSR pushes the address of its last byte, high byte first, and goes to its operand. -/
def Obligations.JsrPushesAndJumps : Prop :=
  (∀ w : Word, encode (.jsr w) = [0x20, lowByte w, highByte w]) ∧
  defaultTable.lookup 0x20 = ⟨.jsr, .abs, 6⟩ ∧
  ∀ (w : Word) (s : State), memoryWf s = true → s.fatal = none →
    servesAt (stackAt s.sp) s = true → servesAt (stackAt (s.sp - 1)) s = true →
    AnswersStoring (exec (.jsr w) s) s { s with addressAbs := w, sp := s.sp - 2, pc := w }
      [(stackAt (s.sp - 1), lowByte (s.pc - 1)), (stackAt s.sp, highByte (s.pc - 1))]

/-- R271: RTS pulls the low byte, then the high byte, and goes one past the word. -/
def Obligations.RtsPullsAndReturns : Prop :=
  EncodedAlone .rts 0x60 6 ∧
  ∀ (s t : State) (l h : Byte), Reads s [(stackAt (s.sp + 1), l), (stackAt (s.sp + 2), h)] t →
    RunsTo .rts s { s with fetched := s.a, sp := s.sp + 2, pc := wordOf h l + 1, draws := t.draws }

/-- R270, R271 (the source's property T7): where the two stack locations store, an RTS right after a JSR, wherever the
subroutine's code lies, returns to the instruction after the JSR with `SP` as it was. -/
def Obligations.RtsUndoesJsr : Prop :=
  ∀ (w pc : Word) (s : State), memoryWf s = true → s.fatal = none →
    storableAt (stackAt s.sp) s = true → storableAt (stackAt (s.sp - 1)) s = true →
    ∃ t u : State, exec (.jsr w) s = .next t ∧ t.pc = w ∧ exec .rts { t with pc := pc } = .next u ∧
      u.pc = s.pc ∧ u.sp = s.sp ∧ u.p = s.p ∧ u.a = s.a ∧ u.x = s.x ∧ u.y = s.y

/-! ## Stack and system instructions -/

/-- R280, R282: PHA pushes `A`, PHP pushes `P` with bits 4 and 5 set and leaves the register. -/
def Obligations.PushesWriteTheStack : Prop :=
  EncodedAlone .pha 0x48 3 ∧ EncodedAlone .php 0x08 3 ∧
  ∀ s : State, memoryWf s = true → s.fatal = none → servesAt (stackAt s.sp) s = true →
    AnswersStoring (exec .pha s) s { s with fetched := s.a, sp := s.sp - 1 } [(stackAt s.sp, s.a)] ∧
    ∃ f : Byte, FlagsWritten s.p f [(.b, true), (.u, true)] ∧
      AnswersStoring (exec .php s) s { s with fetched := s.a, sp := s.sp - 1 } [(stackAt s.sp, f)]

/-- R281, R283: PLA pulls `A` and writes `Z`, `N` from it; PLP pulls `P` and clears `B` and `U` in the register. -/
def Obligations.PullsReadTheStack : Prop :=
  EncodedAlone .pla 0x68 4 ∧ EncodedAlone .plp 0x28 4 ∧
  ∀ (s t : State) (m : Byte), busRead (stackAt (s.sp + 1)) s = .next (m, t) →
    (∃ q : Byte, FlagsWritten s.p q [(.z, m == 0), (.n, m.getLsbD 7)] ∧
      RunsTo .pla s { s with fetched := s.a, sp := s.sp + 1, a := m, p := q, draws := t.draws }) ∧
    (∃ q : Byte, FlagsWritten m q [(.b, false), (.u, false)] ∧
      RunsTo .plp s { s with fetched := s.a, sp := s.sp + 1, p := q, draws := t.draws })

/-- R284: BRK takes the exception: `PC + 1` is pushed high byte first (the opcode's address plus 2), then the flags with `I`,
`B`, `U` set; `I` and `U` end 1 and `B` 0 in the register; `PC` is the word at 0xFFFE. -/
def Obligations.BrkEntersThroughTheVector : Prop :=
  EncodedAlone .brk 0x00 7 ∧
  ∀ (s t : State) (l h : Byte), memoryWf s = true →
    servesAt (stackAt s.sp) s = true → servesAt (stackAt (s.sp - 1)) s = true → servesAt (stackAt (s.sp - 2)) s = true →
    Reads s [(0xFFFE, l), (0xFFFF, h)] t →
    ∃ f q : Byte, FlagsWritten s.p f [(.i, true), (.b, true), (.u, true)] ∧
      FlagsWritten s.p q [(.i, true), (.b, false), (.u, true)] ∧
      AnswersStoring (exec .brk s) s
        { s with fetched := s.a, sp := s.sp - 3, p := q, pc := wordOf h l, draws := t.draws }
        [(stackAt (s.sp - 2), f), (stackAt (s.sp - 1), lowByte (s.pc + 1)), (stackAt s.sp, highByte (s.pc + 1))]

/-- R285: RTI pulls the flags, with `B` and `U` cleared in the register, then the address, low byte first, and adds nothing to
it. -/
def Obligations.RtiRestoresFlagsAndPc : Prop :=
  EncodedAlone .rti 0x40 6 ∧
  ∀ (s t : State) (m l h : Byte),
    Reads s [(stackAt (s.sp + 1), m), (stackAt (s.sp + 2), l), (stackAt (s.sp + 3), h)] t →
    ∃ q : Byte, FlagsWritten m q [(.b, false), (.u, false)] ∧
      RunsTo .rti s { s with fetched := s.a, sp := s.sp + 3, p := q, pc := wordOf h l, draws := t.draws }

/-- R285, C2 (the source's property T8 as the spec reads it): where the three stack locations store and the vector is readable,
an RTI right after a BRK returns to the BRK's address plus 2 with `SP`, `A`, `X`, `Y` and the flags `C`, `Z`, `D`, `V`, `N` as they
were, `I` = 1, and `B` and `U` clear. -/
def Obligations.RtiUndoesBrk : Prop :=
  ∀ (pc : Word) (s : State), memoryWf s = true → s.fatal = none →
    storableAt (stackAt s.sp) s = true → storableAt (stackAt (s.sp - 1)) s = true →
    storableAt (stackAt (s.sp - 2)) s = true → servesAt 0xFFFE s = true → servesAt 0xFFFF s = true →
    ∃ t u : State, exec .brk s = .next t ∧ exec .rti { t with pc := pc } = .next u ∧
      u.pc = s.pc + 1 ∧ u.sp = s.sp ∧ u.a = s.a ∧ u.x = s.x ∧ u.y = s.y ∧
      FlagsWritten s.p u.p [(.i, true), (.b, false), (.u, false)]

/-! ## Interrupts and reset -/

/-- R302, R306: a non-maskable request, and a maskable one with `I` = 0, push `PC` and the flags with `B` = 0 and `U` = 1 and `I`
as it was; `I` and `U` end 1 and `B` 0; `PC` is the vector's word; `cycles` is 8 or 7, whatever was left. With the fatal mark set,
or a maskable request with `I` = 1, nothing changes. -/
def Obligations.InterruptsEnterThroughTheirVector : Prop :=
  ∀ (nonMaskable : Bool) (s : State),
    (s.fatal ≠ none → interrupt nonMaskable s = .next s) ∧
    (nonMaskable = false → getFlag .i s.p = true → interrupt nonMaskable s = .next s) ∧
    ∀ (t : State) (l h : Byte), memoryWf s = true →
      servesAt (stackAt s.sp) s = true → servesAt (stackAt (s.sp - 1)) s = true → servesAt (stackAt (s.sp - 2)) s = true →
      (nonMaskable = true ∨ getFlag .i s.p = false) →
      Reads s [(if nonMaskable then 0xFFFA else 0xFFFE, l), (if nonMaskable then 0xFFFB else 0xFFFF, h)] t →
      ∃ f q : Byte, FlagsWritten s.p f [(.b, false), (.u, true)] ∧
        FlagsWritten s.p q [(.i, true), (.b, false), (.u, true)] ∧
        AnswersStoring (interrupt nonMaskable s) s
          { s with sp := s.sp - 3, p := q, pc := wordOf h l, cycles := if nonMaskable then 8 else 7, draws := t.draws }
          [(stackAt (s.sp - 2), f), (stackAt (s.sp - 1), lowByte s.pc), (stackAt s.sp, highByte s.pc)]

/-- R303: a maskable request while `I` = 1 is dropped: the host's call leaves the whole state as it was, so whatever calls the host
makes afterwards, one that clears `I` among them, give what they give without it. -/
def Obligations.MaskedRequestsAreDropped : Prop :=
  ∀ (rp : Config.ResetParams) (calls : List HostAction) (s : State), getFlag .i s.p = true →
    hostRun rp (.interrupt false :: calls) s = hostRun rp calls s

/-- R308: where the three stack locations store and the vector is readable, an RTI right after a taken interrupt resumes at the
interrupted address with every flag as it was but `B` and `U`, which are clear, and every register as it was. -/
def Obligations.RtiUndoesAnInterrupt : Prop :=
  ∀ (nonMaskable : Bool) (pc : Word) (s : State), memoryWf s = true → s.fatal = none →
    (nonMaskable = true ∨ getFlag .i s.p = false) →
    storableAt (stackAt s.sp) s = true → storableAt (stackAt (s.sp - 1)) s = true →
    storableAt (stackAt (s.sp - 2)) s = true → AllServed s →
    ∃ t u : State, interrupt nonMaskable s = .next t ∧ exec .rti { t with pc := pc } = .next u ∧
      u.pc = s.pc ∧ u.sp = s.sp ∧ u.a = s.a ∧ u.x = s.x ∧ u.y = s.y ∧
      FlagsWritten s.p u.p [(.b, false), (.u, false)]

/-- R330: reset writes the registers, reads the vector at 0xFFFC and sets 8 cycles; no storage, whatever the parameters. With
the fatal mark set nothing changes. -/
def Obligations.ResetInitialisesTheRegisters : Prop :=
  ∀ (rp : Config.ResetParams) (s : State),
    (s.fatal ≠ none → resetMachine rp s = .next s) ∧
    ∀ (t : State) (l h : Byte), Reads s [(0xFFFC, l), (0xFFFD, h)] t →
      ∃ q : Byte, FlagsWritten rp.pOther q [(.u, true)] ∧
        resetMachine rp s = .next
          { s with
            a := rp.a, x := rp.x, y := rp.y, sp := 0xFD, p := q, fetched := 0, addressAbs := 0, addressRel := 0,
            pc := wordOf h l, cycles := 8, draws := t.draws }

/-- R331 with the defaults of R6: resetting a live FLAT machine with the default table that lists no byte of memory, whatever its registers held,
gives `State.reset`. The configuration, the blank byte and the defaults are the model's choices (log 2, 3, 4). -/
def Obligations.ResetStateIsTheResultOfReset : Prop :=
  ∀ s : State, Live s → s.opTable = defaultTable → s.devices = flatDevices [] → s.draws = 0 →
    resetMachine Config.resetDefaults s = .next State.reset ∧
    State.reset.sp = 0xFD ∧ State.reset.cycles = 8 ∧ getFlag .u State.reset.p = true ∧ State.reset.p = 0x20

/-! ## The bus and its devices -/

/-- R70, R71: the first device in list order whose range contains the address answers, whatever stands behind it; with none the
access is `NoDevice`. -/
def Obligations.TheFirstMatchingDeviceAnswers : Prop :=
  (∀ (ds es : List Device) (d : Device) (a : Word) (o : Originator),
    (∀ e ∈ ds, e.withinRange a o = false) → d.withinRange a o = true →
    select (ds ++ d :: es) a o = some (ds.length, d)) ∧
  (∀ (s : State) (a : Word) (v : Byte) (o : Originator), s.fatal = none → (∀ e ∈ s.devices, e.withinRange a o = false) →
    busReadAs o a s = .fault (.noDevice a) ∧ busWriteAs o a v s = .fault (.noDevice a))

/-- R75, R90: in configuration FLAT every address is RAM one to one: a write changes that one byte. -/
def Obligations.FlatRamIsOneToOne : Prop :=
  ∀ (s : State) (m : Memory) (a : Word) (v : Byte), s.fatal = none → s.devices = flatDevices m → m.wf = true →
    busRead a s = .next (m.read a.toNat, s) ∧
    ∃ t : State, busWrite a v s = .next t ∧ t = { s with devices := t.devices } ∧
      ∀ b : Word, byteAt b t = if b = a then some v else some (m.read b.toNat)

/-- R75, R76 in configuration CART: the window's addresses with the same low 11 bits name one byte; a write in the window
changes those addresses and no other address. -/
def Obligations.MirroredRamRepeatsEvery2K : Prop :=
  ∀ (s : State) (ram prg chr : Memory) (prgBanks chrBanks : Nat) (writable : Bool) (a : Word) (v : Byte),
    s.fatal = none → s.devices = cartDevices ram prgBanks chrBanks writable prg chr → ram.wf = true → a.toNat < 0x2000 →
    busRead a s = .next (ram.read (a.toNat % 0x800), s) ∧
    ∃ t : State, busWrite a v s = .next t ∧
      ∀ b : Word, byteAt b t = if b.toNat < 0x2000 ∧ b.toNat % 0x800 = a.toNat % 0x800 then some v else byteAt b s

/-- R78, R79, R91 in configuration CART: a program address reads the program region under the mask 0x3FFF for one bank and 0x7FFF
for more; a write changes exactly the addresses of that byte when `CART_WRITABLE`, and nothing otherwise; without a program
bank, a configuration the spec excludes, the access is refused (the model's choice, log 9). -/
def Obligations.CartridgeMapsTheProgramRegion : Prop :=
  ∀ (s : State) (ram prg chr : Memory) (prgBanks chrBanks : Nat) (writable : Bool) (a : Word) (v : Byte),
    s.fatal = none → s.devices = cartDevices ram prgBanks chrBanks writable prg chr → prg.wf = true → 0x8000 ≤ a.toNat →
    (prgBanks = 0 → busRead a s = .refused .emptyProgramRegion ∧ busWrite a v s = .refused .emptyProgramRegion) ∧
    (0 < prgBanks →
      let size := if prgBanks = 1 then 0x4000 else 0x8000
      busRead a s = .next (prg.read (a.toNat % size), s) ∧
      ∃ t : State, busWrite a v s = .next t ∧
        ∀ b : Word, byteAt b t =
          if writable = true ∧ 0x8000 ≤ b.toNat ∧ b.toNat % size = a.toNat % size then some v else byteAt b s)

/-- R90: in configuration CART an access between the window and the cartridge is `NoDevice`, read or write. -/
def Obligations.CartHoleIsNoDevice : Prop :=
  ∀ (s : State) (ram prg chr : Memory) (prgBanks chrBanks : Nat) (writable : Bool) (a : Word) (v : Byte),
    s.fatal = none → s.devices = cartDevices ram prgBanks chrBanks writable prg chr →
    0x2000 ≤ a.toNat → a.toNat < 0x8000 →
    busRead a s = .fault (.noDevice a) ∧ busWrite a v s = .fault (.noDevice a)

/-- R80, R78: a picture-originated access to the cartridge passes the address through to the pattern region, and is
`InvalidMapperAccess` with no pattern bank; a write stores when `CART_WRITABLE`; outside picture space no device answers. -/
def Obligations.PictureAccessesReachThePatternRegion : Prop :=
  ∀ (s : State) (ram prg chr : Memory) (prgBanks chrBanks : Nat) (writable : Bool) (a : Word) (v : Byte),
    s.fatal = none → s.devices = cartDevices ram prgBanks chrBanks writable prg chr →
    (a.toNat ≤ 0x1FFF → chrBanks = 0 →
      busReadAs .pictureUnit a s = .fault (.invalidMapperAccess a) ∧
      busWriteAs .pictureUnit a v s = .fault (.invalidMapperAccess a)) ∧
    (a.toNat ≤ 0x1FFF → 0 < chrBanks →
      busReadAs .pictureUnit a s = .next (chr.read a.toNat, s) ∧
      busWriteAs .pictureUnit a v s = .next
        { s with
          devices := cartDevices ram prgBanks chrBanks writable prg (if writable then chr.write a.toNat v else chr) }) ∧
    (0x1FFF < a.toNat →
      busReadAs .pictureUnit a s = .fault (.noDevice a) ∧ busWriteAs .pictureUnit a v s = .fault (.noDevice a))

/-- R85, R62: a processor read that reaches a picture unit answers a drawn byte and changes nothing else in the CORE; a write
changes nothing. What the byte is is free. -/
def Obligations.PictureUnitReadsAreDraws : Prop :=
  ∀ (s : State) (ds es : List Device) (first last a : Word) (v : Byte), s.fatal = none →
    s.devices = ds ++ .pictureUnit first last :: es → (∀ e ∈ ds, e.withinRange a .processor = false) →
    first.toNat ≤ a.toNat → a.toNat ≤ last.toNat →
    busRead a s = .next (Config.pictureDraw s.draws, { s with draws := s.draws + 1 }) ∧ busWrite a v s = .next s

/-- R336, R74: in configuration FLAT a loaded program of at most 2^16 bytes reads back, byte i at `LOAD_ADDR + i` modulo 2^16,
and no other byte changes. -/
def Obligations.LoadedProgramsReadBack : Prop :=
  ∀ (s : State) (m : Memory) (loadAddr : Word) (program : List Byte), s.fatal = none → s.devices = flatDevices m →
    m.wf = true → program.length ≤ 65536 →
    ∀ b : Word, byteAt b (loadProgram loadAddr program s) =
      match program[(b - loadAddr).toNat]? with
      | some v => some v
      | none => byteAt b s

/-! ## Rules of the whole machine -/

/-- R31 to R35: no instruction writes a flag that the rules do not list it as a writer of. -/
def Obligations.FlagsAreWrittenOnlyByTheirWriters : Prop :=
  ∀ (i : Instr) (s t : State) (f : Flag), exec i s = .next t → f ∉ flagsWrittenBy i → getFlag f t.p = getFlag f s.p

/-- R20, R21, R23: `A`, `X`, `Y` and `PC` are changed only by the instructions whose rules write them. -/
def Obligations.RegistersAreWrittenOnlyByTheirWriters : Prop :=
  ∀ (i : Instr) (s t : State), exec i s = .next t →
    (writesA i = false → t.a = s.a) ∧ (writesX i = false → t.x = s.x) ∧ (writesY i = false → t.y = s.y) ∧
    (writesPC i = false → t.pc = s.pc)

/-- R154, R51: only the stores, the memory read-modify-writes and the pushes change storage. -/
def Obligations.StorageIsWrittenOnlyByItsWriters : Prop :=
  ∀ (i : Instr) (s t : State), exec i s = .next t → writesStorage i = false →
    t.devices = s.devices ∧ ∀ b : Word, byteAt b t = byteAt b s

/-- R27: every instruction but TXS moves `SP` by its own fixed number of pushes and pulls, modulo 256. -/
def Obligations.OnlyTxsLoadsTheStackPointer : Prop :=
  ∀ (i : Instr) (s t : State), exec i s = .next t → i ≠ .txs → t.sp = s.sp + stackMove i

/-- R14, R52, R114, R44: a step never changes the configuration: the decode table, the devices, their order and their parameters,
the processor's connection; and a step that answers sets no fatal mark. -/
def Obligations.StepsNeverChangeTheConfiguration : Prop :=
  ∀ s t : State, step s = .next t →
    configOf t = configOf s ∧ t.opTable = s.opTable ∧ t.processorConnected = s.processorConnected ∧ t.fatal = s.fatal

/-- R34, R43, R50, R51: every step keeps the invariant: storage canonical and inside its regions, `B` clear in the register, and
under the default table `cycles` at most 8. -/
def Obligations.EveryStepKeepsTheInvariant : Prop := ∀ s t : State, Inv s → step s = .next t → Inv t

/-- The invariant holds right after reset. -/
def Obligations.TheInvariantHoldsAtReset : Prop := Inv State.reset

/-- R34, R330, R302, R74, R80: every call of the host and every access of the picture unit keeps the invariant too, when
`RESET_P_OTHER` has `B` = 0. For one that raises a fatal this speaks of the fields that `settle` keeps, the model's choice (DESIGN
CHOICE, log 5): the spec leaves that state unspecified (R143), and of it the statement says nothing of the hardware. -/
def Obligations.EveryHostCallKeepsTheInvariant : Prop :=
  ∀ (rp : Config.ResetParams) (call : HostAction) (s : State), getFlag .b rp.pOther = false → Inv s →
    Inv (hostAct rp call s)

/-- R155, R90: where every address is served, every instruction completes, whatever the registers hold. -/
def Obligations.EveryInstructionCompletesOnAServedBus : Prop :=
  ∀ (i : Instr) (s : State), s.fatal = none → AllServed s → ∃ t : State, exec i s = .next t

/-- R90, R115, R155, R320: a live machine in configuration FLAT, under any decode table that meets R115, never stops: every run of
it, of any length and over any memory contents, is safe. -/
def Obligations.TheFlatMachineNeverStops : Prop :=
  ∀ (k : Nat) (s : State) (m : Memory), Live s → s.opTable.lawful = true → s.devices = flatDevices m → SafeFor k s
end

