-- ==== Sys2Proof/Laws/Bits.lean ====
section
/-! SUPPORT. The byte-order helpers: the bytes of a word, and what each helper is as a number. -/

namespace Sys2Proof

theorem toNat_mk16 (h l : Byte) : (mk16 h l).toNat = 256 * h.toNat + l.toNat := by
  simp only [mk16, BitVec.toNat_append]
  rw [← Nat.shiftLeft_add_eq_or_of_lt (by omega), Nat.shiftLeft_eq]
  omega

theorem toNat_hi (w : Word) : (hi w).toNat = w.toNat / 256 := by
  simp only [hi, BitVec.extractLsb'_toNat, Nat.shiftRight_eq_div_pow]
  omega

theorem toNat_lo (w : Word) : (lo w).toNat = w.toNat % 256 := by
  simp only [lo, BitVec.extractLsb'_toNat, Nat.shiftRight_zero]

theorem toNat_zext16 (b : Byte) : (zext16 b).toNat = b.toNat := by
  simp only [zext16, BitVec.toNat_setWidth]
  omega

theorem toNat_bit16 (b : Bool) : (bit16 b).toNat = b.toNat := by cases b <;> rfl

/-- A word is its two bytes. -/
@[simp] theorem mk16_hi_lo (w : Word) : mk16 (hi w) (lo w) = w := by
  apply BitVec.eq_of_toNat_eq
  rw [toNat_mk16, toNat_hi, toNat_lo]
  omega

@[simp] theorem hi_mk16 (h l : Byte) : hi (mk16 h l) = h := by
  apply BitVec.eq_of_toNat_eq
  rw [toNat_hi, toNat_mk16]
  omega

@[simp] theorem lo_mk16 (h l : Byte) : lo (mk16 h l) = l := by
  apply BitVec.eq_of_toNat_eq
  rw [toNat_lo, toNat_mk16]
  omega

/-- The mask 0x00FF keeps the low byte (R164). -/
theorem toNat_and_255 (w : Word) : (w &&& 0x00FF).toNat = w.toNat % 256 := by
  rw [BitVec.toNat_and]
  exact Nat.and_two_pow_sub_one_eq_mod _ 8

/-- Sign extension, as the model writes it, is `BitVec.signExtend`, and keeps the signed value (R8). -/
theorem sext16_eq (b : Byte) : sext16 b = b.signExtend 16 := by
  revert b
  decide

theorem toInt_sext16 (b : Byte) : (sext16 b).toInt = b.toInt := by
  rw [sext16_eq, BitVec.toInt_signExtend_of_le (by omega)]

end Sys2Proof
end

