-- ==== Sys2Proof/Laws/State.lean ====
section
/-! SUPPORT. One lemma per field per update of the state. -/

namespace Sys2Proof.Machine

/-! ## `andThen` -/

@[simp] theorem andThen_next {α β : Type} (v : α) (k : α → Result β) : andThen (.next v) k = k v := rfl
@[simp] theorem andThen_fault {α β : Type} (f : Fault) (k : α → Result β) : andThen (.fault f) k = .fault f := rfl
@[simp] theorem andThen_refused {α β : Type} (f : Refusal) (k : α → Result β) : andThen (.refused f) k = .refused f := rfl

/-- A sequence answers exactly when its first part answers and the rest answers on that. -/
theorem andThen_eq_next {α β : Type} {r : Result α} {k : α → Result β} {b : β} :
    andThen r k = .next b ↔ ∃ v, r = .next v ∧ k v = .next b := by
  cases r <;> simp [andThen]

theorem andThen_assoc {α β γ : Type} (r : Result α) (k : α → Result β) (l : β → Result γ) :
    andThen (andThen r k) l = andThen r fun v => andThen (k v) l := by
  cases r <;> rfl

/-! ## Named updates -/

@[simp] theorem State.setA_a (v : Byte) (s : State) : (s.setA v).a = v := rfl
@[simp] theorem State.setA_x (v : Byte) (s : State) : (s.setA v).x = s.x := rfl
@[simp] theorem State.setA_y (v : Byte) (s : State) : (s.setA v).y = s.y := rfl
@[simp] theorem State.setA_pc (v : Byte) (s : State) : (s.setA v).pc = s.pc := rfl
@[simp] theorem State.setA_sp (v : Byte) (s : State) : (s.setA v).sp = s.sp := rfl
@[simp] theorem State.setA_p (v : Byte) (s : State) : (s.setA v).p = s.p := rfl
@[simp] theorem State.setA_fetched (v : Byte) (s : State) : (s.setA v).fetched = s.fetched := rfl
@[simp] theorem State.setA_addressAbs (v : Byte) (s : State) : (s.setA v).addressAbs = s.addressAbs := rfl
@[simp] theorem State.setA_addressRel (v : Byte) (s : State) : (s.setA v).addressRel = s.addressRel := rfl
@[simp] theorem State.setA_cycles (v : Byte) (s : State) : (s.setA v).cycles = s.cycles := rfl
@[simp] theorem State.setA_fatal (v : Byte) (s : State) : (s.setA v).fatal = s.fatal := rfl
@[simp] theorem State.setA_devices (v : Byte) (s : State) : (s.setA v).devices = s.devices := rfl
@[simp] theorem State.setA_processorConnected (v : Byte) (s : State) : (s.setA v).processorConnected = s.processorConnected := rfl
@[simp] theorem State.setA_draws (v : Byte) (s : State) : (s.setA v).draws = s.draws := rfl
@[simp] theorem State.setA_opTable (v : Byte) (s : State) : (s.setA v).opTable = s.opTable := rfl
@[simp] theorem State.setX_a (v : Byte) (s : State) : (s.setX v).a = s.a := rfl
@[simp] theorem State.setX_x (v : Byte) (s : State) : (s.setX v).x = v := rfl
@[simp] theorem State.setX_y (v : Byte) (s : State) : (s.setX v).y = s.y := rfl
@[simp] theorem State.setX_pc (v : Byte) (s : State) : (s.setX v).pc = s.pc := rfl
@[simp] theorem State.setX_sp (v : Byte) (s : State) : (s.setX v).sp = s.sp := rfl
@[simp] theorem State.setX_p (v : Byte) (s : State) : (s.setX v).p = s.p := rfl
@[simp] theorem State.setX_fetched (v : Byte) (s : State) : (s.setX v).fetched = s.fetched := rfl
@[simp] theorem State.setX_addressAbs (v : Byte) (s : State) : (s.setX v).addressAbs = s.addressAbs := rfl
@[simp] theorem State.setX_addressRel (v : Byte) (s : State) : (s.setX v).addressRel = s.addressRel := rfl
@[simp] theorem State.setX_cycles (v : Byte) (s : State) : (s.setX v).cycles = s.cycles := rfl
@[simp] theorem State.setX_fatal (v : Byte) (s : State) : (s.setX v).fatal = s.fatal := rfl
@[simp] theorem State.setX_devices (v : Byte) (s : State) : (s.setX v).devices = s.devices := rfl
@[simp] theorem State.setX_processorConnected (v : Byte) (s : State) : (s.setX v).processorConnected = s.processorConnected := rfl
@[simp] theorem State.setX_draws (v : Byte) (s : State) : (s.setX v).draws = s.draws := rfl
@[simp] theorem State.setX_opTable (v : Byte) (s : State) : (s.setX v).opTable = s.opTable := rfl
@[simp] theorem State.setY_a (v : Byte) (s : State) : (s.setY v).a = s.a := rfl
@[simp] theorem State.setY_x (v : Byte) (s : State) : (s.setY v).x = s.x := rfl
@[simp] theorem State.setY_y (v : Byte) (s : State) : (s.setY v).y = v := rfl
@[simp] theorem State.setY_pc (v : Byte) (s : State) : (s.setY v).pc = s.pc := rfl
@[simp] theorem State.setY_sp (v : Byte) (s : State) : (s.setY v).sp = s.sp := rfl
@[simp] theorem State.setY_p (v : Byte) (s : State) : (s.setY v).p = s.p := rfl
@[simp] theorem State.setY_fetched (v : Byte) (s : State) : (s.setY v).fetched = s.fetched := rfl
@[simp] theorem State.setY_addressAbs (v : Byte) (s : State) : (s.setY v).addressAbs = s.addressAbs := rfl
@[simp] theorem State.setY_addressRel (v : Byte) (s : State) : (s.setY v).addressRel = s.addressRel := rfl
@[simp] theorem State.setY_cycles (v : Byte) (s : State) : (s.setY v).cycles = s.cycles := rfl
@[simp] theorem State.setY_fatal (v : Byte) (s : State) : (s.setY v).fatal = s.fatal := rfl
@[simp] theorem State.setY_devices (v : Byte) (s : State) : (s.setY v).devices = s.devices := rfl
@[simp] theorem State.setY_processorConnected (v : Byte) (s : State) : (s.setY v).processorConnected = s.processorConnected := rfl
@[simp] theorem State.setY_draws (v : Byte) (s : State) : (s.setY v).draws = s.draws := rfl
@[simp] theorem State.setY_opTable (v : Byte) (s : State) : (s.setY v).opTable = s.opTable := rfl
@[simp] theorem State.setPc_a (v : Word) (s : State) : (s.setPc v).a = s.a := rfl
@[simp] theorem State.setPc_x (v : Word) (s : State) : (s.setPc v).x = s.x := rfl
@[simp] theorem State.setPc_y (v : Word) (s : State) : (s.setPc v).y = s.y := rfl
@[simp] theorem State.setPc_pc (v : Word) (s : State) : (s.setPc v).pc = v := rfl
@[simp] theorem State.setPc_sp (v : Word) (s : State) : (s.setPc v).sp = s.sp := rfl
@[simp] theorem State.setPc_p (v : Word) (s : State) : (s.setPc v).p = s.p := rfl
@[simp] theorem State.setPc_fetched (v : Word) (s : State) : (s.setPc v).fetched = s.fetched := rfl
@[simp] theorem State.setPc_addressAbs (v : Word) (s : State) : (s.setPc v).addressAbs = s.addressAbs := rfl
@[simp] theorem State.setPc_addressRel (v : Word) (s : State) : (s.setPc v).addressRel = s.addressRel := rfl
@[simp] theorem State.setPc_cycles (v : Word) (s : State) : (s.setPc v).cycles = s.cycles := rfl
@[simp] theorem State.setPc_fatal (v : Word) (s : State) : (s.setPc v).fatal = s.fatal := rfl
@[simp] theorem State.setPc_devices (v : Word) (s : State) : (s.setPc v).devices = s.devices := rfl
@[simp] theorem State.setPc_processorConnected (v : Word) (s : State) : (s.setPc v).processorConnected = s.processorConnected := rfl
@[simp] theorem State.setPc_draws (v : Word) (s : State) : (s.setPc v).draws = s.draws := rfl
@[simp] theorem State.setPc_opTable (v : Word) (s : State) : (s.setPc v).opTable = s.opTable := rfl
@[simp] theorem State.setSp_a (v : Byte) (s : State) : (s.setSp v).a = s.a := rfl
@[simp] theorem State.setSp_x (v : Byte) (s : State) : (s.setSp v).x = s.x := rfl
@[simp] theorem State.setSp_y (v : Byte) (s : State) : (s.setSp v).y = s.y := rfl
@[simp] theorem State.setSp_pc (v : Byte) (s : State) : (s.setSp v).pc = s.pc := rfl
@[simp] theorem State.setSp_sp (v : Byte) (s : State) : (s.setSp v).sp = v := rfl
@[simp] theorem State.setSp_p (v : Byte) (s : State) : (s.setSp v).p = s.p := rfl
@[simp] theorem State.setSp_fetched (v : Byte) (s : State) : (s.setSp v).fetched = s.fetched := rfl
@[simp] theorem State.setSp_addressAbs (v : Byte) (s : State) : (s.setSp v).addressAbs = s.addressAbs := rfl
@[simp] theorem State.setSp_addressRel (v : Byte) (s : State) : (s.setSp v).addressRel = s.addressRel := rfl
@[simp] theorem State.setSp_cycles (v : Byte) (s : State) : (s.setSp v).cycles = s.cycles := rfl
@[simp] theorem State.setSp_fatal (v : Byte) (s : State) : (s.setSp v).fatal = s.fatal := rfl
@[simp] theorem State.setSp_devices (v : Byte) (s : State) : (s.setSp v).devices = s.devices := rfl
@[simp] theorem State.setSp_processorConnected (v : Byte) (s : State) : (s.setSp v).processorConnected = s.processorConnected := rfl
@[simp] theorem State.setSp_draws (v : Byte) (s : State) : (s.setSp v).draws = s.draws := rfl
@[simp] theorem State.setSp_opTable (v : Byte) (s : State) : (s.setSp v).opTable = s.opTable := rfl
@[simp] theorem State.setP_a (v : Byte) (s : State) : (s.setP v).a = s.a := rfl
@[simp] theorem State.setP_x (v : Byte) (s : State) : (s.setP v).x = s.x := rfl
@[simp] theorem State.setP_y (v : Byte) (s : State) : (s.setP v).y = s.y := rfl
@[simp] theorem State.setP_pc (v : Byte) (s : State) : (s.setP v).pc = s.pc := rfl
@[simp] theorem State.setP_sp (v : Byte) (s : State) : (s.setP v).sp = s.sp := rfl
@[simp] theorem State.setP_p (v : Byte) (s : State) : (s.setP v).p = v := rfl
@[simp] theorem State.setP_fetched (v : Byte) (s : State) : (s.setP v).fetched = s.fetched := rfl
@[simp] theorem State.setP_addressAbs (v : Byte) (s : State) : (s.setP v).addressAbs = s.addressAbs := rfl
@[simp] theorem State.setP_addressRel (v : Byte) (s : State) : (s.setP v).addressRel = s.addressRel := rfl
@[simp] theorem State.setP_cycles (v : Byte) (s : State) : (s.setP v).cycles = s.cycles := rfl
@[simp] theorem State.setP_fatal (v : Byte) (s : State) : (s.setP v).fatal = s.fatal := rfl
@[simp] theorem State.setP_devices (v : Byte) (s : State) : (s.setP v).devices = s.devices := rfl
@[simp] theorem State.setP_processorConnected (v : Byte) (s : State) : (s.setP v).processorConnected = s.processorConnected := rfl
@[simp] theorem State.setP_draws (v : Byte) (s : State) : (s.setP v).draws = s.draws := rfl
@[simp] theorem State.setP_opTable (v : Byte) (s : State) : (s.setP v).opTable = s.opTable := rfl
@[simp] theorem State.setFetched_a (v : Byte) (s : State) : (s.setFetched v).a = s.a := rfl
@[simp] theorem State.setFetched_x (v : Byte) (s : State) : (s.setFetched v).x = s.x := rfl
@[simp] theorem State.setFetched_y (v : Byte) (s : State) : (s.setFetched v).y = s.y := rfl
@[simp] theorem State.setFetched_pc (v : Byte) (s : State) : (s.setFetched v).pc = s.pc := rfl
@[simp] theorem State.setFetched_sp (v : Byte) (s : State) : (s.setFetched v).sp = s.sp := rfl
@[simp] theorem State.setFetched_p (v : Byte) (s : State) : (s.setFetched v).p = s.p := rfl
@[simp] theorem State.setFetched_fetched (v : Byte) (s : State) : (s.setFetched v).fetched = v := rfl
@[simp] theorem State.setFetched_addressAbs (v : Byte) (s : State) : (s.setFetched v).addressAbs = s.addressAbs := rfl
@[simp] theorem State.setFetched_addressRel (v : Byte) (s : State) : (s.setFetched v).addressRel = s.addressRel := rfl
@[simp] theorem State.setFetched_cycles (v : Byte) (s : State) : (s.setFetched v).cycles = s.cycles := rfl
@[simp] theorem State.setFetched_fatal (v : Byte) (s : State) : (s.setFetched v).fatal = s.fatal := rfl
@[simp] theorem State.setFetched_devices (v : Byte) (s : State) : (s.setFetched v).devices = s.devices := rfl
@[simp] theorem State.setFetched_processorConnected (v : Byte) (s : State) : (s.setFetched v).processorConnected = s.processorConnected := rfl
@[simp] theorem State.setFetched_draws (v : Byte) (s : State) : (s.setFetched v).draws = s.draws := rfl
@[simp] theorem State.setFetched_opTable (v : Byte) (s : State) : (s.setFetched v).opTable = s.opTable := rfl
@[simp] theorem State.setAddressAbs_a (v : Word) (s : State) : (s.setAddressAbs v).a = s.a := rfl
@[simp] theorem State.setAddressAbs_x (v : Word) (s : State) : (s.setAddressAbs v).x = s.x := rfl
@[simp] theorem State.setAddressAbs_y (v : Word) (s : State) : (s.setAddressAbs v).y = s.y := rfl
@[simp] theorem State.setAddressAbs_pc (v : Word) (s : State) : (s.setAddressAbs v).pc = s.pc := rfl
@[simp] theorem State.setAddressAbs_sp (v : Word) (s : State) : (s.setAddressAbs v).sp = s.sp := rfl
@[simp] theorem State.setAddressAbs_p (v : Word) (s : State) : (s.setAddressAbs v).p = s.p := rfl
@[simp] theorem State.setAddressAbs_fetched (v : Word) (s : State) : (s.setAddressAbs v).fetched = s.fetched := rfl
@[simp] theorem State.setAddressAbs_addressAbs (v : Word) (s : State) : (s.setAddressAbs v).addressAbs = v := rfl
@[simp] theorem State.setAddressAbs_addressRel (v : Word) (s : State) : (s.setAddressAbs v).addressRel = s.addressRel := rfl
@[simp] theorem State.setAddressAbs_cycles (v : Word) (s : State) : (s.setAddressAbs v).cycles = s.cycles := rfl
@[simp] theorem State.setAddressAbs_fatal (v : Word) (s : State) : (s.setAddressAbs v).fatal = s.fatal := rfl
@[simp] theorem State.setAddressAbs_devices (v : Word) (s : State) : (s.setAddressAbs v).devices = s.devices := rfl
@[simp] theorem State.setAddressAbs_processorConnected (v : Word) (s : State) : (s.setAddressAbs v).processorConnected = s.processorConnected := rfl
@[simp] theorem State.setAddressAbs_draws (v : Word) (s : State) : (s.setAddressAbs v).draws = s.draws := rfl
@[simp] theorem State.setAddressAbs_opTable (v : Word) (s : State) : (s.setAddressAbs v).opTable = s.opTable := rfl
@[simp] theorem State.setAddressRel_a (v : Word) (s : State) : (s.setAddressRel v).a = s.a := rfl
@[simp] theorem State.setAddressRel_x (v : Word) (s : State) : (s.setAddressRel v).x = s.x := rfl
@[simp] theorem State.setAddressRel_y (v : Word) (s : State) : (s.setAddressRel v).y = s.y := rfl
@[simp] theorem State.setAddressRel_pc (v : Word) (s : State) : (s.setAddressRel v).pc = s.pc := rfl
@[simp] theorem State.setAddressRel_sp (v : Word) (s : State) : (s.setAddressRel v).sp = s.sp := rfl
@[simp] theorem State.setAddressRel_p (v : Word) (s : State) : (s.setAddressRel v).p = s.p := rfl
@[simp] theorem State.setAddressRel_fetched (v : Word) (s : State) : (s.setAddressRel v).fetched = s.fetched := rfl
@[simp] theorem State.setAddressRel_addressAbs (v : Word) (s : State) : (s.setAddressRel v).addressAbs = s.addressAbs := rfl
@[simp] theorem State.setAddressRel_addressRel (v : Word) (s : State) : (s.setAddressRel v).addressRel = v := rfl
@[simp] theorem State.setAddressRel_cycles (v : Word) (s : State) : (s.setAddressRel v).cycles = s.cycles := rfl
@[simp] theorem State.setAddressRel_fatal (v : Word) (s : State) : (s.setAddressRel v).fatal = s.fatal := rfl
@[simp] theorem State.setAddressRel_devices (v : Word) (s : State) : (s.setAddressRel v).devices = s.devices := rfl
@[simp] theorem State.setAddressRel_processorConnected (v : Word) (s : State) : (s.setAddressRel v).processorConnected = s.processorConnected := rfl
@[simp] theorem State.setAddressRel_draws (v : Word) (s : State) : (s.setAddressRel v).draws = s.draws := rfl
@[simp] theorem State.setAddressRel_opTable (v : Word) (s : State) : (s.setAddressRel v).opTable = s.opTable := rfl
@[simp] theorem State.setCycles_a (v : Nat) (s : State) : (s.setCycles v).a = s.a := rfl
@[simp] theorem State.setCycles_x (v : Nat) (s : State) : (s.setCycles v).x = s.x := rfl
@[simp] theorem State.setCycles_y (v : Nat) (s : State) : (s.setCycles v).y = s.y := rfl
@[simp] theorem State.setCycles_pc (v : Nat) (s : State) : (s.setCycles v).pc = s.pc := rfl
@[simp] theorem State.setCycles_sp (v : Nat) (s : State) : (s.setCycles v).sp = s.sp := rfl
@[simp] theorem State.setCycles_p (v : Nat) (s : State) : (s.setCycles v).p = s.p := rfl
@[simp] theorem State.setCycles_fetched (v : Nat) (s : State) : (s.setCycles v).fetched = s.fetched := rfl
@[simp] theorem State.setCycles_addressAbs (v : Nat) (s : State) : (s.setCycles v).addressAbs = s.addressAbs := rfl
@[simp] theorem State.setCycles_addressRel (v : Nat) (s : State) : (s.setCycles v).addressRel = s.addressRel := rfl
@[simp] theorem State.setCycles_cycles (v : Nat) (s : State) : (s.setCycles v).cycles = v := rfl
@[simp] theorem State.setCycles_fatal (v : Nat) (s : State) : (s.setCycles v).fatal = s.fatal := rfl
@[simp] theorem State.setCycles_devices (v : Nat) (s : State) : (s.setCycles v).devices = s.devices := rfl
@[simp] theorem State.setCycles_processorConnected (v : Nat) (s : State) : (s.setCycles v).processorConnected = s.processorConnected := rfl
@[simp] theorem State.setCycles_draws (v : Nat) (s : State) : (s.setCycles v).draws = s.draws := rfl
@[simp] theorem State.setCycles_opTable (v : Nat) (s : State) : (s.setCycles v).opTable = s.opTable := rfl
@[simp] theorem State.setFatal_a (v : Option Fault) (s : State) : (s.setFatal v).a = s.a := rfl
@[simp] theorem State.setFatal_x (v : Option Fault) (s : State) : (s.setFatal v).x = s.x := rfl
@[simp] theorem State.setFatal_y (v : Option Fault) (s : State) : (s.setFatal v).y = s.y := rfl
@[simp] theorem State.setFatal_pc (v : Option Fault) (s : State) : (s.setFatal v).pc = s.pc := rfl
@[simp] theorem State.setFatal_sp (v : Option Fault) (s : State) : (s.setFatal v).sp = s.sp := rfl
@[simp] theorem State.setFatal_p (v : Option Fault) (s : State) : (s.setFatal v).p = s.p := rfl
@[simp] theorem State.setFatal_fetched (v : Option Fault) (s : State) : (s.setFatal v).fetched = s.fetched := rfl
@[simp] theorem State.setFatal_addressAbs (v : Option Fault) (s : State) : (s.setFatal v).addressAbs = s.addressAbs := rfl
@[simp] theorem State.setFatal_addressRel (v : Option Fault) (s : State) : (s.setFatal v).addressRel = s.addressRel := rfl
@[simp] theorem State.setFatal_cycles (v : Option Fault) (s : State) : (s.setFatal v).cycles = s.cycles := rfl
@[simp] theorem State.setFatal_fatal (v : Option Fault) (s : State) : (s.setFatal v).fatal = v := rfl
@[simp] theorem State.setFatal_devices (v : Option Fault) (s : State) : (s.setFatal v).devices = s.devices := rfl
@[simp] theorem State.setFatal_processorConnected (v : Option Fault) (s : State) : (s.setFatal v).processorConnected = s.processorConnected := rfl
@[simp] theorem State.setFatal_draws (v : Option Fault) (s : State) : (s.setFatal v).draws = s.draws := rfl
@[simp] theorem State.setFatal_opTable (v : Option Fault) (s : State) : (s.setFatal v).opTable = s.opTable := rfl
@[simp] theorem State.setDevices_a (v : List Device) (s : State) : (s.setDevices v).a = s.a := rfl
@[simp] theorem State.setDevices_x (v : List Device) (s : State) : (s.setDevices v).x = s.x := rfl
@[simp] theorem State.setDevices_y (v : List Device) (s : State) : (s.setDevices v).y = s.y := rfl
@[simp] theorem State.setDevices_pc (v : List Device) (s : State) : (s.setDevices v).pc = s.pc := rfl
@[simp] theorem State.setDevices_sp (v : List Device) (s : State) : (s.setDevices v).sp = s.sp := rfl
@[simp] theorem State.setDevices_p (v : List Device) (s : State) : (s.setDevices v).p = s.p := rfl
@[simp] theorem State.setDevices_fetched (v : List Device) (s : State) : (s.setDevices v).fetched = s.fetched := rfl
@[simp] theorem State.setDevices_addressAbs (v : List Device) (s : State) : (s.setDevices v).addressAbs = s.addressAbs := rfl
@[simp] theorem State.setDevices_addressRel (v : List Device) (s : State) : (s.setDevices v).addressRel = s.addressRel := rfl
@[simp] theorem State.setDevices_cycles (v : List Device) (s : State) : (s.setDevices v).cycles = s.cycles := rfl
@[simp] theorem State.setDevices_fatal (v : List Device) (s : State) : (s.setDevices v).fatal = s.fatal := rfl
@[simp] theorem State.setDevices_devices (v : List Device) (s : State) : (s.setDevices v).devices = v := rfl
@[simp] theorem State.setDevices_processorConnected (v : List Device) (s : State) : (s.setDevices v).processorConnected = s.processorConnected := rfl
@[simp] theorem State.setDevices_draws (v : List Device) (s : State) : (s.setDevices v).draws = s.draws := rfl
@[simp] theorem State.setDevices_opTable (v : List Device) (s : State) : (s.setDevices v).opTable = s.opTable := rfl
@[simp] theorem State.setConnected_a (v : Bool) (s : State) : (s.setConnected v).a = s.a := rfl
@[simp] theorem State.setConnected_x (v : Bool) (s : State) : (s.setConnected v).x = s.x := rfl
@[simp] theorem State.setConnected_y (v : Bool) (s : State) : (s.setConnected v).y = s.y := rfl
@[simp] theorem State.setConnected_pc (v : Bool) (s : State) : (s.setConnected v).pc = s.pc := rfl
@[simp] theorem State.setConnected_sp (v : Bool) (s : State) : (s.setConnected v).sp = s.sp := rfl
@[simp] theorem State.setConnected_p (v : Bool) (s : State) : (s.setConnected v).p = s.p := rfl
@[simp] theorem State.setConnected_fetched (v : Bool) (s : State) : (s.setConnected v).fetched = s.fetched := rfl
@[simp] theorem State.setConnected_addressAbs (v : Bool) (s : State) : (s.setConnected v).addressAbs = s.addressAbs := rfl
@[simp] theorem State.setConnected_addressRel (v : Bool) (s : State) : (s.setConnected v).addressRel = s.addressRel := rfl
@[simp] theorem State.setConnected_cycles (v : Bool) (s : State) : (s.setConnected v).cycles = s.cycles := rfl
@[simp] theorem State.setConnected_fatal (v : Bool) (s : State) : (s.setConnected v).fatal = s.fatal := rfl
@[simp] theorem State.setConnected_devices (v : Bool) (s : State) : (s.setConnected v).devices = s.devices := rfl
@[simp] theorem State.setConnected_processorConnected (v : Bool) (s : State) : (s.setConnected v).processorConnected = v := rfl
@[simp] theorem State.setConnected_draws (v : Bool) (s : State) : (s.setConnected v).draws = s.draws := rfl
@[simp] theorem State.setConnected_opTable (v : Bool) (s : State) : (s.setConnected v).opTable = s.opTable := rfl
@[simp] theorem State.setDraws_a (v : Nat) (s : State) : (s.setDraws v).a = s.a := rfl
@[simp] theorem State.setDraws_x (v : Nat) (s : State) : (s.setDraws v).x = s.x := rfl
@[simp] theorem State.setDraws_y (v : Nat) (s : State) : (s.setDraws v).y = s.y := rfl
@[simp] theorem State.setDraws_pc (v : Nat) (s : State) : (s.setDraws v).pc = s.pc := rfl
@[simp] theorem State.setDraws_sp (v : Nat) (s : State) : (s.setDraws v).sp = s.sp := rfl
@[simp] theorem State.setDraws_p (v : Nat) (s : State) : (s.setDraws v).p = s.p := rfl
@[simp] theorem State.setDraws_fetched (v : Nat) (s : State) : (s.setDraws v).fetched = s.fetched := rfl
@[simp] theorem State.setDraws_addressAbs (v : Nat) (s : State) : (s.setDraws v).addressAbs = s.addressAbs := rfl
@[simp] theorem State.setDraws_addressRel (v : Nat) (s : State) : (s.setDraws v).addressRel = s.addressRel := rfl
@[simp] theorem State.setDraws_cycles (v : Nat) (s : State) : (s.setDraws v).cycles = s.cycles := rfl
@[simp] theorem State.setDraws_fatal (v : Nat) (s : State) : (s.setDraws v).fatal = s.fatal := rfl
@[simp] theorem State.setDraws_devices (v : Nat) (s : State) : (s.setDraws v).devices = s.devices := rfl
@[simp] theorem State.setDraws_processorConnected (v : Nat) (s : State) : (s.setDraws v).processorConnected = s.processorConnected := rfl
@[simp] theorem State.setDraws_draws (v : Nat) (s : State) : (s.setDraws v).draws = v := rfl
@[simp] theorem State.setDraws_opTable (v : Nat) (s : State) : (s.setDraws v).opTable = s.opTable := rfl

/-! ## Updates of the flag byte -/

@[simp] theorem State.setFlag_a (f : Flag) (v : Bool) (s : State) : (s.setFlag f v).a = s.a := rfl
@[simp] theorem State.setFlag_x (f : Flag) (v : Bool) (s : State) : (s.setFlag f v).x = s.x := rfl
@[simp] theorem State.setFlag_y (f : Flag) (v : Bool) (s : State) : (s.setFlag f v).y = s.y := rfl
@[simp] theorem State.setFlag_pc (f : Flag) (v : Bool) (s : State) : (s.setFlag f v).pc = s.pc := rfl
@[simp] theorem State.setFlag_sp (f : Flag) (v : Bool) (s : State) : (s.setFlag f v).sp = s.sp := rfl
@[simp] theorem State.setFlag_fetched (f : Flag) (v : Bool) (s : State) : (s.setFlag f v).fetched = s.fetched := rfl
@[simp] theorem State.setFlag_addressAbs (f : Flag) (v : Bool) (s : State) : (s.setFlag f v).addressAbs = s.addressAbs := rfl
@[simp] theorem State.setFlag_addressRel (f : Flag) (v : Bool) (s : State) : (s.setFlag f v).addressRel = s.addressRel := rfl
@[simp] theorem State.setFlag_cycles (f : Flag) (v : Bool) (s : State) : (s.setFlag f v).cycles = s.cycles := rfl
@[simp] theorem State.setFlag_fatal (f : Flag) (v : Bool) (s : State) : (s.setFlag f v).fatal = s.fatal := rfl
@[simp] theorem State.setFlag_devices (f : Flag) (v : Bool) (s : State) : (s.setFlag f v).devices = s.devices := rfl
@[simp] theorem State.setFlag_processorConnected (f : Flag) (v : Bool) (s : State) : (s.setFlag f v).processorConnected = s.processorConnected := rfl
@[simp] theorem State.setFlag_draws (f : Flag) (v : Bool) (s : State) : (s.setFlag f v).draws = s.draws := rfl
@[simp] theorem State.setFlag_opTable (f : Flag) (v : Bool) (s : State) : (s.setFlag f v).opTable = s.opTable := rfl
@[simp] theorem State.setZN_a (v : Byte) (s : State) : (s.setZN v).a = s.a := rfl
@[simp] theorem State.setZN_x (v : Byte) (s : State) : (s.setZN v).x = s.x := rfl
@[simp] theorem State.setZN_y (v : Byte) (s : State) : (s.setZN v).y = s.y := rfl
@[simp] theorem State.setZN_pc (v : Byte) (s : State) : (s.setZN v).pc = s.pc := rfl
@[simp] theorem State.setZN_sp (v : Byte) (s : State) : (s.setZN v).sp = s.sp := rfl
@[simp] theorem State.setZN_fetched (v : Byte) (s : State) : (s.setZN v).fetched = s.fetched := rfl
@[simp] theorem State.setZN_addressAbs (v : Byte) (s : State) : (s.setZN v).addressAbs = s.addressAbs := rfl
@[simp] theorem State.setZN_addressRel (v : Byte) (s : State) : (s.setZN v).addressRel = s.addressRel := rfl
@[simp] theorem State.setZN_cycles (v : Byte) (s : State) : (s.setZN v).cycles = s.cycles := rfl
@[simp] theorem State.setZN_fatal (v : Byte) (s : State) : (s.setZN v).fatal = s.fatal := rfl
@[simp] theorem State.setZN_devices (v : Byte) (s : State) : (s.setZN v).devices = s.devices := rfl
@[simp] theorem State.setZN_processorConnected (v : Byte) (s : State) : (s.setZN v).processorConnected = s.processorConnected := rfl
@[simp] theorem State.setZN_draws (v : Byte) (s : State) : (s.setZN v).draws = s.draws := rfl
@[simp] theorem State.setZN_opTable (v : Byte) (s : State) : (s.setZN v).opTable = s.opTable := rfl
@[simp] theorem State.compare_a (r m : Byte) (s : State) : (s.compare r m).a = s.a := rfl
@[simp] theorem State.compare_x (r m : Byte) (s : State) : (s.compare r m).x = s.x := rfl
@[simp] theorem State.compare_y (r m : Byte) (s : State) : (s.compare r m).y = s.y := rfl
@[simp] theorem State.compare_pc (r m : Byte) (s : State) : (s.compare r m).pc = s.pc := rfl
@[simp] theorem State.compare_sp (r m : Byte) (s : State) : (s.compare r m).sp = s.sp := rfl
@[simp] theorem State.compare_fetched (r m : Byte) (s : State) : (s.compare r m).fetched = s.fetched := rfl
@[simp] theorem State.compare_addressAbs (r m : Byte) (s : State) : (s.compare r m).addressAbs = s.addressAbs := rfl
@[simp] theorem State.compare_addressRel (r m : Byte) (s : State) : (s.compare r m).addressRel = s.addressRel := rfl
@[simp] theorem State.compare_cycles (r m : Byte) (s : State) : (s.compare r m).cycles = s.cycles := rfl
@[simp] theorem State.compare_fatal (r m : Byte) (s : State) : (s.compare r m).fatal = s.fatal := rfl
@[simp] theorem State.compare_devices (r m : Byte) (s : State) : (s.compare r m).devices = s.devices := rfl
@[simp] theorem State.compare_processorConnected (r m : Byte) (s : State) : (s.compare r m).processorConnected = s.processorConnected := rfl
@[simp] theorem State.compare_draws (r m : Byte) (s : State) : (s.compare r m).draws = s.draws := rfl
@[simp] theorem State.compare_opTable (r m : Byte) (s : State) : (s.compare r m).opTable = s.opTable := rfl
@[simp] theorem State.bitTest_a (m : Byte) (s : State) : (s.bitTest m).a = s.a := rfl
@[simp] theorem State.bitTest_x (m : Byte) (s : State) : (s.bitTest m).x = s.x := rfl
@[simp] theorem State.bitTest_y (m : Byte) (s : State) : (s.bitTest m).y = s.y := rfl
@[simp] theorem State.bitTest_pc (m : Byte) (s : State) : (s.bitTest m).pc = s.pc := rfl
@[simp] theorem State.bitTest_sp (m : Byte) (s : State) : (s.bitTest m).sp = s.sp := rfl
@[simp] theorem State.bitTest_fetched (m : Byte) (s : State) : (s.bitTest m).fetched = s.fetched := rfl
@[simp] theorem State.bitTest_addressAbs (m : Byte) (s : State) : (s.bitTest m).addressAbs = s.addressAbs := rfl
@[simp] theorem State.bitTest_addressRel (m : Byte) (s : State) : (s.bitTest m).addressRel = s.addressRel := rfl
@[simp] theorem State.bitTest_cycles (m : Byte) (s : State) : (s.bitTest m).cycles = s.cycles := rfl
@[simp] theorem State.bitTest_fatal (m : Byte) (s : State) : (s.bitTest m).fatal = s.fatal := rfl
@[simp] theorem State.bitTest_devices (m : Byte) (s : State) : (s.bitTest m).devices = s.devices := rfl
@[simp] theorem State.bitTest_processorConnected (m : Byte) (s : State) : (s.bitTest m).processorConnected = s.processorConnected := rfl
@[simp] theorem State.bitTest_draws (m : Byte) (s : State) : (s.bitTest m).draws = s.draws := rfl
@[simp] theorem State.bitTest_opTable (m : Byte) (s : State) : (s.bitTest m).opTable = s.opTable := rfl
@[simp] theorem State.applyAdd_x (r : AddResult) (s : State) : (s.applyAdd r).x = s.x := rfl
@[simp] theorem State.applyAdd_y (r : AddResult) (s : State) : (s.applyAdd r).y = s.y := rfl
@[simp] theorem State.applyAdd_pc (r : AddResult) (s : State) : (s.applyAdd r).pc = s.pc := rfl
@[simp] theorem State.applyAdd_sp (r : AddResult) (s : State) : (s.applyAdd r).sp = s.sp := rfl
@[simp] theorem State.applyAdd_fetched (r : AddResult) (s : State) : (s.applyAdd r).fetched = s.fetched := rfl
@[simp] theorem State.applyAdd_addressAbs (r : AddResult) (s : State) : (s.applyAdd r).addressAbs = s.addressAbs := rfl
@[simp] theorem State.applyAdd_addressRel (r : AddResult) (s : State) : (s.applyAdd r).addressRel = s.addressRel := rfl
@[simp] theorem State.applyAdd_cycles (r : AddResult) (s : State) : (s.applyAdd r).cycles = s.cycles := rfl
@[simp] theorem State.applyAdd_fatal (r : AddResult) (s : State) : (s.applyAdd r).fatal = s.fatal := rfl
@[simp] theorem State.applyAdd_devices (r : AddResult) (s : State) : (s.applyAdd r).devices = s.devices := rfl
@[simp] theorem State.applyAdd_processorConnected (r : AddResult) (s : State) : (s.applyAdd r).processorConnected = s.processorConnected := rfl
@[simp] theorem State.applyAdd_draws (r : AddResult) (s : State) : (s.applyAdd r).draws = s.draws := rfl
@[simp] theorem State.applyAdd_opTable (r : AddResult) (s : State) : (s.applyAdd r).opTable = s.opTable := rfl
@[simp] theorem State.applyAdd_a (r : AddResult) (s : State) : (s.applyAdd r).a = r.sum := rfl

@[simp] theorem State.setFlag_p (f : Flag) (v : Bool) (s : State) : (s.setFlag f v).p = Machine.setFlag f v s.p := rfl
@[simp] theorem State.setZN_p (v : Byte) (s : State) : (s.setZN v).p = znFlags v s.p := rfl
@[simp] theorem State.flag_eq (f : Flag) (s : State) : s.flag f = getFlag f s.p := rfl

/-! ## The bonus cycle and the branch -/

@[simp] theorem addBonus_false (s : State) : addBonus false s = s := rfl

/-- The bonus cycle changes the cycle count alone. -/
theorem addBonus_eq (b : Bool) (s : State) : addBonus b s = s.setCycles (s.cycles + b.toNat) := by
  cases b <;> rfl

/-- A branch changes `PC` and the cycle count alone. -/
theorem branch_eq (cond : Bool) (s : State) :
    branch cond s = (s.setCycles (branch cond s).cycles).setPc (branch cond s).pc := by
  cases cond <;> rfl

end Sys2Proof.Machine
end

