-- ==== Sys2Proof/Laws/Flags.lean ====
section
/-! SUPPORT. The flag accessors: what `set_flag` does to every flag, and what the ALU's flag updates do. -/

namespace Sys2Proof.Machine

@[simp] theorem getFlag_setFlag_same (f : Flag) (v : Bool) (p : Byte) : getFlag f (setFlag f v p) = v := by
  cases f <;> cases v <;> simp [getFlag, setFlag, Flag.bit]

theorem getFlag_setFlag_ne {f g : Flag} (h : g ≠ f) (v : Bool) (p : Byte) : getFlag g (setFlag f v p) = getFlag g p := by
  cases f <;> cases g <;> first | exact absurd rfl h | (cases v <;> simp [getFlag, setFlag, Flag.bit])

/-- R30 in one equation: `set_flag` sets its bit, "leaving all others untouched". -/
theorem getFlag_setFlag (f g : Flag) (v : Bool) (p : Byte) :
    getFlag g (setFlag f v p) = if g = f then v else getFlag g p := by
  by_cases h : g = f
  · simp [h]
  · simp [h, getFlag_setFlag_ne h]

/-- Flags determine the flag byte. -/
theorem flags_ext {p q : Byte} (h : ∀ f : Flag, getFlag f p = getFlag f q) : p = q := by
  apply BitVec.eq_of_getLsbD_eq
  intro k hk
  have h0 := h .c; have h1 := h .z; have h2 := h .i; have h3 := h .d
  have h4 := h .b; have h5 := h .u; have h6 := h .v; have h7 := h .n
  simp only [getFlag, Flag.bit] at *
  interval_cases k <;> assumption

/-- `SetZN` writes `Z` and `N` and no other flag (R148). -/
theorem getFlag_znFlags (v p : Byte) (g : Flag) :
    getFlag g (znFlags v p) = if g = .n then v.getLsbD 7 else if g = .z then v == 0 else getFlag g p := by
  simp only [znFlags, getFlag_setFlag]

@[simp] theorem getFlag_znFlags_z (v p : Byte) : getFlag .z (znFlags v p) = (v == 0) := by simp [getFlag_znFlags]
@[simp] theorem getFlag_znFlags_n (v p : Byte) : getFlag .n (znFlags v p) = v.getLsbD 7 := by simp [getFlag_znFlags]

theorem State.applyAdd_p (r : AddResult) (s : State) :
    (s.applyAdd r).p = znFlags r.sum (Machine.setFlag .v r.overflow (Machine.setFlag .c r.carry s.p)) := rfl

theorem State.compare_p (reg m : Byte) (s : State) :
    (s.compare reg m).p =
      znFlags (lo (zext16 reg - zext16 m)) (Machine.setFlag .c (decide (m.toNat ≤ reg.toNat)) s.p) := rfl

theorem State.bitTest_p (m : Byte) (s : State) :
    (s.bitTest m).p =
      Machine.setFlag .v (m.getLsbD 6) (Machine.setFlag .n (m.getLsbD 7) (Machine.setFlag .z ((s.a &&& m) == 0) s.p)) := rfl

end Sys2Proof.Machine
end

