-- ==== Sys2Proof/Laws/Memory.lean ====
section
/-! SUPPORT. Storage: read after write, and every operation keeps the canonical form. -/

namespace Sys2Proof.Machine

theorem Memory.read_of_lt {n : Nat} {m : Memory} (h : Memory.wfFrom n m = true) {i : Nat} (hi : i < n) : Memory.read m i = Config.blank := by
  induction m generalizing n with
  | nil => rfl
  | cons c rest ih =>
    obtain ⟨k, v⟩ := c
    simp only [Memory.wfFrom, Bool.and_eq_true, decide_eq_true_eq] at h
    simp only [Memory.read, if_neg (show i ≠ k by omega)]
    exact ih h.2 (by omega)

/-- A write changes its own offset and no other. -/
theorem Memory.read_write {n : Nat} {m : Memory} (h : Memory.wfFrom n m = true) (i j : Nat) (v : Byte) :
    Memory.read (Memory.write m i v) j = if j = i then v else Memory.read m j := by
  induction m generalizing n with
  | nil =>
    by_cases hv : v = Config.blank <;> by_cases hj : j = i <;> simp [Memory.write, Memory.read, hv, hj]
  | cons c rest ih =>
    obtain ⟨k, w⟩ := c
    simp only [Memory.wfFrom, Bool.and_eq_true, decide_eq_true_eq] at h
    have hb : ∀ j < k + 1, Memory.read rest j = Config.blank := fun j hj => Memory.read_of_lt h.2 hj
    rcases Nat.lt_trichotomy i k with hik | rfl | hik
    · by_cases hv : v = Config.blank
      · by_cases hj : j = i
        · subst hj
          simp [Memory.write, Memory.read, hik, hv, Nat.ne_of_lt hik, hb j (by omega)]
        · simp [Memory.write, hik, hv, hj]
      · by_cases hj : j = i <;> simp [Memory.write, Memory.read, hik, hv, hj]
    · by_cases hv : v = Config.blank
      · by_cases hj : j = i
        · subst hj; simp [Memory.write, hv, hb j (by omega)]
        · simp [Memory.write, Memory.read, hv, hj]
      · by_cases hj : j = i <;> simp [Memory.write, Memory.read, hv, hj]
    · have hlt : ¬ i < k := by omega
      have hne : i ≠ k := by omega
      simp only [Memory.write, if_neg hlt, if_neg hne, Memory.read, ih h.2]
      by_cases hj : j = k
      · subst hj; simp [Ne.symm hne]
      · simp [hj]

theorem Memory.read_write_same {m : Memory} (h : m.wf = true) (i : Nat) (v : Byte) : (m.write i v).read i = v := by
  simp [Memory.read_write h]

theorem Memory.read_write_ne {m : Memory} (h : m.wf = true) {i j : Nat} (hj : j ≠ i) (v : Byte) : (m.write i v).read j = m.read j := by
  simp [Memory.read_write h, hj]

theorem Memory.wfFrom_mono {n k : Nat} {m : Memory} (hk : k ≤ n) (h : Memory.wfFrom n m = true) : Memory.wfFrom k m = true := by
  cases m with
  | nil => rfl
  | cons c rest =>
    obtain ⟨i, v⟩ := c
    simp only [Memory.wfFrom, Bool.and_eq_true, decide_eq_true_eq] at h ⊢
    exact ⟨⟨by omega, h.1.2⟩, h.2⟩

theorem Memory.wfFrom_write {n : Nat} {m : Memory} (h : Memory.wfFrom n m = true) {i : Nat} (hi : n ≤ i) (v : Byte) :
    Memory.wfFrom n (Memory.write m i v) = true := by
  induction m generalizing n with
  | nil =>
    by_cases hv : v = Config.blank <;> simp [Memory.write, Memory.wfFrom, hv, hi]
  | cons c rest ih =>
    obtain ⟨k, w⟩ := c
    have h' := h
    simp only [Memory.wfFrom, Bool.and_eq_true, decide_eq_true_eq] at h
    rcases Nat.lt_trichotomy i k with hik | rfl | hik
    · by_cases hv : v = Config.blank
      · simpa [Memory.write, hik, hv] using h'
      · simp [Memory.write, hik, hv, Memory.wfFrom, hi, h.1.2, h.2]
    · by_cases hv : v = Config.blank
      · simpa [Memory.write, hv] using Memory.wfFrom_mono (by omega) h.2
      · simp [Memory.write, hv, Memory.wfFrom, hi, h.2]
    · have hlt : ¬ i < k := by omega
      have hne : i ≠ k := by omega
      simp only [Memory.write, if_neg hlt, if_neg hne, Memory.wfFrom, Bool.and_eq_true, decide_eq_true_eq]
      exact ⟨h.1, ih h.2 (by omega)⟩

/-- A write keeps the canonical form. -/
theorem Memory.wf_write {m : Memory} (h : m.wf = true) (i : Nat) (v : Byte) : (m.write i v).wf = true :=
  Memory.wfFrom_write h (Nat.zero_le i) v

/-- A write inside the region keeps the storage inside it. -/
theorem Memory.within_write {size : Nat} {m : Memory} (h : m.within size = true) {i : Nat} (hi : i < size) (v : Byte) :
    (m.write i v).within size = true := by
  induction m with
  | nil => by_cases hv : v = Config.blank <;> simp [Memory.write, Memory.within, hv, hi]
  | cons c rest ih =>
    obtain ⟨k, w⟩ := c
    simp only [Memory.within, List.all_cons, Bool.and_eq_true, decide_eq_true_eq] at h ih ⊢
    simp only [Memory.write]
    split
    · split <;> simp [h.1, hi] <;> simpa using h.2
    · split
      · split <;> simp [hi] <;> simpa using h.2
      · simp only [List.all_cons, Bool.and_eq_true, decide_eq_true_eq]
        exact ⟨h.1, ih h.2⟩

theorem Memory.wfFrom_ofImage (base : Nat) (image : List Byte) : Memory.wfFrom base (Memory.ofImage base image) = true := by
  induction image generalizing base with
  | nil => rfl
  | cons v rest ih =>
    by_cases hv : v = Config.blank
    · simpa [Memory.ofImage, hv] using Memory.wfFrom_mono (by omega) (ih (base + 1))
    · simp [Memory.ofImage, hv, Memory.wfFrom, ih]

/-- An image makes canonical storage. -/
theorem Memory.wf_ofImage (image : List Byte) : (Memory.ofImage 0 image).wf = true := Memory.wfFrom_ofImage 0 image

/-- The storage of an image reads as the image. -/
theorem Memory.read_ofImage (base : Nat) (image : List Byte) (i : Nat) (hi : i < image.length) :
    Memory.read (Memory.ofImage base image) (base + i) = image[i] := by
  induction image generalizing base i with
  | nil => simp at hi
  | cons v rest ih =>
    cases i with
    | zero =>
      by_cases hv : v = Config.blank
      · simpa [Memory.ofImage, hv] using Memory.read_of_lt (Memory.wfFrom_ofImage (base + 1) rest) (Nat.lt_succ_self base)
      · simp [Memory.ofImage, hv, Memory.read]
    | succ j =>
      have := ih (base + 1) j (by simpa using hi)
      rw [show base + (j + 1) = base + 1 + j by omega]
      by_cases hv : v = Config.blank
      · simpa [Memory.ofImage, hv] using this
      · simpa [Memory.ofImage, hv, Memory.read, show base + 1 + j ≠ base by omega] using this

end Sys2Proof.Machine
end

