-- ==== Sys2Proof/Laws/Bus.lean ====
section
/-! SUPPORT. The bus: what a read and a write can do, said once; read after write; the storage stays well formed. -/

namespace Sys2Proof.Machine

open Sys2Proof.Safety

/-! ## Routing depends on the configuration alone -/

/-- A byte of a region is reached exactly when its offset lies inside. -/
theorem cellWithin_eq_cell {r q : Region} {i k n : Nat} : cellWithin r i n = .next (.cell q k) ↔ i < n ∧ r = q ∧ i = k := by
  unfold cellWithin
  split <;> simp [*]

/-- Inside its region an access is the byte. -/
theorem cellWithin_of_lt {r : Region} {i n : Nat} (h : i < n) : cellWithin r i n = .next (.cell r i) :=
  cellWithin_eq_cell.2 ⟨h, rfl, rfl⟩

theorem withinRange_shape (d : Device) (a : Word) (o : Originator) : (deviceShape d).withinRange a o = d.withinRange a o := by
  cases d with
  | ram kind m => cases kind <;> cases o <;> rfl
  | cpu => rfl
  | pictureUnit _ _ => rfl
  | cartridge c => cases o <;> rfl

theorem translate_shape (d : Device) (a : Word) (o : Originator) : (deviceShape d).translate a o = d.translate a o := by
  cases d with
  | ram kind m => cases kind <;> rfl
  | cpu => rfl
  | pictureUnit _ _ => rfl
  | cartridge c => rfl

theorem storable_shape (d : Device) : (deviceShape d).storable = d.storable := by cases d <;> rfl

@[simp] theorem deviceShape_put (d : Device) (r : Region) (i : Nat) (v : Byte) : deviceShape (d.put r i v) = deviceShape d := by
  cases d <;> cases r <;> rfl

@[simp] theorem deviceShape_store (d : Device) (r : Region) (i : Nat) (v : Byte) :
    deviceShape (d.store r i v) = deviceShape d := by
  unfold Device.store; split <;> simp

/-- The arbiter's choice, as the place in the list. -/
theorem select_map_shape (ds : List Device) (a : Word) (o : Originator) :
    select (ds.map deviceShape) a o = (select ds a o).map fun e => (e.1, deviceShape e.2) := by
  induction ds with
  | nil => rfl
  | cons d rest ih =>
    simp only [List.map_cons, select, withinRange_shape, ih]
    split
    · rfl
    · cases select rest a o <;> rfl

/-- The selected device stands at the selected place. -/
theorem select_getElem {ds : List Device} {a : Word} {o : Originator} {n : Nat} {d : Device}
    (h : select ds a o = some (n, d)) : ds[n]? = some d ∧ d.withinRange a o = true := by
  induction ds generalizing n with
  | nil => simp [select] at h
  | cons e rest ih =>
    simp only [select] at h
    split at h
    · rename_i hr
      simp only [Option.some.injEq, Prod.mk.injEq] at h
      obtain ⟨rfl, rfl⟩ := h
      exact ⟨rfl, hr⟩
    · simp only [Option.map_eq_some_iff, Prod.mk.injEq] at h
      obtain ⟨⟨k, e'⟩, hk, rfl, rfl⟩ := h
      exact ⟨by simpa using (ih hk).1, (ih hk).2⟩

/-- Devices with the same configuration are selected alike. -/
theorem select_congr {ds es : List Device} (h : ds.map deviceShape = es.map deviceShape) (a : Word) (o : Originator) :
    (select ds a o).map (fun e => (e.1, deviceShape e.2)) = (select es a o).map fun e => (e.1, deviceShape e.2) := by
  rw [← select_map_shape, ← select_map_shape, h]

/-! ## What `route` answers -/

/-- When the bus finds a target: no fatal mark, a selected device, and its translation. -/
theorem route_eq_next {o : Originator} {a : Word} {s : State} {n : Nat} {d : Device} {t : Target} :
    route o a s = .next (n, d, t) ↔
      s.fatal = none ∧ select s.devices a o = some (n, d) ∧ d.translate a o = .next t := by
  unfold route
  cases s.fatal with
  | some f => simp
  | none =>
    cases select s.devices a o with
    | none => simp
    | some e =>
      obtain ⟨k, e⟩ := e
      simp only [andThen_eq_next]
      constructor
      · rintro ⟨t', ht, h⟩
        injection h with h
        simp only [Prod.mk.injEq] at h
        obtain ⟨rfl, rfl, rfl⟩ := h
        exact ⟨trivial, rfl, ht⟩
      · rintro ⟨-, h, ht⟩
        simp only [Option.some.injEq, Prod.mk.injEq] at h
        obtain ⟨rfl, rfl⟩ := h
        exact ⟨t, ht, rfl⟩

/-- A bus read, said once: it answers the stored byte and leaves the state, or draws a byte from the picture unit. -/
theorem busReadAs_cases {o : Originator} {a : Word} {s s' : State} {v : Byte} (h : busReadAs o a s = .next (v, s')) :
    s.fatal = none ∧ ∃ n d, select s.devices a o = some (n, d) ∧
      ((∃ r i, d.translate a o = .next (.cell r i) ∧ v = d.load r i ∧ s' = s) ∨
       (d.translate a o = .next .opaqueUnit ∧ v = Config.pictureDraw s.draws ∧ s' = s.setDraws (s.draws + 1))) := by
  unfold busReadAs at h
  obtain ⟨⟨n, d, t⟩, hr, h⟩ := andThen_eq_next.1 h
  obtain ⟨hf, hs, ht⟩ := route_eq_next.1 hr
  refine ⟨hf, n, d, hs, ?_⟩
  cases t with
  | cell r i =>
    simp only [Host.Outcome.next.injEq, Prod.mk.injEq] at h
    exact .inl ⟨r, i, ht, h.1.symm, h.2.symm⟩
  | opaqueUnit =>
    simp only [Host.Outcome.next.injEq, Prod.mk.injEq] at h
    exact .inr ⟨ht, h.1.symm, h.2.symm⟩

/-- A bus read changes at most the draw count. -/
theorem busRead_state {a : Word} {s s' : State} {v : Byte} (h : busRead a s = .next (v, s')) :
    s' = s.setDraws s'.draws ∧ s.draws ≤ s'.draws := by
  obtain ⟨-, n, d, -, ⟨r, i, -, -, rfl⟩ | ⟨-, -, rfl⟩⟩ := busReadAs_cases h
  · exact ⟨rfl, Nat.le_refl _⟩
  · exact ⟨rfl, Nat.le_succ _⟩

/-- A read depends on the mark, the devices and the draw count alone, so the same read answers the same byte in a state that
agrees on these. -/
theorem busRead_frame {a : Word} {s s' u : State} {v : Byte} (h : busRead a s = .next (v, s')) (hf : u.fatal = s.fatal)
    (hd : u.devices = s.devices) (hr : u.draws = s.draws) : busRead a u = .next (v, u.setDraws s'.draws) := by
  have e := busRead_state h
  rw [e.1] at h ⊢
  unfold busRead busReadAs route at *
  rw [hf, hd, hr]
  cases hs : s.fatal with
  | some f => simp [hs] at h
  | none =>
    simp only [hs] at h ⊢
    cases hq : select s.devices a .processor with
    | none => simp [hq] at h
    | some p =>
      obtain ⟨n, d⟩ := p
      simp only [hq] at h ⊢
      cases ht : d.translate a .processor with
      | fault f => simp [ht] at h
      | refused f => simp [ht] at h
      | next t =>
        simp only [ht, andThen_next] at h ⊢
        cases t with
        | cell r i =>
          simp only [Host.Outcome.next.injEq, Prod.mk.injEq] at h ⊢
          refine ⟨h.1, ?_⟩
          have := congrArg State.draws h.2
          simp only [State.setDraws_draws] at this ⊢
          rw [← this, ← hr]
          rfl
        | opaqueUnit =>
          simp only [Host.Outcome.next.injEq, Prod.mk.injEq] at h ⊢
          refine ⟨h.1, ?_⟩
          have := congrArg State.draws h.2
          simp only [State.setDraws_draws] at this ⊢
          rw [← this]


/-- A bus write, said once: it puts the byte into the selected device's storage, or changes nothing. -/
theorem busWriteAs_cases {o : Originator} {a : Word} {v : Byte} {s s' : State} (h : busWriteAs o a v s = .next s') :
    s.fatal = none ∧ ∃ n d, select s.devices a o = some (n, d) ∧
      ((∃ r i, d.translate a o = .next (.cell r i) ∧ s' = s.setDevices (s.devices.set n (d.store r i v))) ∨
       (d.translate a o = .next .opaqueUnit ∧ s' = s)) := by
  unfold busWriteAs at h
  obtain ⟨⟨n, d, t⟩, hr, h⟩ := andThen_eq_next.1 h
  obtain ⟨hf, hs, ht⟩ := route_eq_next.1 hr
  refine ⟨hf, n, d, hs, ?_⟩
  cases t with
  | cell r i => exact .inl ⟨r, i, ht, by simpa using h.symm⟩
  | opaqueUnit => exact .inr ⟨ht, by simpa using h.symm⟩

theorem set_shape {ds : List Device} {n : Nat} {d e : Device} (hn : ds[n]? = some d) (he : deviceShape e = deviceShape d) :
    (ds.set n e).map deviceShape = ds.map deviceShape := by
  apply List.ext_getElem?
  intro k
  simp only [List.getElem?_map, List.getElem?_set]
  by_cases hk : n = k
  · subst hk
    have hlt : n < ds.length := by
      rcases Nat.lt_or_ge n ds.length with h | h
      · exact h
      · rw [List.getElem?_eq_none h] at hn; simp at hn
    have hd : ds[n] = d := by simpa [List.getElem?_eq_getElem hlt] using hn
    simp [hlt, he, hd]
  · simp [hk]

/-- A bus write changes the device list alone, and of it only storage. -/
theorem busWrite_state {a : Word} {v : Byte} {s s' : State} (h : busWrite a v s = .next s') :
    s' = s.setDevices s'.devices ∧ configOf s' = configOf s := by
  obtain ⟨-, n, d, hs, ⟨r, i, -, rfl⟩ | ⟨-, rfl⟩⟩ := busWriteAs_cases h
  · refine ⟨rfl, ?_⟩
    simp only [configOf, State.setDevices_devices]
    exact set_shape (select_getElem hs).1 (deviceShape_store d r i v)
  · exact ⟨rfl, rfl⟩

/-! ## When an access answers -/

/-- A served address is read. -/
theorem busRead_of_serves {a : Word} {s : State} (hf : s.fatal = none) (h : servesAt a s = true) :
    ∃ v s', busRead a s = .next (v, s') := by
  unfold servesAt at h
  unfold busRead busReadAs route
  rw [hf]
  cases hs : select s.devices a .processor with
  | none => simp [hs] at h
  | some e =>
    obtain ⟨n, d⟩ := e
    cases ht : d.translate a .processor with
    | next t => cases t <;> simp [ht]
    | fault f => simp [hs, ht] at h
    | refused f => simp [hs, ht] at h

/-- A served address is written. -/
theorem busWrite_of_serves {a : Word} {s : State} (v : Byte) (hf : s.fatal = none) (h : servesAt a s = true) :
    ∃ s', busWrite a v s = .next s' := by
  unfold servesAt at h
  unfold busWrite busWriteAs route
  rw [hf]
  cases hs : select s.devices a .processor with
  | none => simp [hs] at h
  | some e =>
    obtain ⟨n, d⟩ := e
    cases ht : d.translate a .processor with
    | next t => cases t <;> simp [ht]
    | fault f => simp [hs, ht] at h
    | refused f => simp [hs, ht] at h

/-- What serves an address is configuration. -/
theorem servesAt_congr {s t : State} (h : configOf s = configOf t) (a : Word) : servesAt a s = servesAt a t := by
  have := select_congr h a .processor
  unfold servesAt
  revert this
  cases select s.devices a .processor <;> cases select t.devices a .processor <;> simp
  intro _ hd
  have := congrArg (fun e => e.translate a .processor) hd
  simp only [translate_shape] at this
  rw [this]

/-- The storage cell behind an address is configuration. -/
theorem cellOf_congr {s t : State} (h : configOf s = configOf t) (a : Word) : cellOf a s = cellOf a t := by
  have := select_congr h a .processor
  unfold cellOf
  revert this
  cases select s.devices a .processor <;> cases select t.devices a .processor <;> simp
  intro hn hd
  have := congrArg (fun e => e.translate a .processor) hd
  simp only [translate_shape] at this
  rw [this, hn]

/-- Whether an address stores is configuration. -/
theorem storableAt_congr {s t : State} (h : configOf s = configOf t) (a : Word) : storableAt a s = storableAt a t := by
  have hc := cellOf_congr h a
  have := select_congr h a .processor
  unfold storableAt
  rw [hc]
  revert this
  cases select s.devices a .processor <;> cases select t.devices a .processor <;> simp
  intro hn hd
  have := congrArg (fun e => e.storable) hd
  simp only [storable_shape] at this
  rw [this]

/-! ## Read after write -/

theorem load_put {d : Device} (hd : deviceWf d = true) {a : Word} {o : Originator} {r : Region} {i : Nat}
    (ht : d.translate a o = .next (.cell r i)) (v : Byte) (r' : Region) (j : Nat) :
    (d.put r i v).load r' j = if r' = r ∧ j = i then v else d.load r' j := by
  cases d with
  | ram kind m =>
    have hm : m.wf = true := by cases kind <;> simp_all [deviceWf]
    have hr : r = .ram := by cases kind <;> simp_all [Device.translate]
    subst hr
    cases r' <;> simp [Device.put, Device.load, Memory.read_write hm]
  | cpu => simp [Device.translate] at ht
  | pictureUnit _ _ => simp [Device.translate] at ht
  | cartridge c =>
    simp only [deviceWf, Bool.and_eq_true] at hd
    have hp : Memory.wf c.prg = true := hd.1.1.1
    have hc : Memory.wf c.chr = true := hd.1.2
    have hr : r ≠ .ram := by
      rintro rfl
      simp only [Device.translate, Cartridge.translate] at ht
      repeat' split at ht
      all_goals simp [cellWithin_eq_cell] at ht
    cases r <;> cases r' <;> simp_all [Device.put, Device.load, Memory.read_write hp, Memory.read_write hc]

/-- The byte at every address after a bus write, in every configuration: the addresses that name the written cell read the new
byte where the device stores it, and every other address reads as before. -/
theorem byteAt_busWrite {a : Word} {v : Byte} {s s' : State} (hwf : memoryWf s = true) (h : busWrite a v s = .next s')
    (b : Word) :
    byteAt b s' = if storableAt a s = true ∧ cellOf b s = cellOf a s then some v else byteAt b s := by
  obtain ⟨hf, n, d, hs, ⟨r, i, ht, rfl⟩ | ⟨ht, rfl⟩⟩ := busWriteAs_cases h
  · have hget := (select_getElem hs).1
    have hca : cellOf a s = some (n, r, i) := by simp [cellOf, hs, ht]
    have hsa : storableAt a s = d.storable := by simp [storableAt, hs, hca]
    have hlt : n < s.devices.length := (List.getElem?_eq_some_iff.1 hget).1
    have hdwf : deviceWf d = true := by
      have := List.all_eq_true.1 hwf d (List.mem_of_getElem? hget)
      exact this
    rw [hsa, hca]
    by_cases hst : d.storable = true
    · have hstore : d.store r i v = d.put r i v := by simp [Device.store, hst]
      rw [hstore]
      have hshape : (s.devices.set n (d.put r i v)).map deviceShape = s.devices.map deviceShape :=
        set_shape hget (deviceShape_put d r i v)
      have hsel := select_congr hshape b .processor
      simp only [hst, true_and]
      unfold byteAt cellOf
      simp only [State.setDevices_devices]
      cases hb : select s.devices b .processor with
      | none =>
        rw [hb] at hsel
        cases hb' : select (s.devices.set n (d.put r i v)) b .processor with
        | none => simp
        | some e => rw [hb'] at hsel; simp at hsel
      | some e =>
        obtain ⟨k, e⟩ := e
        rw [hb] at hsel
        cases hb' : select (s.devices.set n (d.put r i v)) b .processor with
        | none => rw [hb'] at hsel; simp at hsel
        | some e' =>
          obtain ⟨k', e'⟩ := e'
          rw [hb'] at hsel
          simp only [Option.map_some, Option.some.injEq, Prod.mk.injEq] at hsel
          obtain ⟨rfl, hsh⟩ := hsel
          have hte : e'.translate b .processor = e.translate b .processor := by
            rw [← translate_shape e', hsh, translate_shape]
          have he := (select_getElem hb).1
          have he' := (select_getElem hb').1
          simp only [hte]
          cases hte2 : e.translate b .processor with
          | next t =>
            cases t with
            | cell r' j =>
              simp only [Option.some.injEq, Prod.mk.injEq]
              by_cases hk : k' = n
              · subst hk
                rw [List.getElem?_set_self hlt] at he'
                injection he' with he'
                rw [hget] at he
                injection he with he
                subst he; subst he'
                rw [load_put hdwf ht]
                by_cases h2 : r' = r ∧ j = i <;> simp [h2]
              · rw [List.getElem?_set_ne (Ne.symm hk)] at he'
                rw [he] at he'
                injection he' with he'
                subst he'
                simp [hk]
            | opaqueUnit => simp
          | fault f => simp
          | refused f => simp
    · have hst' : d.storable = false := by simpa using hst
      have hset : s.devices.set n (d.store r i v) = s.devices := by
        have : d.store r i v = d := by simp [Device.store, hst']
        rw [this]
        apply List.ext_getElem?
        intro k
        by_cases hk : n = k
        · subst hk; rw [List.getElem?_set_self hlt, hget]
        · simp [List.getElem?_set_ne hk]
      rw [hset]
      simp [hst', byteAt]
  · have hsa : storableAt a s' = false := by simp [storableAt, hs, cellOf, ht]
    simp [hsa]

/-- A storing address reads what was written to it. -/
theorem byteAt_busWrite_same {a : Word} {v : Byte} {s s' : State} (hwf : memoryWf s = true) (h : busWrite a v s = .next s')
    (hst : storableAt a s = true) : byteAt a s' = some v := by
  simp [byteAt_busWrite hwf h, hst]

/-! ## The storage stays well formed -/

theorem and_mask_lt (a : Word) (m : Nat) (hm : m < 2 ^ 16) : (a &&& BitVec.ofNat 16 m).toNat ≤ m := by
  simp only [BitVec.toNat_and, BitVec.toNat_ofNat, Nat.mod_eq_of_lt hm]
  exact Nat.and_le_right

/-- A target inside the device's range lies inside its region. -/
theorem deviceWf_put {d : Device} (hd : deviceWf d = true) {a : Word} {o : Originator} (hr : d.withinRange a o = true)
    {r : Region} {i : Nat} (ht : d.translate a o = .next (.cell r i)) (v : Byte) : deviceWf (d.put r i v) = true := by
  cases d with
  | ram kind m =>
    cases kind with
    | flat =>
      simp only [Device.translate, Host.Outcome.next.injEq, Target.cell.injEq] at ht
      obtain ⟨rfl, rfl⟩ := ht
      simp only [deviceWf, Bool.and_eq_true] at hd
      simp only [Device.put, deviceWf, Bool.and_eq_true]
      exact ⟨Memory.wf_write hd.1 _ _, Memory.within_write hd.2 a.isLt _⟩
    | mirrored base =>
      simp only [Device.translate, Host.Outcome.next.injEq, Target.cell.injEq] at ht
      obtain ⟨rfl, rfl⟩ := ht
      simp only [deviceWf, Bool.and_eq_true] at hd
      simp only [Device.put, deviceWf, Bool.and_eq_true]
      refine ⟨Memory.wf_write hd.1 _ _, Memory.within_write hd.2 ?_ _⟩
      have := and_mask_lt a 0x7FF (by decide)
      unfold Config.mirroredSize
      have h2 : (a &&& 0x07FF).toNat ≤ 0x7FF := this
      omega
  | cpu => simp [Device.translate] at ht
  | pictureUnit _ _ => simp [Device.translate] at ht
  | cartridge c =>
    simp only [deviceWf, Bool.and_eq_true] at hd
    obtain ⟨⟨⟨hd1, hd2⟩, hd3⟩, hd4⟩ := hd
    simp only [Device.translate, Cartridge.translate] at ht
    cases o with
    | processor =>
      simp only at ht
      split at ht
      · simp at ht
      · split at ht
        · simp at ht
        · obtain ⟨hb, rfl, rfl⟩ := cellWithin_eq_cell.1 ht
          simp only [Device.put, deviceWf, Bool.and_eq_true]
          exact ⟨⟨⟨Memory.wf_write hd1 _ _, Memory.within_write hd2 hb _⟩, hd3⟩, hd4⟩
    | pictureUnit =>
      simp only at ht
      split at ht
      · simp at ht
      · split at ht
        · simp at ht
        · obtain ⟨hb, rfl, rfl⟩ := cellWithin_eq_cell.1 ht
          simp only [Device.put, deviceWf, Bool.and_eq_true]
          exact ⟨⟨⟨hd1, hd2⟩, Memory.wf_write hd3 _ _⟩, Memory.within_write hd4 hb _⟩

/-- Every bus write keeps the storage well formed, whoever issued it. -/
theorem memoryWf_busWriteAs {o : Originator} {a : Word} {v : Byte} {s s' : State} (hwf : memoryWf s = true)
    (h : busWriteAs o a v s = .next s') : memoryWf s' = true := by
  obtain ⟨-, n, d, hs, ⟨r, i, ht, rfl⟩ | ⟨-, rfl⟩⟩ := busWriteAs_cases h
  · have hg := select_getElem hs
    have hd : deviceWf d = true := List.all_eq_true.1 hwf d (List.mem_of_getElem? hg.1)
    have hnew : deviceWf (d.store r i v) = true := by
      unfold Device.store
      split
      · exact deviceWf_put hd hg.2 ht v
      · exact hd
    simp only [memoryWf, State.setDevices_devices, List.all_eq_true]
    intro e he
    rcases List.mem_or_eq_of_mem_set he with h | rfl
    · exact List.all_eq_true.1 hwf e h
    · exact hnew
  · exact hwf

theorem memoryWf_busWrite {a : Word} {v : Byte} {s s' : State} (hwf : memoryWf s = true) (h : busWrite a v s = .next s') :
    memoryWf s' = true := memoryWf_busWriteAs hwf h

/-- Reset's storage is well formed. -/
theorem memoryWf_reset : memoryWf State.reset = true := by decide

end Sys2Proof.Machine
end

