-- ==== Sys2Proof/Laws/Decode.lean ====
section
/-! SUPPORT. The pieces of the decoder on the pieces of the encoder. -/

namespace Sys2Proof

/-- The decoder's step, with the record already looked up. -/
theorem decodeWith_cons {t : OpTable} {opcode : Byte} {r : OpRecord} (h : t.lookup opcode = r) (bytes : List Byte) :
    decodeWith t (opcode :: bytes) =
      match takeOperand r.mode bytes with
      | none => .error (.truncated opcode)
      | some (o, rest) =>
        match assemble opcode r.mnemonic o with
        | none => .error (.unlawfulRecord opcode)
        | some i => .ok (i, rest) := by
  subst h
  rfl

/-- An operand's bytes are taken back as the operand (R111, R113). -/
theorem takeOperand_bytes (o : Operand) (rest : List Byte) : takeOperand o.mode (o.bytes ++ rest) = some (o, rest) := by
  cases o <;> simp [Operand.mode, Operand.bytes, takeOperand]

theorem length_bytes (o : Operand) : o.bytes.length = o.mode.operandCount := by cases o <;> rfl

/-- What the decoder takes is an operand of the record's mode, and its bytes. -/
theorem takeOperand_eq_some {m : Mode} {bs rest : List Byte} {o : Operand} (h : takeOperand m bs = some (o, rest)) :
    o.mode = m ∧ bs = o.bytes ++ rest ∧ rest = bs.drop m.operandCount := by
  unfold takeOperand at h
  split at h <;> first | (cases h; done) | (cases h; simp [Operand.mode, Operand.bytes, Mode.operandCount, hi_mk16, lo_mk16])

/-- The record of every byte of a lawful table is lawful (R115). -/
theorem OpTable.lookup_lawful {t : OpTable} (h : t.lawful = true) (b : Byte) : (t.lookup b).lawful = true := by
  unfold OpTable.lookup
  simp only [OpTable.lawful, List.all_eq_true] at h
  simp only [List.getD_eq_getElem?_getD]
  cases h1 : t[b.toNat/16]? with
  | none => simp; decide
  | some row =>
    simp only [Option.getD_some]
    cases h2 : row[b.toNat % 16]? with
    | none => simp; decide
    | some r => simp only [Option.getD_some]; exact h _ (List.mem_of_getElem? h1) _ (List.mem_of_getElem? h2)

/-! ## R120's matrix read back through R121's list -/

/-- An operand of each mode. -/
def Mode.sample : Mode → Operand
  | .imp => .imp | .imm => .imm 0 | .zp0 => .zp0 0 | .zpx => .zpx 0 | .zpy => .zpy 0 | .izx => .izx 0 | .izy => .izy 0
  | .rel => .rel 0 | .abs => .abs 0 | .abx => .abx 0 | .aby => .aby 0 | .ind => .ind 0

/-- The instruction the record of a byte makes is listed in R121 at that byte. -/
def listedAt (b : Byte) : Bool :=
  match assemble b (defaultTable.lookup b).mnemonic (defaultTable.lookup b).mode.sample with
  | some i => i.wellFormed && opcodeOf i == b
  | none => false

theorem all_listedAt : (List.range 256).all (fun n => listedAt (BitVec.ofNat 8 n)) = true := by decide +kernel

/-- Whether an instruction is listed, and where, depends on its operand's mode alone. -/
theorem assemble_sample {b : Byte} {m : Mnemonic} {o : Operand} {i : Instr} (h : assemble b m o = some i) :
    ∃ j, assemble b m o.mode.sample = some j ∧ j.wellFormed = i.wellFormed ∧ opcodeOf j = opcodeOf i := by
  cases m <;> first
    | (cases h; refine ⟨_, rfl, ?_, ?_⟩ <;> cases o <;> rfl)
    | (cases o <;> first | (cases h; done) | (cases h; exact ⟨_, rfl, rfl, rfl⟩))

/-- What the default table's record and an operand of its mode make is well formed, and its opcode byte is the byte. -/
theorem assemble_listed {b : Byte} {o : Operand} {i : Instr} (hm : o.mode = (defaultTable.lookup b).mode)
    (h : assemble b (defaultTable.lookup b).mnemonic o = some i) : i.wellFormed = true ∧ opcodeOf i = b := by
  obtain ⟨j, hj, hw, hb⟩ := assemble_sample h
  have hl := List.all_eq_true.1 all_listedAt b.toNat (List.mem_range.2 b.isLt)
  rw [BitVec.ofNat_toNat, BitVec.setWidth_eq] at hl
  unfold listedAt at hl
  rw [← hm, hj] at hl
  simpa [hw, hb] using hl

end Sys2Proof
end

