-- ==== Sys2Proof/Laws/Ops.lean ====
section
/-! SUPPORT. The shared operations over memory and registers: everything each can do when it answers. -/

namespace Sys2Proof.Machine

open Sys2Proof.Safety

/-- What every operation of the machine keeps: well-formed storage, the devices' configuration, the fatal mark, the
connection, the decode table. -/
structure Keeps (s t : State) : Prop where
  wf : memoryWf s = true → memoryWf t = true
  config : configOf t = configOf s
  fatal : t.fatal = s.fatal
  connected : t.processorConnected = s.processorConnected
  table : t.opTable = s.opTable

theorem Keeps.refl (s : State) : Keeps s s := ⟨id, rfl, rfl, rfl, rfl⟩

theorem Keeps.trans {s t u : State} (h : Keeps s t) (k : Keeps t u) : Keeps s u :=
  ⟨fun w => k.wf (h.wf w), k.config.trans h.config, k.fatal.trans h.fatal, k.connected.trans h.connected, k.table.trans h.table⟩

/-- An update that leaves devices, mark, connection and table alone keeps everything. -/
theorem Keeps.of_eq {s t : State} (hd : t.devices = s.devices) (hf : t.fatal = s.fatal)
    (hc : t.processorConnected = s.processorConnected) (ht : t.opTable = s.opTable) : Keeps s t :=
  ⟨fun w => by unfold memoryWf at *; rw [hd]; exact w, by unfold configOf; rw [hd], hf, hc, ht⟩

theorem busRead_keeps {a : Word} {s s' : State} {v : Byte} (h : busRead a s = .next (v, s')) : Keeps s s' := by
  rw [(busRead_state h).1]
  exact .of_eq rfl rfl rfl rfl

theorem busWrite_keeps {a : Word} {v : Byte} {s s' : State} (h : busWrite a v s = .next s') : Keeps s s' := by
  have hs := busWrite_state h
  refine ⟨fun w => memoryWf_busWrite w h, hs.2, ?_, ?_, ?_⟩ <;> rw [hs.1] <;> rfl

/-! ## The stack -/

/-- `Push8`: one write at `{0x01, SP}`, then `SP - 1`; nothing else changes (R149). -/
theorem push8_eq_next {v : Byte} {s s' : State} :
    push8 v s = .next s' ↔ ∃ s1, busWrite (stackAddr s.sp) v s = .next s1 ∧ s' = s1.setSp (s.sp - 1) := by
  unfold push8
  rw [andThen_eq_next]
  constructor
  · rintro ⟨s1, h1, h⟩
    refine ⟨s1, h1, ?_⟩
    rw [← Host.Outcome.next.inj h, (busWrite_state h1).1]
    rfl
  · rintro ⟨s1, h1, rfl⟩
    refine ⟨s1, h1, ?_⟩
    rw [(busWrite_state h1).1]
    rfl

theorem push8_state {v : Byte} {s s' : State} (h : push8 v s = .next s') :
    s' = (s.setDevices s'.devices).setSp (s.sp - 1) := by
  obtain ⟨s1, h1, rfl⟩ := push8_eq_next.1 h
  rw [(busWrite_state h1).1]
  rfl

theorem push8_keeps {v : Byte} {s s' : State} (h : push8 v s = .next s') : Keeps s s' := by
  obtain ⟨s1, h1, rfl⟩ := push8_eq_next.1 h
  exact (busWrite_keeps h1).trans (.of_eq rfl rfl rfl rfl)

/-- `Pull8`: `SP + 1`, then one read; nothing else changes but the draw count (R150). -/
theorem pull8_state {v : Byte} {s s' : State} (h : pull8 s = .next (v, s')) :
    s' = (s.setSp (s.sp + 1)).setDraws s'.draws ∧ s.draws ≤ s'.draws := busRead_state h

theorem pull8_keeps {v : Byte} {s s' : State} (h : pull8 s = .next (v, s')) : Keeps s s' :=
  Keeps.trans (t := s.setSp (s.sp + 1)) (.of_eq rfl rfl rfl rfl) (busRead_keeps h)

/-- `Push16`: the high byte, then the low byte (R151). -/
theorem push16_eq_next {w : Word} {s s' : State} :
    push16 w s = .next s' ↔ ∃ s1, push8 (hi w) s = .next s1 ∧ push8 (lo w) s1 = .next s' := andThen_eq_next

theorem push16_state {w : Word} {s s' : State} (h : push16 w s = .next s') :
    s' = (s.setDevices s'.devices).setSp (s.sp - 2) := by
  obtain ⟨s1, h1, h2⟩ := push16_eq_next.1 h
  rw [push8_state h2, push8_state h1]
  have e : s.sp - 1 - 1 = s.sp - 2 := by bv_omega
  change _ = (s.setDevices s'.devices).setSp (s.sp - 2)
  rw [← e]; rfl

theorem push16_keeps {w : Word} {s s' : State} (h : push16 w s = .next s') : Keeps s s' := by
  obtain ⟨s1, h1, h2⟩ := push16_eq_next.1 h
  exact (push8_keeps h1).trans (push8_keeps h2)

/-- `Pull16`: the low byte, then the high byte (R152). -/
theorem pull16_eq_next {w : Word} {s s' : State} :
    pull16 s = .next (w, s') ↔
      ∃ l s1 h, pull8 s = .next (l, s1) ∧ pull8 s1 = .next (h, s') ∧ w = mk16 h l := by
  unfold pull16
  simp only [andThen_eq_next]
  constructor
  · rintro ⟨⟨l, s1⟩, h1, ⟨h, s2⟩, h2, h3⟩
    simp only [Host.Outcome.next.injEq, Prod.mk.injEq] at h3
    obtain ⟨rfl, rfl⟩ := h3
    exact ⟨l, s1, h, h1, h2, rfl⟩
  · rintro ⟨l, s1, h, h1, h2, rfl⟩
    exact ⟨(l, s1), h1, (h, s'), h2, rfl⟩

theorem pull16_state {w : Word} {s s' : State} (h : pull16 s = .next (w, s')) :
    s' = (s.setSp (s.sp + 2)).setDraws s'.draws ∧ s.draws ≤ s'.draws := by
  obtain ⟨l, s1, hb, h1, h2, rfl⟩ := pull16_eq_next.1 h
  have e1 := pull8_state h1
  have e2 := pull8_state h2
  refine ⟨?_, e1.2.trans e2.2⟩
  rw [e2.1, e1.1]
  have e : s.sp + 1 + 1 = s.sp + 2 := by bv_omega
  change _ = (s.setSp (s.sp + 2)).setDraws s'.draws
  rw [← e]; rfl

theorem pull16_keeps {w : Word} {s s' : State} (h : pull16 s = .next (w, s')) : Keeps s s' := by
  obtain ⟨l, s1, hb, h1, h2, rfl⟩ := pull16_eq_next.1 h
  exact (pull8_keeps h1).trans (pull8_keeps h2)

/-- `Read16`: the low byte, then the byte at the next address (R153). -/
theorem read16_eq_next {a w : Word} {s s' : State} :
    read16 a s = .next (w, s') ↔
      ∃ l s1 h, busRead a s = .next (l, s1) ∧ busRead (a + 1) s1 = .next (h, s') ∧ w = mk16 h l := by
  unfold read16
  simp only [andThen_eq_next]
  constructor
  · rintro ⟨⟨l, s1⟩, h1, ⟨h, s2⟩, h2, h3⟩
    simp only [Host.Outcome.next.injEq, Prod.mk.injEq] at h3
    obtain ⟨rfl, rfl⟩ := h3
    exact ⟨l, s1, h, h1, h2, rfl⟩
  · rintro ⟨l, s1, h, h1, h2, rfl⟩
    exact ⟨(l, s1), h1, (h, s'), h2, rfl⟩

theorem read16_state {a w : Word} {s s' : State} (h : read16 a s = .next (w, s')) :
    s' = s.setDraws s'.draws ∧ s.draws ≤ s'.draws := by
  obtain ⟨l, s1, hb, h1, h2, rfl⟩ := read16_eq_next.1 h
  have e1 := busRead_state h1
  have e2 := busRead_state h2
  refine ⟨?_, e1.2.trans e2.2⟩
  rw [e2.1, e1.1]
  rfl

theorem read16_keeps {a w : Word} {s s' : State} (h : read16 a s = .next (w, s')) : Keeps s s' := by
  obtain ⟨l, s1, hb, h1, h2, rfl⟩ := read16_eq_next.1 h
  exact (busRead_keeps h1).trans (busRead_keeps h2)

/-! ## Taking an exception and returning from one -/

/-- The flag byte an entry pushes (R306): bit 5 = 1, bit 4 = 1 for BRK alone, bit 2 = 1 for BRK and as it was otherwise. -/
def pushedFlags (kind : TrapKind) (p : Byte) : Byte :=
  setFlag .u true (setFlag .b (kind = .brk) (if kind = .brk then setFlag .i true p else p))

/-- An entry, said once: two pushes of the return address, one of the flags, the vector read; `SP` goes down by 3, the
register's `I`, `U` become 1 and `B` 0, `PC` is the vector's word (R306). -/
theorem takeTrap_cases {kind : TrapKind} {ret : Word} {s s' : State} (h : takeTrap kind ret s = .next s') :
    ∃ s0 s1 s2 s3 target,
      s0 = (if kind = .brk then s.setFlag .i true else s) ∧
      push16 ret s0 = .next s1 ∧
      push8 (pushedFlags kind s.p) ((s1.setFlag .b (kind = .brk)).setFlag .u true) = .next s2 ∧
      read16 kind.vector ((s2.setFlag .b false).setFlag .i true) = .next (target, s3) ∧
      s' = s3.setPc target := by
  unfold takeTrap at h
  obtain ⟨s1, h1, h⟩ := andThen_eq_next.1 h
  obtain ⟨s2, h2, h⟩ := andThen_eq_next.1 h
  obtain ⟨⟨target, s3⟩, h3, h⟩ := andThen_eq_next.1 h
  refine ⟨_, s1, s2, s3, target, rfl, h1, ?_, h3, by simpa using h.symm⟩
  have hp : s1.p = (if kind = .brk then setFlag .i true s.p else s.p) := by
    rw [push16_state h1]
    split <;> rfl
  rw [← h2]
  simp only [pushedFlags, State.setFlag_p, hp]

theorem takeTrap_keeps {kind : TrapKind} {ret : Word} {s s' : State} (h : takeTrap kind ret s = .next s') : Keeps s s' := by
  obtain ⟨s0, s1, s2, s3, target, h0, h1, h2, h3, rfl⟩ := takeTrap_cases h
  have k0 : Keeps s s0 := by subst h0; split <;> exact .of_eq rfl rfl rfl rfl
  have k1 : Keeps s1 ((s1.setFlag .b (kind = .brk)).setFlag .u true) := .of_eq rfl rfl rfl rfl
  have k2 : Keeps s2 ((s2.setFlag .b false).setFlag .i true) := .of_eq rfl rfl rfl rfl
  have k3 : Keeps s3 (s3.setPc target) := .of_eq rfl rfl rfl rfl
  exact ((((k0.trans (push16_keeps h1)).trans k1).trans (push8_keeps h2)).trans k2).trans ((read16_keeps h3).trans k3)

/-- A return, said once: the flags are pulled with `B` and `U` cleared, then `PC`; `SP` goes up by 3 (R285). -/
theorem returnFromTrap_cases {s s' : State} (h : returnFromTrap s = .next s') :
    ∃ flags s1 target s2,
      pull8 s = .next (flags, s1) ∧
      pull16 (((s1.setP flags).setFlag .b false).setFlag .u false) = .next (target, s2) ∧
      s' = s2.setPc target := by
  unfold returnFromTrap at h
  obtain ⟨⟨flags, s1⟩, h1, h⟩ := andThen_eq_next.1 h
  obtain ⟨⟨target, s2⟩, h2, h⟩ := andThen_eq_next.1 h
  exact ⟨flags, s1, target, s2, h1, h2, by simpa using h.symm⟩

theorem returnFromTrap_keeps {s s' : State} (h : returnFromTrap s = .next s') : Keeps s s' := by
  obtain ⟨flags, s1, target, s2, h1, h2, rfl⟩ := returnFromTrap_cases h
  have k1 : Keeps s1 (((s1.setP flags).setFlag .b false).setFlag .u false) := .of_eq rfl rfl rfl rfl
  have k2 : Keeps s2 (s2.setPc target) := .of_eq rfl rfl rfl rfl
  exact (((pull8_keeps h1).trans k1).trans (pull16_keeps h2)).trans k2

end Sys2Proof.Machine
end

