-- ==== Sys2Proof/Laws/Host.lean ====
section
/-! SUPPORT. The boundary of a tick: what an action leaves, said once. -/

namespace Sys2Proof.Machine

@[simp] theorem settle_next (s t : State) : settle s (.next t) = t := rfl
@[simp] theorem settle_fault (s : State) (f : Fault) : settle s (.fault f) = s.setFatal (some f) := rfl
@[simp] theorem settle_refused (s : State) (r : Refusal) : settle s (.refused r) = s := rfl

/-- A read leaves what it leaves when its byte is dropped. -/
theorem accessRead_state (o : Originator) (a : Word) (s : State) :
    (accessRead o a s).2 = settle s (andThen (busReadAs o a s) fun e => .next e.2) := by
  unfold accessRead
  cases busReadAs o a s <;> rfl

/-- Once the fatal mark is set no access is made (R70, R310). -/
theorem busReadAs_of_fatal {o : Originator} {a : Word} {s : State} {f : Fault} (h : s.fatal = some f) :
    busReadAs o a s = .fault f := by
  unfold busReadAs route
  rw [h]
  rfl

theorem busWriteAs_of_fatal {o : Originator} {a : Word} {v : Byte} {s : State} {f : Fault} (h : s.fatal = some f) :
    busWriteAs o a v s = .fault f := by
  unfold busWriteAs route
  rw [h]
  rfl

/-- Setting the mark that is set changes nothing. -/
theorem setFatal_of_fatal {s : State} {f : Fault} (h : s.fatal = some f) : s.setFatal (some f) = s := by
  unfold State.setFatal
  rw [← h]

/-- Every action is one operation, settled. -/
def actionResult (rp : Config.ResetParams) (s : State) : HostAction → Result State
  | .tick => step s
  | .reset => resetMachine rp s
  | .interrupt nmi => interrupt nmi s
  | .read a => andThen (busReadAs .processor a s) fun e => .next e.2
  | .write a v => busWriteAs .processor a v s
  | .cloneState => .next s
  | .pictureRead a => andThen (busReadAs .pictureUnit a s) fun e => .next e.2
  | .pictureWrite a v => busWriteAs .pictureUnit a v s

theorem hostAct_eq_settle (rp : Config.ResetParams) (c : HostAction) (s : State) :
    hostAct rp c s = settle s (actionResult rp s c) := by
  cases c with
  | read a => exact accessRead_state _ a s
  | pictureRead a => exact accessRead_state _ a s
  | _ => rfl

end Sys2Proof.Machine
end

