-- ==== Sys2Proof/Laws/Operands.lean ====
section
/-! SUPPORT. The resolver, the operand fetch and the families' shapes: everything each can do when it answers. -/

namespace Sys2Proof.Machine

open Sys2Proof.Safety

/-- The resolver changes at most `fetched`, `address_abs`, `address_rel` and the draw count (R160; `PC` was advanced by the
fetch). -/
theorem resolve_state {o : Operand} {s s' : State} {c : Bool} (h : resolve o s = .next (c, s')) :
    s' = (((s.setFetched s'.fetched).setAddressAbs s'.addressAbs).setAddressRel s'.addressRel).setDraws s'.draws ∧
      s.draws ≤ s'.draws := by
  cases o with
  | ind ptr =>
    simp only [resolve, andThen_eq_next] at h
    obtain ⟨⟨l, s1⟩, h1, ⟨hb, s2⟩, h2, h3⟩ := h
    simp only [Host.Outcome.next.injEq, Prod.mk.injEq] at h3
    obtain ⟨-, rfl⟩ := h3
    have e1 := busRead_state h1
    have e2 := busRead_state h2
    refine ⟨?_, e1.2.trans e2.2⟩
    rw [e2.1, e1.1]; rfl
  | izx t =>
    simp only [resolve, andThen_eq_next] at h
    obtain ⟨⟨l, s1⟩, h1, ⟨hb, s2⟩, h2, h3⟩ := h
    simp only [Host.Outcome.next.injEq, Prod.mk.injEq] at h3
    obtain ⟨-, rfl⟩ := h3
    have e1 := busRead_state h1
    have e2 := busRead_state h2
    refine ⟨?_, e1.2.trans e2.2⟩
    rw [e2.1, e1.1]; rfl
  | izy t =>
    simp only [resolve, andThen_eq_next] at h
    obtain ⟨⟨l, s1⟩, h1, ⟨hb, s2⟩, h2, h3⟩ := h
    simp only [indexed, Host.Outcome.next.injEq, Prod.mk.injEq] at h3
    obtain ⟨-, rfl⟩ := h3
    have e1 := busRead_state h1
    have e2 := busRead_state h2
    refine ⟨?_, e1.2.trans e2.2⟩
    rw [e2.1, e1.1]; rfl
  | _ =>
    simp only [resolve, indexed, Host.Outcome.next.injEq, Prod.mk.injEq] at h
    obtain ⟨-, rfl⟩ := h
    exact ⟨rfl, Nat.le_refl _⟩

theorem resolve_keeps {o : Operand} {s s' : State} {c : Bool} (h : resolve o s = .next (c, s')) : Keeps s s' := by
  rw [(resolve_state h).1]
  exact .of_eq rfl rfl rfl rfl

/-- The operand fetch changes `fetched`, to the operand's value, and the draw count (R147). -/
theorem fetchOperand_state {o : Operand} {s s' : State} {m : Byte} (h : fetchOperand o s = .next (m, s')) :
    s' = (s.setFetched m).setDraws s'.draws ∧ s.draws ≤ s'.draws := by
  cases o with
  | imp =>
    simp only [fetchOperand, Host.Outcome.next.injEq, Prod.mk.injEq] at h
    obtain ⟨rfl, rfl⟩ := h
    exact ⟨rfl, Nat.le_refl _⟩
  | imm b =>
    simp only [fetchOperand, Host.Outcome.next.injEq, Prod.mk.injEq] at h
    obtain ⟨rfl, rfl⟩ := h
    exact ⟨rfl, Nat.le_refl _⟩
  | _ =>
    simp only [fetchOperand, andThen_eq_next] at h
    obtain ⟨⟨v, s1⟩, h1, h2⟩ := h
    simp only [Host.Outcome.next.injEq, Prod.mk.injEq] at h2
    obtain ⟨rfl, rfl⟩ := h2
    have e1 := busRead_state h1
    refine ⟨?_, e1.2⟩
    rw [e1.1]; rfl

theorem fetchOperand_keeps {o : Operand} {s s' : State} {m : Byte} (h : fetchOperand o s = .next (m, s')) : Keeps s s' := by
  rw [(fetchOperand_state h).1]
  exact .of_eq rfl rfl rfl rfl

/-- The write back of the shifts writes `A` in mode `IMP`, storage otherwise (R229). -/
theorem writeBack_state {o : Operand} {r : Byte} {s s' : State} (h : writeBack o r s = .next s') :
    s' = (s.setA s'.a).setDevices s'.devices := by
  cases o with
  | imp =>
    simp only [writeBack, Host.Outcome.next.injEq] at h
    subst h; rfl
  | _ =>
    rw [(busWrite_state (s := s) (s' := s') h).1]; rfl

theorem writeBack_keeps {o : Operand} {r : Byte} {s s' : State} (h : writeBack o r s = .next s') : Keeps s s' := by
  cases o with
  | imp =>
    simp only [writeBack, Host.Outcome.next.injEq] at h
    subst h; exact .of_eq rfl rfl rfl rfl
  | _ => exact busWrite_keeps h

/-! ## The families' shapes -/

theorem withOperand_eq_next {o : Operand} {eligible : Bool} {effect : Byte → State → State} {s s' : State} :
    withOperand o eligible effect s = .next s' ↔
      ∃ c s1 m s2, resolve o s = .next (c, s1) ∧ fetchOperand o s1 = .next (m, s2) ∧
        s' = addBonus (c && eligible) (effect m s2) := by
  unfold withOperand
  simp only [andThen_eq_next]
  constructor
  · rintro ⟨⟨c, s1⟩, h1, ⟨m, s2⟩, h2, h3⟩
    exact ⟨c, s1, m, s2, h1, h2, by simpa using h3.symm⟩
  · rintro ⟨c, s1, m, s2, h1, h2, rfl⟩
    exact ⟨(c, s1), h1, (m, s2), h2, rfl⟩

theorem storeOperand_eq_next {o : Operand} {value : State → Byte} {s s' : State} :
    storeOperand o value s = .next s' ↔
      ∃ c s1, resolve o s = .next (c, s1) ∧ busWrite s1.addressAbs (value s1) s1 = .next s' := by
  unfold storeOperand
  simp only [andThen_eq_next]
  constructor
  · rintro ⟨⟨c, s1⟩, h1, h2⟩
    exact ⟨c, s1, h1, h2⟩
  · rintro ⟨c, s1, h1, h2⟩
    exact ⟨(c, s1), h1, h2⟩

theorem modifyOperand_eq_next {o : Operand} {f : Byte → Byte} {s s' : State} :
    modifyOperand o f s = .next s' ↔
      ∃ c s1 m s2 s3, resolve o s = .next (c, s1) ∧ fetchOperand o s1 = .next (m, s2) ∧
        busWrite s2.addressAbs (f m) s2 = .next s3 ∧ s' = s3.setZN (f m) := by
  unfold modifyOperand
  simp only [andThen_eq_next]
  constructor
  · rintro ⟨⟨c, s1⟩, h1, ⟨m, s2⟩, h2, s3, h3, h4⟩
    exact ⟨c, s1, m, s2, s3, h1, h2, h3, by simpa using h4.symm⟩
  · rintro ⟨c, s1, m, s2, s3, h1, h2, h3, rfl⟩
    exact ⟨(c, s1), h1, (m, s2), h2, s3, h3, rfl⟩

theorem shiftOperand_eq_next {o : Operand} {f : Bool → Byte → ShiftResult} {s s' : State} :
    shiftOperand o f s = .next s' ↔
      ∃ c s1 m s2, resolve o s = .next (c, s1) ∧ fetchOperand o s1 = .next (m, s2) ∧
        writeBack o (f (s2.flag .c) m).value
          ((s2.setFlag .c (f (s2.flag .c) m).carry).setZN (f (s2.flag .c) m).value) = .next s' := by
  unfold shiftOperand
  simp only [andThen_eq_next]
  constructor
  · rintro ⟨⟨c, s1⟩, h1, ⟨m, s2⟩, h2, h3⟩
    exact ⟨c, s1, m, s2, h1, h2, h3⟩
  · rintro ⟨c, s1, m, s2, h1, h2, h3⟩
    exact ⟨(c, s1), h1, (m, s2), h2, h3⟩

theorem implied_eq_next {effect : State → State} {s s' : State} :
    implied effect s = .next s' ↔ s' = effect (s.setFetched s.a) := by
  simp only [implied, Host.Outcome.next.injEq, eq_comm]

theorem branchOn_eq_next {disp : Byte} {cond : State → Bool} {s s' : State} :
    branchOn disp cond s = .next s' ↔
      s' = branch (cond (s.setAddressRel (sext16 disp))) (s.setAddressRel (sext16 disp)) := by
  simp only [branchOn, resolve, andThen_next, Host.Outcome.next.injEq, eq_comm]

end Sys2Proof.Machine
end

