-- ==== Sys2Proof/Laws/PerInstr.lean ====
section
/-! SUPPORT. One lemma per constructor: R121's list, from which the encoder is written, and R120's matrix, from which the
decoder reads, agree on every well-formed instruction. -/

namespace Sys2Proof.Laws.TableAgreement

/-- The record at an instruction's opcode byte has its mnemonic and its mode. -/
def Statement (i : Instr) : Prop :=
  i.wellFormed = true →
    (defaultTable.lookup (opcodeOf i)).mnemonic = i.mnemonic ∧ (defaultTable.lookup (opcodeOf i)).mode = i.operand.mode

/-- Every unassigned byte has the default no-op's record. -/
theorem lookup_unassigned : unassigned.all (fun b => decide (defaultTable.lookup b = dnopRecord)) = true := by decide

theorem adc (o : Operand) : Statement (.adc o) := by
  simp only [Statement, Instr.wellFormed, opcodeOf, Instr.mnemonic, Instr.operand]
  generalize o.mode = m
  cases m <;> decide

theorem and (o : Operand) : Statement (.and o) := by
  simp only [Statement, Instr.wellFormed, opcodeOf, Instr.mnemonic, Instr.operand]
  generalize o.mode = m
  cases m <;> decide

theorem asl (o : Operand) : Statement (.asl o) := by
  simp only [Statement, Instr.wellFormed, opcodeOf, Instr.mnemonic, Instr.operand]
  generalize o.mode = m
  cases m <;> decide

theorem bcc (v : Byte) : Statement (.bcc v) := by
  simp only [Statement, Instr.wellFormed, opcodeOf, Instr.mnemonic, Instr.operand, Operand.mode]
  decide

theorem bcs (v : Byte) : Statement (.bcs v) := by
  simp only [Statement, Instr.wellFormed, opcodeOf, Instr.mnemonic, Instr.operand, Operand.mode]
  decide

theorem beq (v : Byte) : Statement (.beq v) := by
  simp only [Statement, Instr.wellFormed, opcodeOf, Instr.mnemonic, Instr.operand, Operand.mode]
  decide

theorem bit (o : Operand) : Statement (.bit o) := by
  simp only [Statement, Instr.wellFormed, opcodeOf, Instr.mnemonic, Instr.operand]
  generalize o.mode = m
  cases m <;> decide

theorem bmi (v : Byte) : Statement (.bmi v) := by
  simp only [Statement, Instr.wellFormed, opcodeOf, Instr.mnemonic, Instr.operand, Operand.mode]
  decide

theorem bne (v : Byte) : Statement (.bne v) := by
  simp only [Statement, Instr.wellFormed, opcodeOf, Instr.mnemonic, Instr.operand, Operand.mode]
  decide

theorem bpl (v : Byte) : Statement (.bpl v) := by
  simp only [Statement, Instr.wellFormed, opcodeOf, Instr.mnemonic, Instr.operand, Operand.mode]
  decide

theorem brk : Statement .brk := fun _ => ⟨rfl, rfl⟩

theorem bvc (v : Byte) : Statement (.bvc v) := by
  simp only [Statement, Instr.wellFormed, opcodeOf, Instr.mnemonic, Instr.operand, Operand.mode]
  decide

theorem bvs (v : Byte) : Statement (.bvs v) := by
  simp only [Statement, Instr.wellFormed, opcodeOf, Instr.mnemonic, Instr.operand, Operand.mode]
  decide

theorem clc : Statement .clc := fun _ => ⟨rfl, rfl⟩

theorem cld : Statement .cld := fun _ => ⟨rfl, rfl⟩

theorem cli : Statement .cli := fun _ => ⟨rfl, rfl⟩

theorem clv : Statement .clv := fun _ => ⟨rfl, rfl⟩

theorem cmp (o : Operand) : Statement (.cmp o) := by
  simp only [Statement, Instr.wellFormed, opcodeOf, Instr.mnemonic, Instr.operand]
  generalize o.mode = m
  cases m <;> decide

theorem cpx (o : Operand) : Statement (.cpx o) := by
  simp only [Statement, Instr.wellFormed, opcodeOf, Instr.mnemonic, Instr.operand]
  generalize o.mode = m
  cases m <;> decide

theorem cpy (o : Operand) : Statement (.cpy o) := by
  simp only [Statement, Instr.wellFormed, opcodeOf, Instr.mnemonic, Instr.operand]
  generalize o.mode = m
  cases m <;> decide

theorem dec (o : Operand) : Statement (.dec o) := by
  simp only [Statement, Instr.wellFormed, opcodeOf, Instr.mnemonic, Instr.operand]
  generalize o.mode = m
  cases m <;> decide

theorem dex : Statement .dex := fun _ => ⟨rfl, rfl⟩

theorem dey : Statement .dey := fun _ => ⟨rfl, rfl⟩

theorem eor (o : Operand) : Statement (.eor o) := by
  simp only [Statement, Instr.wellFormed, opcodeOf, Instr.mnemonic, Instr.operand]
  generalize o.mode = m
  cases m <;> decide

theorem inc (o : Operand) : Statement (.inc o) := by
  simp only [Statement, Instr.wellFormed, opcodeOf, Instr.mnemonic, Instr.operand]
  generalize o.mode = m
  cases m <;> decide

theorem inx : Statement .inx := fun _ => ⟨rfl, rfl⟩

theorem iny : Statement .iny := fun _ => ⟨rfl, rfl⟩

theorem jmp (o : Operand) : Statement (.jmp o) := by
  simp only [Statement, Instr.wellFormed, opcodeOf, Instr.mnemonic, Instr.operand]
  generalize o.mode = m
  cases m <;> decide

theorem jsr (v : Word) : Statement (.jsr v) := by
  simp only [Statement, Instr.wellFormed, opcodeOf, Instr.mnemonic, Instr.operand, Operand.mode]
  decide

theorem lda (o : Operand) : Statement (.lda o) := by
  simp only [Statement, Instr.wellFormed, opcodeOf, Instr.mnemonic, Instr.operand]
  generalize o.mode = m
  cases m <;> decide

theorem ldx (o : Operand) : Statement (.ldx o) := by
  simp only [Statement, Instr.wellFormed, opcodeOf, Instr.mnemonic, Instr.operand]
  generalize o.mode = m
  cases m <;> decide

theorem ldy (o : Operand) : Statement (.ldy o) := by
  simp only [Statement, Instr.wellFormed, opcodeOf, Instr.mnemonic, Instr.operand]
  generalize o.mode = m
  cases m <;> decide

theorem lsr (o : Operand) : Statement (.lsr o) := by
  simp only [Statement, Instr.wellFormed, opcodeOf, Instr.mnemonic, Instr.operand]
  generalize o.mode = m
  cases m <;> decide

theorem nop : Statement .nop := fun _ => ⟨rfl, rfl⟩

theorem ora (o : Operand) : Statement (.ora o) := by
  simp only [Statement, Instr.wellFormed, opcodeOf, Instr.mnemonic, Instr.operand]
  generalize o.mode = m
  cases m <;> decide

theorem pha : Statement .pha := fun _ => ⟨rfl, rfl⟩

theorem php : Statement .php := fun _ => ⟨rfl, rfl⟩

theorem pla : Statement .pla := fun _ => ⟨rfl, rfl⟩

theorem plp : Statement .plp := fun _ => ⟨rfl, rfl⟩

theorem rol (o : Operand) : Statement (.rol o) := by
  simp only [Statement, Instr.wellFormed, opcodeOf, Instr.mnemonic, Instr.operand]
  generalize o.mode = m
  cases m <;> decide

theorem ror (o : Operand) : Statement (.ror o) := by
  simp only [Statement, Instr.wellFormed, opcodeOf, Instr.mnemonic, Instr.operand]
  generalize o.mode = m
  cases m <;> decide

theorem rti : Statement .rti := fun _ => ⟨rfl, rfl⟩

theorem rts : Statement .rts := fun _ => ⟨rfl, rfl⟩

theorem sbc (o : Operand) : Statement (.sbc o) := by
  simp only [Statement, Instr.wellFormed, opcodeOf, Instr.mnemonic, Instr.operand]
  generalize o.mode = m
  cases m <;> decide

theorem sec : Statement .sec := fun _ => ⟨rfl, rfl⟩

theorem sed : Statement .sed := fun _ => ⟨rfl, rfl⟩

theorem sei : Statement .sei := fun _ => ⟨rfl, rfl⟩

theorem sta (o : Operand) : Statement (.sta o) := by
  simp only [Statement, Instr.wellFormed, opcodeOf, Instr.mnemonic, Instr.operand]
  generalize o.mode = m
  cases m <;> decide

theorem stx (o : Operand) : Statement (.stx o) := by
  simp only [Statement, Instr.wellFormed, opcodeOf, Instr.mnemonic, Instr.operand]
  generalize o.mode = m
  cases m <;> decide

theorem sty (o : Operand) : Statement (.sty o) := by
  simp only [Statement, Instr.wellFormed, opcodeOf, Instr.mnemonic, Instr.operand]
  generalize o.mode = m
  cases m <;> decide

theorem tax : Statement .tax := fun _ => ⟨rfl, rfl⟩

theorem tay : Statement .tay := fun _ => ⟨rfl, rfl⟩

theorem tsx : Statement .tsx := fun _ => ⟨rfl, rfl⟩

theorem txa : Statement .txa := fun _ => ⟨rfl, rfl⟩

theorem txs : Statement .txs := fun _ => ⟨rfl, rfl⟩

theorem tya : Statement .tya := fun _ => ⟨rfl, rfl⟩

theorem dnop (b : Byte) : Statement (.dnop b) := by
  intro h
  have hb := List.all_eq_true.1 lookup_unassigned b (by simpa [Instr.wellFormed] using h)
  rw [decide_eq_true_eq] at hb
  simp only [opcodeOf, hb]
  exact ⟨rfl, rfl⟩

end Sys2Proof.Laws.TableAgreement
end

