-- ==== Sys2Proof/Laws/Served.lean ====
section
/-! SUPPORT. Where every address is served and no fatal mark is set, every shared operation answers, and leaves such a state. -/

namespace Sys2Proof.Machine

open Sys2Proof.Safety

/-- No fatal mark, and every processor address is served. -/
def Served (s : State) : Prop := s.fatal = none ∧ AllServed s

theorem served_keeps {s t : State} (k : Keeps s t) (h : s.fatal = none ∧ AllServed s) : t.fatal = none ∧ AllServed t :=
  ⟨k.fatal.trans h.1, fun a => (servesAt_congr k.config a).trans (h.2 a)⟩

theorem busRead_served {s : State} (h : Served s) (a) : ∃ v t, busRead a s = .next (v, t) ∧ Served t := by
  obtain ⟨v, t, e⟩ := busRead_of_serves h.1 (h.2 a); exact ⟨v, t, e, served_keeps (busRead_keeps e) h⟩

theorem busWrite_served {s : State} (h : Served s) (a v) : ∃ t, busWrite a v s = .next t ∧ Served t := by
  obtain ⟨t, e⟩ := busWrite_of_serves v h.1 (h.2 a); exact ⟨t, e, served_keeps (busWrite_keeps e) h⟩

theorem resolve_served {s : State} (h : Served s) (o) : ∃ c t, resolve o s = .next (c, t) ∧ Served t := by
  have : ∃ c t, resolve o s = .next (c, t) := by
    cases o <;> first | exact ⟨_, _, rfl⟩ | skip
    all_goals
      simp only [resolve]
      obtain ⟨v, t, e, h1⟩ := busRead_served h _
      rw [e]
      simp only [andThen_next]
      obtain ⟨v2, t2, e2, h2⟩ := busRead_served h1 _
      rw [e2]
      exact ⟨_, _, rfl⟩
  obtain ⟨c, t, e⟩ := this; exact ⟨c, t, e, served_keeps (resolve_keeps e) h⟩

theorem fetchOperand_served {s : State} (h : Served s) (o) : ∃ c t, fetchOperand o s = .next (c, t) ∧ Served t := by
  have : ∃ c t, fetchOperand o s = .next (c, t) := by
    obtain ⟨v, t, e, h1⟩ := busRead_served h s.addressAbs
    cases o <;> simp only [fetchOperand, e, andThen_next] <;> exact ⟨_, _, rfl⟩
  obtain ⟨c, t, e⟩ := this; exact ⟨c, t, e, served_keeps (fetchOperand_keeps e) h⟩

theorem push8_served {s : State} (h : Served s) (v) : ∃ t, push8 v s = .next t ∧ Served t := by
  obtain ⟨t, e, h1⟩ := busWrite_served h (stackAddr s.sp) v
  exact ⟨_, push8_eq_next.2 ⟨t, e, rfl⟩, h1⟩

theorem push16_served {s : State} (h : Served s) (v) : ∃ t, push16 v s = .next t ∧ Served t := by
  obtain ⟨t, e, h1⟩ := push8_served h (hi v)
  obtain ⟨t2, e2, h2⟩ := push8_served h1 (lo v)
  exact ⟨_, push16_eq_next.2 ⟨t, e, e2⟩, h2⟩

theorem pull8_served {s : State} (h : Served s) : ∃ v t, pull8 s = .next (v, t) ∧ Served t := busRead_served (s := s.setSp (s.sp + 1)) h _

theorem pull16_served {s : State} (h : Served s) : ∃ v t, pull16 s = .next (v, t) ∧ Served t := by
  obtain ⟨v, t, e, h1⟩ := pull8_served h
  obtain ⟨v2, t2, e2, h2⟩ := pull8_served h1
  exact ⟨_, _, pull16_eq_next.2 ⟨_, _, _, e, e2, rfl⟩, h2⟩

theorem read16_served {s : State} (h : Served s) (a) : ∃ v t, read16 a s = .next (v, t) ∧ Served t := by
  obtain ⟨v, t, e, h1⟩ := busRead_served h a
  obtain ⟨v2, t2, e2, h2⟩ := busRead_served h1 (a+1)
  exact ⟨_, _, read16_eq_next.2 ⟨_, _, _, e, e2, rfl⟩, h2⟩

theorem takeTrap_served {s : State} (h : Served s) (k a) : ∃ t, takeTrap k a s = .next t := by
  unfold takeTrap
  have h0 : Served (if k = .brk then s.setFlag .i true else s) := by split <;> exact h
  obtain ⟨t1, e1, h1⟩ := push16_served h0 a
  simp only [e1, andThen_next]
  obtain ⟨t2, e2, h2⟩ := push8_served (s := (t1.setFlag .b (k = .brk)).setFlag .u true) h1 ((t1.setFlag .b (k = .brk)).setFlag .u true).p
  simp only [e2, andThen_next]
  obtain ⟨w, t3, e3, h3⟩ := read16_served (s := (t2.setFlag .b false).setFlag .i true) h2 k.vector
  simp only [e3, andThen_next]
  exact ⟨_, rfl⟩

end Sys2Proof.Machine
end

