-- ==== Sys2Proof/Laws/Stack.lean ====
section
/-! SUPPORT. Cells of storage: what a write leaves, what a read of a storing address gives, and that the stack's locations and
the vectors are different cells. -/

namespace Sys2Proof.Machine

open Sys2Proof.Safety

/-! ## Whole cells, and reading what is stored -/

/-- A write leaves every cell of storage but its own, reachable by the processor or not, as it was. -/
theorem cellByte_busWrite_ne {a : Word} {v : Byte} {t u : State} (hw : memoryWf t = true) (hu : busWrite a v t = .next u) (c : Nat × Region × Nat) (hc : cellOf a t ≠ some c) : cellByte c u = cellByte c t := by
  obtain ⟨hf, n, d, hs, ⟨r, i, ht, rfl⟩ | ⟨ht, rfl⟩⟩ := busWriteAs_cases hu
  · have hget := (select_getElem hs).1
    have hd : deviceWf d = true := List.all_eq_true.1 hw d (List.mem_of_getElem? hget)
    have hcell : cellOf a t = some (n, r, i) := by unfold cellOf; simp [hs, ht]
    rw [hcell] at hc
    obtain ⟨n', r', j⟩ := c
    simp only [cellByte, State.setDevices_devices, List.getElem?_set]
    by_cases hn : n = n'
    · subst hn
      have hl : n < t.devices.length := by
        rcases Nat.lt_or_ge n t.devices.length with h | h
        · exact h
        · rw [List.getElem?_eq_none h] at hget; cases hget
      simp only [if_true, hl, Option.map_some, hget]
      unfold Device.store
      split
      · rw [load_put hd ht]
        have : ¬(r' = r ∧ j = i) := by rintro ⟨rfl, rfl⟩; exact hc rfl
        simp [this]
      · rfl
    · simp [hn]
  · rfl

/-- What stores is served. -/
theorem servesAt_of_storable {a : Word} {s : State} (h : storableAt a s = true) : servesAt a s = true := by
  unfold storableAt cellOf at h
  unfold servesAt
  split at h <;> simp_all
  split at h <;> simp_all

/-- Reading an address that stores gives the byte stored there and changes nothing. -/
theorem busRead_of_storable {a : Word} {s : State} (hf : s.fatal = none) (h : storableAt a s = true) : ∃ v, byteAt a s = some v ∧ busRead a s = .next (v, s) := by
  unfold storableAt cellOf at h
  unfold byteAt busRead busReadAs route
  rw [hf]
  cases hs : select s.devices a .processor with
  | none => simp [hs] at h
  | some p =>
    obtain ⟨n, d⟩ := p
    simp only [hs] at h ⊢
    cases ht : d.translate a .processor with
    | fault f => simp [ht] at h
    | refused f => simp [ht] at h
    | next t => cases t with
      | cell r i => simp
      | opaqueUnit => simp [ht] at h

/-- A read answers the same byte in a state of the same configuration, mark and draw count whose byte there is the same. -/
theorem busRead_of_byteAt_eq {s t s1 : State} {a : Word} {v : Byte} (h : busRead a s = .next (v, s1)) (hc : configOf t = configOf s) (hf : t.fatal = s.fatal) (hd : t.draws = s.draws)
   (hb : byteAt a t = byteAt a s) : busRead a t = .next (v, t.setDraws s1.draws) := by
  have hc' := select_congr hc a .processor
  obtain ⟨f0, n, d, hs, hh⟩ := busReadAs_cases h
  rw [hs] at hc'
  unfold byteAt at hb
  unfold busRead busReadAs route
  rw [hf, f0]
  cases ht : select t.devices a .processor with
  | none => simp [ht] at hc'
  | some p =>
    obtain ⟨n', d'⟩ := p
    simp only [ht, Option.map_some, Option.some.injEq, Prod.mk.injEq] at hc'
    have tr : d'.translate a .processor = d.translate a .processor := by rw [← translate_shape, hc'.2, translate_shape]
    simp only [ht, hs, tr] at hb ⊢
    rcases hh with ⟨r, i, h1, h2, h3⟩ | ⟨h1, h2, h3⟩
    · simp only [h1, Option.some.injEq] at hb ⊢; simp only [andThen_next, hb, ← h2, h3, ← hd]; rfl
    · simp only [h1, andThen_next, h2, h3, hd]; rfl

/-! ## The stack's cells -/

theorem toNat_stackAddr (sp : Byte) : (stackAddr sp).toNat = 256 + sp.toNat := by
  rw [stackAddr, toNat_mk16]
  rfl

theorem toNat_and_7FF (w : Word) : (w &&& 0x07FF).toNat = w.toNat % 2048 := by
  rw [BitVec.toNat_and]
  exact Nat.and_two_pow_sub_one_eq_mod _ 11

/-- Two stack locations that store are two cells, in every configuration. -/
theorem stackAddr_cell_inj {s : State} {x y : Byte} (h : storableAt (stackAddr x) s = true) (he : cellOf (stackAddr x) s = cellOf (stackAddr y) s) : x = y := by
  unfold storableAt at h
  unfold cellOf at he h
  have bx := toNat_stackAddr x
  have by_ := toNat_stackAddr y
  have lx := x.isLt
  have ly := y.isLt
  cases hs : select s.devices (stackAddr x) .processor with
  | none => simp [hs] at h
  | some p =>
    obtain ⟨n, d⟩ := p
    simp only [hs] at h he
    have gx := select_getElem hs
    cases ht : d.translate (stackAddr x) .processor with
    | fault f => simp [ht] at h
    | refused f => simp [ht] at h
    | next t => cases t with
      | opaqueUnit => simp [ht] at h
      | cell r i =>
        simp only [ht] at he
        cases hs' : select s.devices (stackAddr y) .processor with
        | none => simp [hs'] at he
        | some p' =>
          obtain ⟨n', d'⟩ := p'
          simp only [hs'] at he
          have gy := select_getElem hs'
          cases ht' : d'.translate (stackAddr y) .processor with
          | fault f => simp [ht'] at he
          | refused f => simp [ht'] at he
          | next t' => cases t' with
            | opaqueUnit => simp [ht'] at he
            | cell r' i' =>
              simp only [ht', Option.some.injEq, Prod.mk.injEq] at he
              obtain ⟨rfl, rfl, rfl⟩ := he
              have hd : d' = d := by have := gx.1.symm.trans gy.1; simpa using this.symm
              subst hd
              cases d' with
              | ram k m => cases k with
                | flat => simp [Device.translate] at ht ht'; have := ht.2.trans ht'.2.symm; apply BitVec.eq_of_toNat_eq; omega
                | mirrored w =>
                  simp only [Device.translate, Host.Outcome.next.injEq, Target.cell.injEq] at ht ht'
                  have := ht.2.trans ht'.2.symm
                  rw [toNat_and_7FF, toNat_and_7FF] at this
                  apply BitVec.eq_of_toNat_eq; omega
              | cpu => simp [Device.storable] at h
              | pictureUnit a b => simp [Device.storable] at h
              | cartridge c => have := gx.2; simp [Device.withinRange] at this; omega

/-- A vector's address never names the cell of a stack location that stores. -/
theorem stackAddr_cell_ne_vector {s : State} {a : Word} {y : Byte} (ha : 0xFFFA ≤ a.toNat) (hst : storableAt (stackAddr y) s = true) : cellOf a s ≠ cellOf (stackAddr y) s := by
  intro he
  unfold storableAt at hst
  unfold cellOf at he hst
  have by_ := toNat_stackAddr y
  have ly := y.isLt
  cases hs : select s.devices (stackAddr y) .processor with
  | none => simp [hs] at hst
  | some p =>
    obtain ⟨n, d⟩ := p
    simp only [hs] at hst he
    have gx := select_getElem hs
    cases ht : d.translate (stackAddr y) .processor with
    | fault f => simp [ht] at hst
    | refused f => simp [ht] at hst
    | next t => cases t with
      | opaqueUnit => simp [ht] at hst
      | cell r i =>
        simp only [ht] at he
        cases hs' : select s.devices a .processor with
        | none => simp [hs'] at he
        | some p' =>
          obtain ⟨n', d'⟩ := p'
          simp only [hs'] at he
          have gy := select_getElem hs'
          cases ht' : d'.translate a .processor with
          | fault f => simp [ht'] at he
          | refused f => simp [ht'] at he
          | next t' => cases t' with
            | opaqueUnit => simp [ht'] at he
            | cell r' i' =>
              simp only [ht', Option.some.injEq, Prod.mk.injEq] at he
              obtain ⟨rfl, rfl, rfl⟩ := he
              have hd : d' = d := by have := gx.1.symm.trans gy.1; simpa using this.symm
              subst hd
              have g1 := gx.2; have g2 := gy.2
              cases d' with
              | ram k m => cases k with
                | flat => simp [Device.translate] at ht ht'; have := ht.2.trans ht'.2.symm; omega
                | mirrored w => simp only [Device.withinRange, Config.ramWindowSize, Bool.and_eq_true, decide_eq_true_eq] at g1 g2; obtain ⟨ga, gb⟩ := g1; obtain ⟨gc, gd⟩ := g2; have gb := of_decide_eq_true gb; have gd := of_decide_eq_true gd; clear ht ht' gx gy hs hs'; omega
              | cpu => simp [Device.storable] at hst
              | pictureUnit a b => simp [Device.storable] at hst
              | cartridge c => simp [Device.withinRange] at g1; omega

end Sys2Proof.Machine
end

