-- ==== Sys2Proof/Tests/Slice0.lean ====
section
/-! SUPPORT. The model's own tests: ill-formed terms refused, words of the spec's encoding decoded, the spec's vectors
(spec/95_test_vectors.md) run one step, and for every statement that has hypotheses a state and operands that meet them. -/

namespace Sys2Proof.Tests

open Sys2Proof Sys2Proof.Machine Sys2Proof.Safety Sys2Proof.Claims

/-! ## Ill-formed instructions are refused (R115, R121) -/

theorem test_wf_refuses_alu_modes :
    [Instr.adc .imp, .and (.ind 0x1234), .cmp (.rel 0x00), .eor (.zpy 0x10), .lda .imp, .ora (.zpy 0x10), .sbc (.ind 0x0200)].all
      (fun i => !i.wellFormed) = true := by decide

theorem test_wf_refuses_store_modes :
    [Instr.sta (.imm 0x05), .stx (.imm 0x05), .sty (.imm 0x05), .sta (.zpy 0x10), .stx (.zpx 0x10), .sty (.abx 0x1000)].all
      (fun i => !i.wellFormed) = true := by decide

theorem test_wf_refuses_index_load_modes :
    [Instr.ldx (.zpx 0x10), .ldx (.abx 0x1000), .ldy (.zpy 0x10), .ldy (.aby 0x1000), .cpx (.zpx 0x10), .cpy (.izy 0x10)].all
      (fun i => !i.wellFormed) = true := by decide

theorem test_wf_refuses_modify_modes :
    [Instr.asl (.imm 0x01), .lsr (.zpy 0x10), .rol (.aby 0x1000), .ror (.izx 0x10), .inc .imp, .dec (.imm 0x01)].all
      (fun i => !i.wellFormed) = true := by decide

theorem test_wf_refuses_bit_and_jump_modes :
    [Instr.bit (.imm 0x01), .jmp .imp, .jmp (.abx 0x1000)].all (fun i => !i.wellFormed) = true := by decide

/-- BRK's byte, NOP's byte and JSR's byte are assigned, so no default no-op carries them. -/
theorem test_wf_refuses_assigned_dnop :
    [Instr.dnop 0x00, .dnop 0xEA, .dnop 0x20].all (fun i => !i.wellFormed) = true := by decide

/-! ## Words of the spec's encoding (R111, R113, R121) -/

/-- Whether bytes decode to an instruction with nothing left over. -/
def decodesTo (bytes : List Byte) (i : Instr) : Bool :=
  match decode bytes with
  | .ok (j, []) => decide (j = i)
  | _ => false

theorem test_decode_loads_and_stores :
    (decodesTo [0xBD, 0xF0, 0x12] (.lda (.abx 0x12F0)) && decodesTo [0xB6, 0xFF] (.ldx (.zpy 0xFF)) &&
      decodesTo [0xA0, 0x80] (.ldy (.imm 0x80)) && decodesTo [0x91, 0x40] (.sta (.izy 0x40)) &&
      decodesTo [0x96, 0xF0] (.stx (.zpy 0xF0)) && decodesTo [0x94, 0x01] (.sty (.zpx 0x01)) &&
      decodesTo [0xAA] .tax && decodesTo [0x9A] .txs) = true := by decide

theorem test_decode_arithmetic :
    (decodesTo [0x79, 0x34, 0x12] (.adc (.aby 0x1234)) && decodesTo [0xE1, 0x20] (.sbc (.izx 0x20)) &&
      decodesTo [0x2C, 0x00, 0x02] (.bit (.abs 0x0200)) && decodesTo [0xFE, 0xFF, 0x20] (.inc (.abx 0x20FF)) &&
      decodesTo [0xC6, 0x7F] (.dec (.zp0 0x7F)) && decodesTo [0x88] .dey) = true := by decide

theorem test_decode_shifts :
    (decodesTo [0x0A] (.asl .imp) && decodesTo [0x4E, 0xCD, 0xAB] (.lsr (.abs 0xABCD)) &&
      decodesTo [0x36, 0x80] (.rol (.zpx 0x80)) && decodesTo [0x66, 0x01] (.ror (.zp0 0x01))) = true := by decide

theorem test_decode_flags_and_noops :
    (decodesTo [0x18] .clc && decodesTo [0x78] .sei && decodesTo [0xB8] .clv && decodesTo [0xEA] .nop &&
      decodesTo [0x02] (.dnop 0x02) && decodesTo [0xFF] (.dnop 0xFF)) = true := by decide

theorem test_decode_control :
    (decodesTo [0xD0, 0xF9] (.bne 0xF9) && decodesTo [0x70, 0x04] (.bvs 0x04) && decodesTo [0x6C, 0xFF, 0x02] (.jmp (.ind 0x02FF)) &&
      decodesTo [0x20, 0x34, 0x12] (.jsr 0x1234) && decodesTo [0x60] .rts && decodesTo [0x00] .brk && decodesTo [0x40] .rti &&
      decodesTo [0x08] .php) = true := by decide

/-- Bytes that end early are rejected, and so is a table that pairs a mnemonic with a mode its rule does not have. -/
theorem test_decode_rejects :
    (decodesTo [] .nop || decodesTo [0xA9] (.lda (.imm 0x00)) || decodesTo [0x4C, 0x00] (.jmp (.abs 0x0000)) ||
      (match decodeWith [[⟨.bcc, .abs, 2⟩]] [0x00, 0x01, 0x02] with | .error (.unlawfulRecord 0x00) => false | _ => true)) =
      false := by decide

theorem test_encode_is_low_byte_first : encode (.jmp (.abs 0x1234)) = [0x4C, 0x34, 0x12] := by decide

theorem test_table_word_bytes_are_low_first : decodeTableWord 24 0x12F0BD = some (.lda (.abx 0x12F0)) := by decide

/-! ## One step of each instruction, from the spec's vectors -/

/-- The memory of a list of bytes. -/
def memOf (l : List (Nat × Byte)) : Memory := l.foldl (fun m e => m.write e.1 e.2) []

/-- Configuration FLAT with these registers and bytes, at a tick that runs an instruction. -/
def start (a x y sp p : Byte) (pc : Word) (mem : List (Nat × Byte)) : State :=
  { State.reset with a, x, y, sp, p, pc, cycles := 0, devices := flatDevices (memOf mem) }

/-- Whether one step ends with these registers, this many cycles assigned, and exactly these bytes in memory. -/
def ends (a x y sp p : Byte) (pc : Word) (cycles : Nat) (mem : List (Nat × Byte)) (s : State) : Bool :=
  match step s with
  | .next t =>
    t.a == a && t.x == x && t.y == y && t.sp == sp && t.p == p && t.pc == pc && t.cycles + 1 == cycles &&
      decide (t.devices = flatDevices (memOf mem))
  | _ => false

/-- Vector A8 of spec/95 (R167, R144). -/
theorem test_lda_page_cross_takes_a_fifth_cycle :
    ends 0x02 0x10 0x00 0xFD 0x20 0x8003 5 [(0x1300, 0x02), (0x8000, 0xBD), (0x8001, 0xF0), (0x8002, 0x12)]
      (start 0x00 0x10 0x00 0xFD 0x20 0x8000 [(0x1300, 0x02), (0x8000, 0xBD), (0x8001, 0xF0), (0x8002, 0x12)]) = true := by decide

/-- Vector L2 of spec/95 (R180). -/
theorem test_lda_sets_n :
    ends 0x80 0x00 0x00 0xFD 0xA0 0x8002 2 [(0x8000, 0xA9), (0x8001, 0x80)]
      (start 0x00 0x00 0x00 0xFD 0x20 0x8000 [(0x8000, 0xA9), (0x8001, 0x80)]) = true := by decide

/-- Vector A5 of spec/95 (R165). -/
theorem test_ldx_zpy_stays_in_page_zero :
    ends 0x00 0x33 0x01 0xFD 0x20 0x8002 4 [(0x0000, 0x33), (0x0100, 0x44), (0x8000, 0xB6), (0x8001, 0xFF)]
      (start 0x00 0x00 0x01 0xFD 0x20 0x8000 [(0x0000, 0x33), (0x0100, 0x44), (0x8000, 0xB6), (0x8001, 0xFF)]) = true := by decide

/-- Vector L5 of spec/95 (R181). -/
theorem test_ldx_aby_cross :
    ends 0x00 0x12 0x01 0xFD 0x20 0x8003 5 [(0x1100, 0x12), (0x8000, 0xBE), (0x8001, 0xFF), (0x8002, 0x10)]
      (start 0x00 0x00 0x01 0xFD 0x20 0x8000 [(0x1100, 0x12), (0x8000, 0xBE), (0x8001, 0xFF), (0x8002, 0x10)]) = true := by decide

/-- Vector L6 of spec/95 (R182). -/
theorem test_ldy_abx_cross :
    ends 0x00 0x80 0x13 0xFD 0x20 0x8003 5 [(0x1100, 0x13), (0x8000, 0xBC), (0x8001, 0x80), (0x8002, 0x10)]
      (start 0x00 0x80 0x00 0xFD 0x20 0x8000 [(0x1100, 0x13), (0x8000, 0xBC), (0x8001, 0x80), (0x8002, 0x10)]) = true := by decide

/-- Vector L4 of spec/95 (R182). -/
theorem test_ldy_sets_n :
    ends 0x00 0x00 0xFF 0xFD 0xA0 0x8002 2 [(0x8000, 0xA0), (0x8001, 0xFF)]
      (start 0x00 0x00 0x00 0xFD 0x20 0x8000 [(0x8000, 0xA0), (0x8001, 0xFF)]) = true := by decide

/-- Vector L8 of spec/95 (R183). -/
theorem test_sta_abx_earns_no_bonus :
    ends 0xAB 0x80 0x00 0xFD 0x20 0x8003 5 [(0x8000, 0x9D), (0x8001, 0x80), (0x8002, 0x10), (0x1100, 0xAB)]
      (start 0xAB 0x80 0x00 0xFD 0x20 0x8000 [(0x8000, 0x9D), (0x8001, 0x80), (0x8002, 0x10)]) = true := by decide

/-- Vector A20 of spec/95 (R171, R183). -/
theorem test_sta_izy_cross :
    ends 0x77 0x00 0x20 0xFD 0x20 0x8002 6 [(0x0040, 0xF0), (0x0041, 0x12), (0x8000, 0x91), (0x8001, 0x40), (0x1310, 0x77)]
      (start 0x77 0x00 0x20 0xFD 0x20 0x8000 [(0x0040, 0xF0), (0x0041, 0x12), (0x8000, 0x91), (0x8001, 0x40)]) = true := by decide

/-- Vector L9 of spec/95 (R184). -/
theorem test_stx_zpy_wraps :
    ends 0x00 0x5A 0x20 0xFD 0x20 0x8002 4 [(0x8000, 0x96), (0x8001, 0xF0), (0x0010, 0x5A)]
      (start 0x00 0x5A 0x20 0xFD 0x20 0x8000 [(0x8000, 0x96), (0x8001, 0xF0)]) = true := by decide

/-- Vector L10 of spec/95 (R185). -/
theorem test_sty_abs :
    ends 0x00 0x00 0x33 0xFD 0x20 0x8003 4 [(0x8000, 0x8C), (0x8001, 0x00), (0x8002, 0x02), (0x0200, 0x33)]
      (start 0x00 0x00 0x33 0xFD 0x20 0x8000 [(0x8000, 0x8C), (0x8001, 0x00), (0x8002, 0x02)]) = true := by decide

/-- Vector L11 of spec/95 (R186). -/
theorem test_tax_sets_n :
    ends 0x80 0x80 0x00 0xFD 0xA0 0x8001 2 [(0x8000, 0xAA)]
      (start 0x80 0x00 0x00 0xFD 0x20 0x8000 [(0x8000, 0xAA)]) = true := by decide

/-- Vector L12 of spec/95 (R187). -/
theorem test_tay_sets_z :
    ends 0x00 0x00 0x00 0xFD 0x22 0x8001 2 [(0x8000, 0xA8)]
      (start 0x00 0x00 0x09 0xFD 0x20 0x8000 [(0x8000, 0xA8)]) = true := by decide

/-- Vector L13 of spec/95 (R188). -/
theorem test_txa_sets_z :
    ends 0x00 0x00 0x00 0xFD 0x22 0x8001 2 [(0x8000, 0x8A)]
      (start 0x44 0x00 0x00 0xFD 0x20 0x8000 [(0x8000, 0x8A)]) = true := by decide

/-- Vector L14 of spec/95 (R189). -/
theorem test_tya_sets_n :
    ends 0xF0 0x00 0xF0 0xFD 0xA0 0x8001 2 [(0x8000, 0x98)]
      (start 0x00 0x00 0xF0 0xFD 0x20 0x8000 [(0x8000, 0x98)]) = true := by decide

/-- Vector L15 of spec/95 (R190). -/
theorem test_tsx_sets_n :
    ends 0x00 0xFD 0x00 0xFD 0xA0 0x8001 2 [(0x8000, 0xBA)]
      (start 0x00 0x00 0x00 0xFD 0x20 0x8000 [(0x8000, 0xBA)]) = true := by decide

/-- Vector L16 of spec/95 (R191). -/
theorem test_txs_writes_no_flag :
    ends 0x00 0x00 0x00 0x00 0x20 0x8001 2 [(0x8000, 0x9A)]
      (start 0x00 0x00 0x00 0xFD 0x20 0x8000 [(0x8000, 0x9A)]) = true := by decide

/-- Vector M3 of spec/95 (R200). -/
theorem test_adc_carry_overflow_zero :
    ends 0x00 0x00 0x00 0xFD 0x63 0x8002 2 [(0x8000, 0x69), (0x8001, 0x80)]
      (start 0x80 0x00 0x00 0xFD 0x20 0x8000 [(0x8000, 0x69), (0x8001, 0x80)]) = true := by decide

/-- Vector M6 of spec/95 (R200). -/
theorem test_adc_ignores_decimal :
    ends 0x9A 0x00 0x00 0xFD 0xA8 0x8002 2 [(0x8000, 0x69), (0x8001, 0x99)]
      (start 0x01 0x00 0x00 0xFD 0x28 0x8000 [(0x8000, 0x69), (0x8001, 0x99)]) = true := by decide

/-- Vector M9 of spec/95 (R201). -/
theorem test_sbc_overflow :
    ends 0x7F 0x00 0x00 0xFD 0x61 0x8002 2 [(0x8000, 0xE9), (0x8001, 0x01)]
      (start 0x80 0x00 0x00 0xFD 0x21 0x8000 [(0x8000, 0xE9), (0x8001, 0x01)]) = true := by decide

/-- Vector M11 of spec/95 (R201). -/
theorem test_sbc_borrow_in :
    ends 0xFF 0x00 0x00 0xFD 0xA0 0x8002 2 [(0x8000, 0xE9), (0x8001, 0x50)]
      (start 0x50 0x00 0x00 0xFD 0x20 0x8000 [(0x8000, 0xE9), (0x8001, 0x50)]) = true := by decide

/-- Vector M15 of spec/95 (R202). -/
theorem test_and_keeps_c_and_v :
    ends 0x00 0x00 0x00 0xFD 0x63 0x8002 2 [(0x8000, 0x29), (0x8001, 0x0F)]
      (start 0xF0 0x00 0x00 0xFD 0x61 0x8000 [(0x8000, 0x29), (0x8001, 0x0F)]) = true := by decide

/-- Vector M16 of spec/95 (R203). -/
theorem test_ora_sets_n :
    ends 0x81 0x00 0x00 0xFD 0xA0 0x8002 2 [(0x8000, 0x09), (0x8001, 0x80)]
      (start 0x01 0x00 0x00 0xFD 0x20 0x8000 [(0x8000, 0x09), (0x8001, 0x80)]) = true := by decide

/-- Vector M18 of spec/95 (R204). -/
theorem test_eor_abx_cross :
    ends 0xFF 0x01 0x00 0xFD 0xA0 0x8003 5 [(0x2100, 0xF0), (0x8000, 0x5D), (0x8001, 0xFF), (0x8002, 0x20)]
      (start 0x0F 0x01 0x00 0xFD 0x20 0x8000 [(0x2100, 0xF0), (0x8000, 0x5D), (0x8001, 0xFF), (0x8002, 0x20)]) = true := by decide

/-- Vector M22 of spec/95 (R205). -/
theorem test_cmp_keeps_v :
    ends 0x7F 0x00 0x00 0xFD 0xE0 0x8002 2 [(0x8000, 0xC9), (0x8001, 0x80)]
      (start 0x7F 0x00 0x00 0xFD 0x60 0x8000 [(0x8000, 0xC9), (0x8001, 0x80)]) = true := by decide

/-- Vector M21 of spec/95 (R205). -/
theorem test_cmp_n_is_the_difference :
    ends 0x80 0x00 0x00 0xFD 0xA1 0x8002 2 [(0x8000, 0xC9), (0x8001, 0x00)]
      (start 0x80 0x00 0x00 0xFD 0x20 0x8000 [(0x8000, 0xC9), (0x8001, 0x00)]) = true := by decide

/-- Vector M25 of spec/95 (R206). -/
theorem test_cpx_less :
    ends 0x00 0x05 0x00 0xFD 0xA0 0x8002 3 [(0x0010, 0x06), (0x8000, 0xE4), (0x8001, 0x10)]
      (start 0x00 0x05 0x00 0xFD 0x20 0x8000 [(0x0010, 0x06), (0x8000, 0xE4), (0x8001, 0x10)]) = true := by decide

/-- Vector M27 of spec/95 (R207). -/
theorem test_cpy_greater :
    ends 0x00 0x00 0x90 0xFD 0xA1 0x8003 4 [(0x0200, 0x10), (0x8000, 0xCC), (0x8001, 0x00), (0x8002, 0x02)]
      (start 0x00 0x00 0x90 0xFD 0x20 0x8000 [(0x0200, 0x10), (0x8000, 0xCC), (0x8001, 0x00), (0x8002, 0x02)]) = true := by decide

/-- Vector M28 of spec/95 (R208). -/
theorem test_bit_copies_bits_7_and_6 :
    ends 0x01 0x00 0x00 0xFD 0xE2 0x8002 3 [(0x0010, 0xC0), (0x8000, 0x24), (0x8001, 0x10)]
      (start 0x01 0x00 0x00 0xFD 0x20 0x8000 [(0x0010, 0xC0), (0x8000, 0x24), (0x8001, 0x10)]) = true := by decide

/-- Vector M29 of spec/95 (R208). -/
theorem test_bit_clears :
    ends 0xFF 0x00 0x00 0xFD 0x20 0x8003 4 [(0x0200, 0x3F), (0x8000, 0x2C), (0x8001, 0x00), (0x8002, 0x02)]
      (start 0xFF 0x00 0x00 0xFD 0xE2 0x8000 [(0x0200, 0x3F), (0x8000, 0x2C), (0x8001, 0x00), (0x8002, 0x02)]) = true := by decide

/-- Vector M32 of spec/95 (R209). -/
theorem test_inc_abx_earns_no_bonus :
    ends 0x00 0x01 0x00 0xFD 0xA0 0x8003 7 [(0x2100, 0x80), (0x8000, 0xFE), (0x8001, 0xFF), (0x8002, 0x20)]
      (start 0x00 0x01 0x00 0xFD 0x20 0x8000 [(0x2100, 0x7F), (0x8000, 0xFE), (0x8001, 0xFF), (0x8002, 0x20)]) = true := by decide

/-- Vector M34 of spec/95 (R210). -/
theorem test_dec_zpx_wraps :
    ends 0x00 0x02 0x00 0xFD 0x22 0x8002 6 [(0x0001, 0x00), (0x8000, 0xD6), (0x8001, 0xFF)]
      (start 0x00 0x02 0x00 0xFD 0x20 0x8000 [(0x0001, 0x01), (0x8000, 0xD6), (0x8001, 0xFF)]) = true := by decide

/-- Vector M33 of spec/95 (R210). -/
theorem test_dec_wraps :
    ends 0x00 0x00 0x00 0xFD 0xA0 0x8003 6 [(0x0200, 0xFF), (0x8000, 0xCE), (0x8001, 0x00), (0x8002, 0x02)]
      (start 0x00 0x00 0x00 0xFD 0x20 0x8000 [(0x0200, 0x00), (0x8000, 0xCE), (0x8001, 0x00), (0x8002, 0x02)]) = true := by decide

/-- Vector M36 of spec/95 (R211). -/
theorem test_inx_keeps_v :
    ends 0x00 0x80 0x00 0xFD 0xE0 0x8001 2 [(0x8000, 0xE8)]
      (start 0x00 0x7F 0x00 0xFD 0x60 0x8000 [(0x8000, 0xE8)]) = true := by decide

/-- Vector M37 of spec/95 (R212). -/
theorem test_iny_wraps :
    ends 0x00 0x00 0x00 0xFD 0x22 0x8001 2 [(0x8000, 0xC8)]
      (start 0x00 0x00 0xFF 0xFD 0x20 0x8000 [(0x8000, 0xC8)]) = true := by decide

/-- Vector M38 of spec/95 (R213). -/
theorem test_dex_wraps :
    ends 0x00 0xFF 0x00 0xFD 0xA0 0x8001 2 [(0x8000, 0xCA)]
      (start 0x00 0x00 0x00 0xFD 0x20 0x8000 [(0x8000, 0xCA)]) = true := by decide

/-- Vector M40 of spec/95 (R214). -/
theorem test_dey_wraps :
    ends 0x00 0x00 0xFF 0xFD 0xA0 0x8001 2 [(0x8000, 0x88)]
      (start 0x00 0x00 0x00 0xFD 0x20 0x8000 [(0x8000, 0x88)]) = true := by decide

/-- Vector S2 of spec/95 (R230). -/
theorem test_asl_accumulator :
    ends 0x00 0x00 0x00 0xFD 0x23 0x8001 2 [(0x8000, 0x0A)]
      (start 0x80 0x00 0x00 0xFD 0x20 0x8000 [(0x8000, 0x0A)]) = true := by decide

/-- Vector S4 of spec/95 (R230). -/
theorem test_asl_memory :
    ends 0x00 0x01 0x00 0xFD 0xA1 0x8003 7 [(0x2100, 0x80), (0x8000, 0x1E), (0x8001, 0xFF), (0x8002, 0x20)]
      (start 0x00 0x01 0x00 0xFD 0x20 0x8000 [(0x2100, 0xC0), (0x8000, 0x1E), (0x8001, 0xFF), (0x8002, 0x20)]) = true := by decide

/-- Vector S7 of spec/95 (R231). -/
theorem test_lsr_accumulator :
    ends 0x7F 0x00 0x00 0xFD 0x21 0x8001 2 [(0x8000, 0x4A)]
      (start 0xFF 0x00 0x00 0xFD 0x20 0x8000 [(0x8000, 0x4A)]) = true := by decide

/-- Vector S6 of spec/95 (R231). -/
theorem test_lsr_clears_n :
    ends 0x00 0x00 0x00 0xFD 0x20 0x8002 5 [(0x0010, 0x01), (0x8000, 0x46), (0x8001, 0x10)]
      (start 0x00 0x00 0x00 0xFD 0xA0 0x8000 [(0x0010, 0x02), (0x8000, 0x46), (0x8001, 0x10)]) = true := by decide

/-- Vector S8 of spec/95 (R232). -/
theorem test_rol_takes_c_in :
    ends 0x81 0x00 0x00 0xFD 0xA0 0x8001 2 [(0x8000, 0x2A)]
      (start 0x40 0x00 0x00 0xFD 0x21 0x8000 [(0x8000, 0x2A)]) = true := by decide

/-- Vector S10 of spec/95 (R232). -/
theorem test_rol_memory :
    ends 0x00 0x00 0x00 0xFD 0x20 0x8002 5 [(0x0010, 0x01), (0x8000, 0x26), (0x8001, 0x10)]
      (start 0x00 0x00 0x00 0xFD 0x21 0x8000 [(0x0010, 0x00), (0x8000, 0x26), (0x8001, 0x10)]) = true := by decide

/-- Vector S11 of spec/95 (R233). -/
theorem test_ror_memory :
    ends 0x00 0x00 0x00 0xFD 0xA1 0x8003 6 [(0x0200, 0x81), (0x8000, 0x6E), (0x8001, 0x00), (0x8002, 0x02)]
      (start 0x00 0x00 0x00 0xFD 0x21 0x8000 [(0x0200, 0x03), (0x8000, 0x6E), (0x8001, 0x00), (0x8002, 0x02)]) = true := by decide

/-- Vector S13 of spec/95 (R233). -/
theorem test_ror_takes_c_in :
    ends 0x80 0x00 0x00 0xFD 0xA0 0x8001 2 [(0x8000, 0x6A)]
      (start 0x00 0x00 0x00 0xFD 0x21 0x8000 [(0x8000, 0x6A)]) = true := by decide

/-- Vector F1 of spec/95 (R240). -/
theorem test_clc_keeps_the_rest :
    ends 0x00 0x00 0x00 0xFD 0xFE 0x8001 2 [(0x8000, 0x18)]
      (start 0x00 0x00 0x00 0xFD 0xFF 0x8000 [(0x8000, 0x18)]) = true := by decide

/-- Vector F2 of spec/95 (R241). -/
theorem test_sec :
    ends 0x00 0x00 0x00 0xFD 0x21 0x8001 2 [(0x8000, 0x38)]
      (start 0x00 0x00 0x00 0xFD 0x20 0x8000 [(0x8000, 0x38)]) = true := by decide

/-- Vector F3 of spec/95 (R242). -/
theorem test_cli :
    ends 0x00 0x00 0x00 0xFD 0x20 0x8001 2 [(0x8000, 0x58)]
      (start 0x00 0x00 0x00 0xFD 0x24 0x8000 [(0x8000, 0x58)]) = true := by decide

/-- Vector F4 of spec/95 (R243). -/
theorem test_sei :
    ends 0x00 0x00 0x00 0xFD 0x24 0x8001 2 [(0x8000, 0x78)]
      (start 0x00 0x00 0x00 0xFD 0x20 0x8000 [(0x8000, 0x78)]) = true := by decide

/-- Vector F5 of spec/95 (R244). -/
theorem test_cld :
    ends 0x00 0x00 0x00 0xFD 0x20 0x8001 2 [(0x8000, 0xD8)]
      (start 0x00 0x00 0x00 0xFD 0x28 0x8000 [(0x8000, 0xD8)]) = true := by decide

/-- Vector F6 of spec/95 (R245). -/
theorem test_sed :
    ends 0x00 0x00 0x00 0xFD 0x28 0x8001 2 [(0x8000, 0xF8)]
      (start 0x00 0x00 0x00 0xFD 0x20 0x8000 [(0x8000, 0xF8)]) = true := by decide

/-- Vector F7 of spec/95 (R246). -/
theorem test_clv :
    ends 0x00 0x00 0x00 0xFD 0x20 0x8001 2 [(0x8000, 0xB8)]
      (start 0x00 0x00 0x00 0xFD 0x60 0x8000 [(0x8000, 0xB8)]) = true := by decide

/-- Vector F8 of spec/95 (R247). -/
theorem test_nop :
    ends 0x12 0x00 0x00 0xFD 0xA5 0x8001 2 [(0x8000, 0xEA)]
      (start 0x12 0x00 0x00 0xFD 0xA5 0x8000 [(0x8000, 0xEA)]) = true := by decide

/-- Vector F9 of spec/95 (R248). -/
theorem test_dnop_takes_one_cycle :
    ends 0x12 0x00 0x00 0xFD 0xA5 0x8001 1 [(0x8000, 0x02)]
      (start 0x12 0x00 0x00 0xFD 0xA5 0x8000 [(0x8000, 0x02)]) = true := by decide

/-- Vector F11 of spec/95 (R248). -/
theorem test_dnop_is_one_byte :
    ends 0x00 0x00 0x00 0xFD 0x20 0x8001 1 [(0x8000, 0x80), (0x8001, 0x99)]
      (start 0x00 0x00 0x00 0xFD 0x20 0x8000 [(0x8000, 0x80), (0x8001, 0x99)]) = true := by decide

/-- Vector B1 of spec/95 (R261, R260). -/
theorem test_bcc_taken :
    ends 0x00 0x00 0x00 0xFD 0x20 0x8007 3 [(0x8000, 0x90), (0x8001, 0x05)]
      (start 0x00 0x00 0x00 0xFD 0x20 0x8000 [(0x8000, 0x90), (0x8001, 0x05)]) = true := by decide

/-- Vector B2 of spec/95 (R261). -/
theorem test_bcc_not_taken :
    ends 0x00 0x00 0x00 0xFD 0x21 0x8002 2 [(0x8000, 0x90), (0x8001, 0x05)]
      (start 0x00 0x00 0x00 0xFD 0x21 0x8000 [(0x8000, 0x90), (0x8001, 0x05)]) = true := by decide

/-- Vector B3 of spec/95 (R262). -/
theorem test_bcs_to_itself :
    ends 0x00 0x00 0x00 0xFD 0x21 0x8000 3 [(0x8000, 0xB0), (0x8001, 0xFE)]
      (start 0x00 0x00 0x00 0xFD 0x21 0x8000 [(0x8000, 0xB0), (0x8001, 0xFE)]) = true := by decide

/-- Vector B4 of spec/95 (R263). -/
theorem test_beq_page_cross :
    ends 0x00 0x00 0x00 0xFD 0x22 0x8102 4 [(0x80F0, 0xF0), (0x80F1, 0x10)]
      (start 0x00 0x00 0x00 0xFD 0x22 0x80F0 [(0x80F0, 0xF0), (0x80F1, 0x10)]) = true := by decide

/-- Vector B12 of spec/95 (R260). -/
theorem test_bne_wraps_the_space :
    ends 0x00 0x00 0x00 0xFD 0x20 0x0012 4 [(0xFFF0, 0xD0), (0xFFF1, 0x20)]
      (start 0x00 0x00 0x00 0xFD 0x20 0xFFF0 [(0xFFF0, 0xD0), (0xFFF1, 0x20)]) = true := by decide

/-- Vector B14 of spec/95 (R260). -/
theorem test_bne_cross_is_from_the_next_pc :
    ends 0x00 0x00 0x00 0xFD 0x20 0x80FD 4 [(0x80FE, 0xD0), (0x80FF, 0xFD)]
      (start 0x00 0x00 0x00 0xFD 0x20 0x80FE [(0x80FE, 0xD0), (0x80FF, 0xFD)]) = true := by decide

/-- Vector B7 of spec/95 (R265). -/
theorem test_bmi_forward_127 :
    ends 0x00 0x00 0x00 0xFD 0xA0 0x8081 3 [(0x8000, 0x30), (0x8001, 0x7F)]
      (start 0x00 0x00 0x00 0xFD 0xA0 0x8000 [(0x8000, 0x30), (0x8001, 0x7F)]) = true := by decide

/-- Vector B8 of spec/95 (R266). -/
theorem test_bpl_backward_128 :
    ends 0x00 0x00 0x00 0xFD 0x20 0x7F82 4 [(0x8000, 0x10), (0x8001, 0x80)]
      (start 0x00 0x00 0x00 0xFD 0x20 0x8000 [(0x8000, 0x10), (0x8001, 0x80)]) = true := by decide

/-- Vector B9 of spec/95 (R267). -/
theorem test_bvc_taken :
    ends 0x00 0x00 0x00 0xFD 0x20 0x8081 3 [(0x8000, 0x50), (0x8001, 0x7F)]
      (start 0x00 0x00 0x00 0xFD 0x20 0x8000 [(0x8000, 0x50), (0x8001, 0x7F)]) = true := by decide

/-- Vector B11 of spec/95 (R268). -/
theorem test_bvs_taken :
    ends 0x00 0x00 0x00 0xFD 0x60 0x8006 3 [(0x8000, 0x70), (0x8001, 0x04)]
      (start 0x00 0x00 0x00 0xFD 0x60 0x8000 [(0x8000, 0x70), (0x8001, 0x04)]) = true := by decide

/-- Vector B10 of spec/95 (R268). -/
theorem test_bvs_not_taken :
    ends 0x00 0x00 0x00 0xFD 0x20 0x8002 2 [(0x8000, 0x70), (0x8001, 0x04)]
      (start 0x00 0x00 0x00 0xFD 0x20 0x8000 [(0x8000, 0x70), (0x8001, 0x04)]) = true := by decide

/-- Vector A12 of spec/95 (R169, R269). -/
theorem test_jmp_indirect_stays_in_the_page :
    ends 0x00 0x00 0x00 0xFD 0x20 0x1234 5 [(0x0200, 0x12), (0x02FF, 0x34), (0x0300, 0x56), (0x8000, 0x6C), (0x8001, 0xFF), (0x8002, 0x02)]
      (start 0x00 0x00 0x00 0xFD 0x20 0x8000 [(0x0200, 0x12), (0x02FF, 0x34), (0x0300, 0x56), (0x8000, 0x6C), (0x8001, 0xFF), (0x8002, 0x02)]) = true := by decide

/-- Vector B16 of spec/95 (R269). -/
theorem test_jmp_absolute :
    ends 0x00 0x00 0x00 0xFD 0x20 0x9000 3 [(0x8000, 0x4C), (0x8001, 0x00), (0x8002, 0x90)]
      (start 0x00 0x00 0x00 0xFD 0x20 0x8000 [(0x8000, 0x4C), (0x8001, 0x00), (0x8002, 0x90)]) = true := by decide

/-- Vector B19 of spec/95 (R270). -/
theorem test_jsr_wraps_the_stack :
    ends 0x00 0x00 0x00 0xFE 0x20 0x9000 6 [(0x8000, 0x20), (0x8001, 0x00), (0x8002, 0x90), (0x0100, 0x80), (0x01FF, 0x02)]
      (start 0x00 0x00 0x00 0x00 0x20 0x8000 [(0x8000, 0x20), (0x8001, 0x00), (0x8002, 0x90)]) = true := by decide

/-- Vector B22 of spec/95 (R271). -/
theorem test_rts_wraps_pc :
    ends 0x00 0x00 0x00 0xFD 0x20 0x0000 6 [(0x01FC, 0xFF), (0x01FD, 0xFF), (0x9000, 0x60)]
      (start 0x00 0x00 0x00 0xFB 0x20 0x9000 [(0x01FC, 0xFF), (0x01FD, 0xFF), (0x9000, 0x60)]) = true := by decide

/-- Vector B23 of spec/95 (R271). -/
theorem test_rts_wraps_the_stack :
    ends 0x00 0x00 0x00 0x01 0x20 0x2011 6 [(0x0100, 0x10), (0x0101, 0x20), (0x9000, 0x60)]
      (start 0x00 0x00 0x00 0xFF 0x20 0x9000 [(0x0100, 0x10), (0x0101, 0x20), (0x9000, 0x60)]) = true := by decide

/-- Vector K2 of spec/95 (R280). -/
theorem test_pha_wraps_the_stack :
    ends 0x42 0x00 0x00 0xFF 0x20 0x8001 3 [(0x8000, 0x48), (0x0100, 0x42)]
      (start 0x42 0x00 0x00 0x00 0x20 0x8000 [(0x8000, 0x48)]) = true := by decide

/-- Vector K4 of spec/95 (R281). -/
theorem test_pla_wraps_the_stack :
    ends 0x80 0x00 0x00 0x00 0xA0 0x8001 4 [(0x0100, 0x80), (0x8000, 0x68)]
      (start 0x00 0x00 0x00 0xFF 0x20 0x8000 [(0x0100, 0x80), (0x8000, 0x68)]) = true := by decide

/-- Vector K6 of spec/95 (R282). -/
theorem test_php_sets_bits_4_and_5 :
    ends 0x00 0x00 0x00 0xFC 0x00 0x8001 3 [(0x8000, 0x08), (0x01FD, 0x30)]
      (start 0x00 0x00 0x00 0xFD 0x00 0x8000 [(0x8000, 0x08)]) = true := by decide

/-- Vector K7 of spec/95 (R283). -/
theorem test_plp_clears_bits_4_and_5 :
    ends 0x00 0x00 0x00 0xFD 0xCF 0x8001 4 [(0x01FD, 0xFF), (0x8000, 0x28)]
      (start 0x00 0x00 0x00 0xFC 0x20 0x8000 [(0x01FD, 0xFF), (0x8000, 0x28)]) = true := by decide

/-- Vector K11 of spec/95 (R284). -/
theorem test_brk_wraps_the_stack :
    ends 0x00 0x00 0x00 0xFE 0x24 0x1234 7 [(0xFFFE, 0x34), (0xFFFF, 0x12), (0x80FF, 0x00), (0x0101, 0x81), (0x0100, 0x01), (0x01FF, 0x34)]
      (start 0x00 0x00 0x00 0x01 0x20 0x80FF [(0xFFFE, 0x34), (0xFFFF, 0x12), (0x80FF, 0x00)]) = true := by decide

/-- Vector K9 of spec/95 (R284). -/
theorem test_brk_pushes_i_set :
    ends 0x00 0x00 0x00 0xFA 0x24 0x9000 7 [(0xFFFE, 0x00), (0xFFFF, 0x90), (0x8000, 0x00), (0x01FD, 0x80), (0x01FC, 0x02), (0x01FB, 0x34)]
      (start 0x00 0x00 0x00 0xFD 0x20 0x8000 [(0xFFFE, 0x00), (0xFFFF, 0x90), (0x8000, 0x00)]) = true := by decide

/-- Vector K13 of spec/95 (R285). -/
theorem test_rti_clears_bits_4_and_5 :
    ends 0x00 0x00 0x00 0xFD 0xCF 0xABCD 6 [(0x01FB, 0xFF), (0x01FC, 0xCD), (0x01FD, 0xAB), (0x9000, 0x40)]
      (start 0x00 0x00 0x00 0xFA 0x00 0x9000 [(0x01FB, 0xFF), (0x01FC, 0xCD), (0x01FD, 0xAB), (0x9000, 0x40)]) = true := by decide

/-! ## The tick, the host's calls, the bus, from the spec's vectors -/

/-- Section 2.9 of spec/95 (R140): tick 8 after reset is the last idle one; it runs nothing. -/
theorem test_last_idle_tick :
    (match step { start 0 0 0 0xFD 0x20 0x8000 [(0x8000, 0xA9), (0x8001, 0x01)] with cycles := 1 } with
      | .next t => decide (t = start 0 0 0 0xFD 0x20 0x8000 [(0x8000, 0xA9), (0x8001, 0x01)])
      | _ => false) = true := by decide

/-- Vector I1 (R330, R331): nothing is pushed, the old count is discarded. -/
theorem test_reset :
    (match resetMachine Config.resetDefaults
        { start 0x11 0x22 0x33 0x44 0xFF 0x1234 [(0xFFFD, 0x80), (0x01FD, 0xEE)] with cycles := 3 } with
      | .next t => decide (t = { start 0 0 0 0xFD 0x20 0x8000 [(0xFFFD, 0x80), (0x01FD, 0xEE)] with cycles := 8 })
      | _ => false) = true := by decide

/-- Vector I5 (R302): `B` is cleared before the push, the remaining count is replaced. -/
theorem test_nmi :
    (match interrupt true { start 0 0 0 0xFD 0x30 0x8123 [(0xFFFB, 0xA0), (0xFFFF, 0x90)] with cycles := 3 } with
      | .next t => decide (t = { start 0 0 0 0xFA 0x24 0xA000
          [(0xFFFB, 0xA0), (0xFFFF, 0x90), (0x01FD, 0x81), (0x01FC, 0x23), (0x01FB, 0x20)] with cycles := 8 })
      | _ => false) = true := by decide

/-- Vector I2 (R302): the pushed `I` is as it was, and `I` is set after the push. -/
theorem test_irq :
    (match interrupt false (start 0 0 0 0xFD 0x23 0x8123 [(0xFFFB, 0xA0), (0xFFFF, 0x90)]) with
      | .next t => decide (t = { start 0 0 0 0xFA 0x27 0x9000
          [(0xFFFB, 0xA0), (0xFFFF, 0x90), (0x01FD, 0x81), (0x01FC, 0x23), (0x01FB, 0x23)] with cycles := 7 })
      | _ => false) = true := by decide

/-- Configuration CART with this many program banks and these program bytes. -/
def cart (banks : Nat) (ram prg : List (Nat × Byte)) : State :=
  { State.reset with pc := 0x8000, cycles := 0, devices := cartDevices (memOf ram) banks 0 true (memOf prg) [] }

/-- Vectors D1 and D2 (R75, R76). -/
theorem test_mirrored_ram :
    ([0x0005, 0x0805, 0x1005, 0x1805].all (fun a => byteAt a (hostWrite 0x0005 0xAA (cart 1 [] [])) == some 0xAA) &&
      byteAt 0x07FF (hostWrite 0x1FFF 0xBB (cart 1 [] [])) == some 0xBB) = true := by decide

/-- Vectors D4, D6, D7 (R79). -/
theorem test_program_banks :
    (byteAt 0xC000 (hostWrite 0x8000 0x11 (cart 1 [] [])) == some 0x11 &&
      byteAt 0xC000 (hostWrite 0x8000 0x11 (cart 2 [] [])) == some 0x00 &&
      byteAt 0xBFFC (hostWrite 0xFFFC 0x22 (cart 1 [] [])) == some 0x22 &&
      byteAt 0xBFFC (hostWrite 0xFFFC 0x22 (cart 2 [] [])) == some 0x00) = true := by decide

/-- Vector D9 (R70, R310): the load from the hole raises the fatal, the mark is set, and a later call changes nothing. -/
theorem test_fatal_is_absorbing :
    (let s := cart 1 [] [(0, 0xAD), (1, 0x00), (2, 0x20)]
     let t := hostAct Config.resetDefaults .tick s
     t.fatal == some (.noDevice 0x2000) &&
      decide (hostRun Config.resetDefaults [.tick, .reset, .interrupt true] t = t)) = true := by decide

/-! ## Construction and wiring (R72, R81, R51) -/

theorem test_unknown_mapper_is_fatal :
    (match buildCartridge 1 1 0 0x4000 0x2000 true [] [] with | .fault (.unknownMapper 1) => true | _ => false) = true := by
  decide

/-- R51: the region is `PRG_BANKS * PRG_BANK_SIZE` bytes, so 2 bytes fill a bank of size 2 and no other; the mask of R79 leads the
access at 0x8002 past its end (log 24). -/
theorem test_bank_size_is_a_parameter :
    (match buildCartridge 0 1 0 2 0 true [0xAA, 0xBB] [] with
      | .next d =>
        let s := { State.reset with devices := [d] }
        byteAt 0x8001 s == some 0xBB && byteAt 0x8002 s == none
      | _ => false) = true := by decide

/-- R6: under a table that assigns 0x00 to NOP with 3 cycles, the byte 0x00 runs as that. -/
theorem test_optable_is_a_parameter :
    (match step { State.reset with cycles := 0, opTable := [[⟨.nop, .imp, 3⟩]] } with
      | .next t => t.cycles == 2 && t.pc == 0x0001 && t.sp == 0xFD
      | _ => false) = true := by decide

/-- R44, R80: with no pattern bank a picture-originated read is fatal, and the mark is set. -/
theorem test_picture_read_sets_the_mark :
    ((hostAct Config.resetDefaults (.pictureRead 0x0000) (cart 1 [] [])).fatal == some (.invalidMapperAccess 0x0000)) = true := by
  decide

theorem test_device_goes_last :
    (let e := addDevice (.pictureUnit 0x2000 0x3FFF) (cart 1 [] [])
     e.1 == 2 && (select e.2.devices 0x2002 .processor).map (fun d => d.1) == some 2 &&
      decide ((removeDevice 2 e.2).devices = (cart 1 [] []).devices)) = true := by decide

/-! ## Witnesses: for each statement with hypotheses, a state and operands that meet all of them -/

/-- LDA $12F0,X at `PC` = 0x8000, past its bytes, with `X` = 0x10: the page is crossed. -/
def wCross : State := start 0xFF 0x10 0x00 0xFD 0x21 0x8003 [(0x1300, 0x01), (0x02FF, 0x34), (0x0200, 0x12)]

theorem witness_DecodeOfEncodeIsTheInstruction :
    (Instr.lda (.izy 0xFF)).wellFormed = true ∧ (Instr.dnop 0xFF).wellFormed = true := by decide

theorem witness_DecodedBytesAreTheEncoding : decode [0x20, 0x34, 0x12, 0xEA] = .ok (.jsr 0x1234, [0xEA]) := rfl

/-- The default table, and the table that assigns nothing; the operand bytes are exactly as many as the mode takes. -/
theorem witness_LawfulTablesDecodeEveryOpcode :
    defaultTable.lawful = true ∧ (defaultTable.lookup 0xAD).mode.operandCount ≤ [(0x34 : Byte), 0x12].length ∧
      OpTable.lawful [] = true ∧ (OpTable.lookup [] 0xAD).mode.operandCount ≤ ([] : List Byte).length := by decide

theorem witness_StepRunsTheDecodedInstruction :
    (Instr.lda (.abs 0x1234)).wellFormed = true ∧
      (let s := start 0 0 0 0xFD 0x20 0xFFFE [(0xFFFE, 0xAD), (0xFFFF, 0x34), (0x0000, 0x12)]
       s.fatal = none ∧ s.processorConnected = true ∧ s.cycles = 0 ∧ Reads s (placed s.pc (encode (.lda (.abs 0x1234)))) s) :=
  ⟨rfl, rfl, rfl, rfl, _, rfl, _, rfl, _, rfl, rfl⟩

theorem witness_StepRunsTheDecodedInstruction_default_table :
    (start 0 0 0 0xFD 0x20 0xFFFE [(0xFFFE, 0xAD), (0xFFFF, 0x34), (0x0000, 0x12)]).opTable = defaultTable := rfl

/-- Another table: the byte 0x00 is LDA immediate. -/
theorem witness_StepRunsTheDecodedInstruction_any_table :
    let s := { State.reset with cycles := 0, opTable := [[⟨.lda, .imm, 3⟩]] }
    s.fatal = none ∧ s.processorConnected = true ∧ s.cycles = 0 ∧ decodeWith s.opTable [0x00, 0x00] = .ok (.lda (.imm 0x00), []) ∧
      Reads s (placed s.pc [0x00, 0x00]) s := ⟨rfl, rfl, rfl, rfl, _, rfl, _, rfl, rfl⟩

theorem witness_IdleTicksChangeOnlyTheCount :
    let s := { State.reset with cycles := 1 }
    s.fatal = none ∧ s.processorConnected = true ∧ 0 < s.cycles := by decide

theorem witness_TheFatalMarkAbsorbsEveryCall :
    ({ State.reset with fatal := some .noProcessor } : State).fatal = some .noProcessor := rfl

theorem witness_RaisedFatalsSetTheMark_a_fault :
    (cart 1 [] [(0, 0xAD), (1, 0xFF), (2, 0x7F)]).fatal = none ∧
      step (cart 1 [] [(0, 0xAD), (1, 0xFF), (2, 0x7F)]) = .fault (.noDevice 0x7FFF) := ⟨rfl, rfl⟩

/-- A bus with no device at all: reset, an interrupt and a raw access raise the fatal. -/
theorem witness_RaisedFatalsSetTheMark_each_call :
    let s := { State.reset with devices := [] }
    s.fatal = none ∧ resetMachine Config.resetDefaults s = .fault (.noDevice 0xFFFC) ∧
      interrupt true s = .fault (.noDevice 0x01FD) ∧ busRead 0x0000 s = .fault (.noDevice 0x0000) ∧
      busWrite 0xFFFF 0x00 s = .fault (.noDevice 0xFFFF) ∧ busReadAs .pictureUnit 0x2000 s = .fault (.noDevice 0x2000) ∧
      busWriteAs .pictureUnit 0x2000 0x00 s = .fault (.noDevice 0x2000) := ⟨rfl, rfl, rfl, rfl, rfl, rfl, rfl⟩

theorem witness_RaisedFatalsSetTheMark_picture :
    (cart 1 [] []).fatal = none ∧ (cart 1 [] []).devices = cartDevices (memOf []) 1 0 true (memOf []) [] ∧
      (0x1FFF : Word).toNat ≤ 0x1FFF := by decide

theorem witness_RaisedFatalsSetTheMark_mapper : State.reset.fatal = none ∧ (4 : Nat) ≠ 0 := ⟨rfl, by decide⟩

theorem witness_RaisedFatalsSetTheMark_no_processor :
    let s := { State.reset with processorConnected := false }
    s.fatal = none ∧ s.processorConnected = false := by decide

theorem witness_RaisedFatalsSetTheMark_no_device :
    let s := { cart 1 [] [] with pc := 0x7FFF }
    s.fatal = none ∧ s.processorConnected = true ∧ s.cycles = 0 ∧ select s.devices s.pc .processor = none := by decide

theorem witness_PointerModesResolve_ind :
    Reads wCross [(0x02FF, 0x34), (BitVec.ofNat 16 (if (0x02FF : Word).toNat % 256 = 255 then (0x02FF : Word).toNat - 255
      else (0x02FF : Word).toNat + 1), 0x12)] wCross := ⟨_, rfl, _, rfl, rfl⟩

/-- The base plus `X` is 0x00FF, so the high byte comes from 0x0000. -/
theorem witness_PointerModesResolve_izx :
    Reads (start 0 0x01 0 0xFD 0x20 0x8002 [(0x0000, 0x04)])
      [(BitVec.ofNat 16 (((0xFE : Byte).toNat + (0x01 : Byte).toNat) % 256), 0x00),
       (BitVec.ofNat 16 (((0xFE : Byte).toNat + (0x01 : Byte).toNat + 1) % 256), 0x04)]
      (start 0 0x01 0 0xFD 0x20 0x8002 [(0x0000, 0x04)]) := ⟨_, rfl, _, rfl, rfl⟩

theorem witness_PointerModesResolve_izy :
    Reads (start 0 0 0xFF 0xFD 0x20 0x8002 [(0x0000, 0xFF)])
      [(BitVec.ofNat 16 (0xFF : Byte).toNat, 0x00), (BitVec.ofNat 16 (((0xFF : Byte).toNat + 1) % 256), 0xFF)]
      (start 0 0 0xFF 0xFD 0x20 0x8002 [(0x0000, 0xFF)]) := ⟨_, rfl, _, rfl, rfl⟩

theorem witness_TheOperandFetchReadsTheEffectiveAddress :
    (Operand.zp0 0x10).mode ≠ .imp ∧ (Operand.zp0 0x10).mode ≠ .imm ∧
      busRead State.reset.addressAbs State.reset = .next (0x00, State.reset) := ⟨by decide, by decide, rfl⟩

/-- The operand of LDA $12F0,X: the page is crossed, the byte is 0x01. -/
theorem witness_operand_crossing :
    OperandIs (.abx 0x12F0) wCross true 0x01 { wCross with fetched := 0x01, addressAbs := 0x1300 } := ⟨_, rfl, rfl⟩

/-- The immediate operand, and the accumulator's. -/
theorem witness_operand_immediate :
    OperandIs (.imm 0x80) wCross false 0x80 { wCross with fetched := 0x80, addressAbs := 0x8002 } ∧
      OperandIs .imp wCross false 0xFF { wCross with fetched := 0xFF } := ⟨⟨_, rfl, rfl⟩, ⟨_, rfl, rfl⟩⟩

theorem witness_LoadsWriteTheRegisterAndZN :
    OperandIs (.abx 0x12F0) wCross true 0x01 { wCross with fetched := 0x01, addressAbs := 0x1300 } := witness_operand_crossing

/-- 0xFF + 0x01 with a carry in: the sum exceeds 255. -/
theorem witness_AdcAddsWithCarry :
    OperandIs (.abx 0x12F0) wCross true 0x01 { wCross with fetched := 0x01, addressAbs := 0x1300 } := witness_operand_crossing

theorem witness_SbcSubtractsWithBorrow :
    OperandIs (.imm 0x80) wCross false 0x80 { wCross with fetched := 0x80, addressAbs := 0x8002 } := witness_operand_immediate.1

theorem witness_LogicCombinesTheBits :
    OperandIs (.abx 0x12F0) wCross true 0x01 { wCross with fetched := 0x01, addressAbs := 0x1300 } := witness_operand_crossing

theorem witness_ComparesWriteOnlyFlags :
    OperandIs (.imm 0x80) wCross false 0x80 { wCross with fetched := 0x80, addressAbs := 0x8002 } := witness_operand_immediate.1

theorem witness_BitTestsTheOperand :
    OperandIs (.abs 0x1300) wCross false 0x01 { wCross with fetched := 0x01, addressAbs := 0x1300 } := ⟨_, rfl, rfl⟩

/-- The mode of each row is met by an operand: one row a clause. -/
theorem witness_EncodedAs :
    ((Mode.izy, (0xB1 : Byte), 5) ∈ [(Mode.imm, (0xA9 : Byte), 2), (.izy, 0xB1, 5)]) ∧ (Operand.izy 0x40).mode = .izy ∧
      (Operand.abs 0xFFFF).mode = .abs ∧ (Operand.ind 0x02FF).mode = .ind ∧ Operand.imp.mode = .imp := by decide

theorem witness_StoresWriteTheEffectiveAddress :
    memoryWf wCross = true ∧ wCross.fatal = none ∧
      resolve (.abx 0xFFF0) wCross = .next (true, { wCross with addressAbs := 0x0000 }) ∧ servesAt 0x0000 wCross = true :=
  ⟨by decide, rfl, rfl, rfl⟩

theorem witness_StoresWriteTheEffectiveAddress_unclaimed :
    let s := { State.reset with devices := cartDevices [] 1 0 true [] [] }
    memoryWf s = true ∧ s.fatal = none ∧ resolve (.abs 0x2000) s = .next (false, { s with addressAbs := 0x2000 }) ∧
      select s.devices 0x2000 .processor = none := ⟨by decide, rfl, rfl, rfl⟩

theorem witness_IncAndDecModifyStorage :
    memoryWf wCross = true ∧ wCross.fatal = none ∧
      OperandIs (.abx 0x12F0) wCross true 0x01 { wCross with fetched := 0x01, addressAbs := 0x1300 } ∧
      servesAt 0x1300 wCross = true := ⟨by decide, rfl, witness_operand_crossing, rfl⟩

theorem witness_ShiftsMoveOneBit :
    (Operand.abx 0x12F0) ≠ .imp ∧ memoryWf wCross = true ∧ wCross.fatal = none ∧
      OperandIs (.abx 0x12F0) wCross true 0x01 { wCross with fetched := 0x01, addressAbs := 0x1300 } ∧
      servesAt 0x1300 wCross = true := ⟨by decide, by decide, rfl, witness_operand_crossing, rfl⟩

theorem witness_FlagInstructionsWriteOneFlag :
    (Instr.clv, Flag.v, false) ∈ [(Instr.clc, Flag.c, false), (.sec, .c, true), (.cli, .i, false), (.sei, .i, true),
      (.cld, .d, false), (.sed, .d, true), (.clv, .v, false)] := by decide

theorem witness_NoOpsChangeNothing : (0x02 : Byte) ∈ unassigned ∧ (0xFF : Byte) ∈ unassigned := by decide

/-- Each flag that a branch reads, set and clear. -/
theorem witness_BranchesGoWhereTheFlagSays :
    [Flag.c, .z, .v, .n].all (fun f =>
      getFlag f (start 0 0 0 0 0x00 0 []).p == false && getFlag f (start 0 0 0 0 0xC3 0 []).p == true) = true := by decide

theorem witness_JmpGoesToTheEffectiveAddress :
    resolve (.ind 0x02FF) wCross = .next (false, { wCross with addressAbs := 0x1234 }) := rfl

/-- `SP` = 0x00: the second push wraps to 0x01FF. -/
def wStack : State := start 0x12 0x34 0x56 0x00 0xA1 0xFFFF []

theorem witness_JsrPushesAndJumps :
    memoryWf wStack = true ∧ wStack.fatal = none ∧ servesAt (stackAt wStack.sp) wStack = true ∧
      servesAt (stackAt (wStack.sp - 1)) wStack = true := by decide

/-- `SP` = 0xFF: the pulls read 0x0100 and 0x0101. -/
def wPull : State := start 0x12 0x34 0x56 0xFF 0xA1 0x9000 [(0x0100, 0x10), (0x0101, 0x20), (0x0102, 0x30)]

theorem witness_RtsPullsAndReturns :
    Reads wPull [(stackAt (wPull.sp + 1), 0x10), (stackAt (wPull.sp + 2), 0x20)] wPull := ⟨_, rfl, _, rfl, rfl⟩

theorem witness_RtsUndoesJsr :
    memoryWf wStack = true ∧ wStack.fatal = none ∧ storableAt (stackAt wStack.sp) wStack = true ∧
      storableAt (stackAt (wStack.sp - 1)) wStack = true := by decide

theorem witness_PushesWriteTheStack :
    memoryWf wStack = true ∧ wStack.fatal = none ∧ servesAt (stackAt wStack.sp) wStack = true := by decide

theorem witness_PullsReadTheStack : busRead (stackAt (wPull.sp + 1)) wPull = .next (0x10, wPull) := rfl

theorem witness_BrkEntersThroughTheVector :
    memoryWf wStack = true ∧ servesAt (stackAt wStack.sp) wStack = true ∧ servesAt (stackAt (wStack.sp - 1)) wStack = true ∧
      servesAt (stackAt (wStack.sp - 2)) wStack = true ∧ Reads wStack [(0xFFFE, 0x00), (0xFFFF, 0x00)] wStack :=
  ⟨by decide, rfl, rfl, rfl, _, rfl, _, rfl, rfl⟩

theorem witness_RtiRestoresFlagsAndPc :
    Reads wPull [(stackAt (wPull.sp + 1), 0x10), (stackAt (wPull.sp + 2), 0x20), (stackAt (wPull.sp + 3), 0x30)] wPull :=
  ⟨_, rfl, _, rfl, _, rfl, rfl⟩

theorem witness_RtiUndoesBrk :
    memoryWf wStack = true ∧ wStack.fatal = none ∧ storableAt (stackAt wStack.sp) wStack = true ∧
      storableAt (stackAt (wStack.sp - 1)) wStack = true ∧ storableAt (stackAt (wStack.sp - 2)) wStack = true ∧
      servesAt 0xFFFE wStack = true ∧ servesAt 0xFFFF wStack = true := by decide

theorem witness_InterruptsEnterThroughTheirVector_irq :
    memoryWf wStack = true ∧ servesAt (stackAt wStack.sp) wStack = true ∧ servesAt (stackAt (wStack.sp - 1)) wStack = true ∧
      servesAt (stackAt (wStack.sp - 2)) wStack = true ∧ (false = true ∨ getFlag .i wStack.p = false) ∧
      Reads wStack [(0xFFFE, 0x00), (0xFFFF, 0x00)] wStack :=
  ⟨by decide, rfl, rfl, rfl, .inr rfl, _, rfl, _, rfl, rfl⟩

theorem witness_InterruptsEnterThroughTheirVector_nmi :
    memoryWf wStack = true ∧ servesAt (stackAt wStack.sp) wStack = true ∧ servesAt (stackAt (wStack.sp - 1)) wStack = true ∧
      servesAt (stackAt (wStack.sp - 2)) wStack = true ∧ (true = true ∨ getFlag .i wStack.p = false) ∧
      Reads wStack [(0xFFFA, 0x00), (0xFFFB, 0x00)] wStack :=
  ⟨by decide, rfl, rfl, rfl, .inl rfl, _, rfl, _, rfl, rfl⟩

theorem witness_InterruptsEnterThroughTheirVector_fatal : (State.reset.setFatal (some .noProcessor)).fatal ≠ none := by decide

theorem witness_MaskedRequestsAreDropped : getFlag .i (start 0 0 0 0xFD 0x24 0x8123 []).p = true := by decide

theorem witness_allServed : AllServed wStack := fun _ => rfl

theorem witness_RtiUndoesAnInterrupt :
    memoryWf wStack = true ∧ wStack.fatal = none ∧ (true = true ∨ getFlag .i wStack.p = false) ∧
      (false = true ∨ getFlag .i wStack.p = false) ∧ storableAt (stackAt wStack.sp) wStack = true ∧
      storableAt (stackAt (wStack.sp - 1)) wStack = true ∧ storableAt (stackAt (wStack.sp - 2)) wStack = true ∧
      AllServed wStack := ⟨by decide, rfl, .inl rfl, .inr rfl, rfl, rfl, rfl, witness_allServed⟩

theorem witness_ResetInitialisesTheRegisters :
    Reads wStack [(0xFFFC, 0x00), (0xFFFD, 0x00)] wStack := ⟨_, rfl, _, rfl, rfl⟩

theorem witness_ResetStateIsTheResultOfReset :
    let s := { State.reset with a := 0x11, sp := 0x44, p := 0xFF, pc := 0x1234, cycles := 3 }
    Live s ∧ s.opTable = defaultTable ∧ s.devices = flatDevices [] ∧ s.draws = 0 := ⟨⟨rfl, rfl⟩, rfl, rfl, rfl⟩

/-- Two devices claim 0x8000; the first in the list does not claim 0x7FFF, where no device answers. -/
theorem witness_TheFirstMatchingDeviceAnswers :
    (∀ e ∈ [Device.pictureUnit 0x2000 0x3FFF], e.withinRange 0x8000 .processor = false) ∧
      (Device.pictureUnit 0x8000 0x8000).withinRange 0x8000 .processor = true ∧
      (cart 1 [] []).fatal = none ∧ (∀ e ∈ (cart 1 [] []).devices, e.withinRange 0x7FFF .processor = false) := by decide

theorem witness_FlatRamIsOneToOne :
    wCross.fatal = none ∧ wCross.devices = flatDevices (memOf [(0x1300, 0x01), (0x02FF, 0x34), (0x0200, 0x12)]) ∧
      (memOf [(0x1300, 0x01), (0x02FF, 0x34), (0x0200, 0x12)]).wf = true := by decide

theorem witness_MirroredRamRepeatsEvery2K :
    (cart 1 [(0x7FF, 0xBB)] []).fatal = none ∧
      (cart 1 [(0x7FF, 0xBB)] []).devices = cartDevices (memOf [(0x7FF, 0xBB)]) 1 0 true (memOf []) [] ∧
      (memOf [(0x7FF, 0xBB)]).wf = true ∧ (0x1FFF : Word).toNat < 0x2000 := by decide

/-- No bank, one bank, two banks, at both ends of the program addresses. -/
theorem witness_CartridgeMapsTheProgramRegion :
    (cart 0 [] []).devices = cartDevices (memOf []) 0 0 true (memOf []) [] ∧
      (cart 2 [] [(0x7FFF, 0x01)]).devices = cartDevices (memOf []) 2 0 true (memOf [(0x7FFF, 0x01)]) [] ∧
      (cart 2 [] [(0x7FFF, 0x01)]).fatal = none ∧ (memOf [(0x7FFF, 0x01)]).wf = true ∧ 0x8000 ≤ (0x8000 : Word).toNat ∧
      0x8000 ≤ (0xFFFF : Word).toNat ∧ 0 < 2 := by decide

theorem witness_CartHoleIsNoDevice :
    (cart 1 [] []).fatal = none ∧ (cart 1 [] []).devices = cartDevices (memOf []) 1 0 true (memOf []) [] ∧
      0x2000 ≤ (0x2000 : Word).toNat ∧ (0x7FFF : Word).toNat < 0x8000 := by decide

theorem witness_PictureAccessesReachThePatternRegion :
    (cart 1 [] []).fatal = none ∧ (cart 1 [] []).devices = cartDevices (memOf []) 1 0 true (memOf []) [] ∧
      (0x1FFF : Word).toNat ≤ 0x1FFF ∧ 0x1FFF < (0x2000 : Word).toNat := by decide

theorem witness_PictureAccessesReachThePatternRegion_with_a_bank :
    let s := { cart 1 [] [] with devices := cartDevices [] 1 1 true [] [] }
    s.fatal = none ∧ s.devices = cartDevices [] 1 1 true [] [] ∧ 0 < 1 ∧ (0x0000 : Word).toNat ≤ 0x1FFF := by decide

/-- The registers of a picture unit behind the RAM window, at both ends of its range. -/
theorem witness_PictureUnitReadsAreDraws :
    let ram : Device := .ram (.mirrored 0x0000) []
    let s := { cart 1 [] [] with devices := [ram] ++ Device.pictureUnit 0x2000 0x3FFF :: [] }
    s.fatal = none ∧ s.devices = [ram] ++ Device.pictureUnit 0x2000 0x3FFF :: [] ∧
      (∀ e ∈ [ram], e.withinRange 0x2000 .processor = false) ∧ (∀ e ∈ [ram], e.withinRange 0x3FFF .processor = false) ∧
      (0x2000 : Word).toNat ≤ (0x2000 : Word).toNat ∧ (0x3FFF : Word).toNat ≤ (0x3FFF : Word).toNat := by decide

theorem witness_LoadedProgramsReadBack :
    State.reset.fatal = none ∧ State.reset.devices = flatDevices [] ∧ Memory.wf [] = true ∧
      ([0xA9, 0x42, 0xEA] : List Byte).length ≤ 65536 := by decide

theorem witness_FlagsAreWrittenOnlyByTheirWriters :
    exec .clc wStack = .next { wStack with fetched := 0x12, p := 0xA0 } ∧ Flag.n ∉ flagsWrittenBy .clc := ⟨rfl, by decide⟩

theorem witness_RegistersAreWrittenOnlyByTheirWriters :
    exec .tax wStack = .next { wStack with fetched := 0x12, x := 0x12, p := 0x21 } ∧ writesA .tax = false ∧
      writesX .sec = false ∧ writesY .tax = false ∧ writesPC .tax = false := ⟨rfl, by decide⟩

theorem witness_StorageIsWrittenOnlyByItsWriters :
    exec (.asl .imp) wStack = .next { wStack with fetched := 0x12, a := 0x24, p := 0x20 } ∧
      writesStorage (.asl .imp) = false := ⟨rfl, by decide⟩

theorem witness_OnlyTxsLoadsTheStackPointer :
    exec .pla wPull = .next { wPull with fetched := 0x12, a := 0x10, sp := 0x00, p := 0x21 } ∧ Instr.pla ≠ .txs :=
  ⟨rfl, by decide⟩

theorem witness_StepsNeverChangeTheConfiguration : step State.reset = .next { State.reset with cycles := 7 } := rfl

/-- Reset's state, and a state at a tick that runs an instruction. -/
theorem witness_EveryStepKeepsTheInvariant :
    Inv State.reset ∧ step State.reset = .next { State.reset with cycles := 7 } :=
  ⟨⟨by decide, by decide, fun _ => by decide⟩, rfl⟩

theorem witness_EveryStepKeepsTheInvariant_running :
    Inv (start 0 0 0 0xFD 0x20 0x8000 [(0x8000, 0x48)]) ∧
      (match step (start 0 0 0 0xFD 0x20 0x8000 [(0x8000, 0x48)]) with | .next _ => true | _ => false) = true :=
  ⟨⟨by decide, by decide, fun _ => by decide⟩, by decide⟩

theorem witness_EveryHostCallKeepsTheInvariant :
    getFlag .b Config.resetDefaults.pOther = false ∧ Inv State.reset :=
  ⟨by decide, by decide, by decide, fun _ => by decide⟩

theorem witness_EveryInstructionCompletesOnAServedBus : wStack.fatal = none ∧ AllServed wStack := ⟨rfl, witness_allServed⟩

theorem witness_TheFlatMachineNeverStops :
    Live wStack ∧ wStack.opTable.lawful = true ∧ wStack.devices = flatDevices (memOf []) := ⟨⟨rfl, rfl⟩, by decide, rfl⟩

end Sys2Proof.Tests
end

section
/-! SUPPORT. The families' shapes, the fetch, the execution and the tick keep the configuration: one `Keeps` lemma each. -/

namespace Sys2Proof.Machine

open Sys2Proof.Safety

/-! ## The families' shapes -/

theorem addBonus_keeps (earned : Bool) (s : State) : Keeps s (addBonus earned s) := by
  rw [addBonus_eq]
  exact .of_eq rfl rfl rfl rfl

theorem branch_keeps (cond : Bool) (s : State) : Keeps s (branch cond s) := by
  rw [branch_eq]
  exact .of_eq rfl rfl rfl rfl

theorem applyAdd_keeps (r : AddResult) (s : State) : Keeps s (s.applyAdd r) :=
  .of_eq (State.applyAdd_devices r s) (State.applyAdd_fatal r s) (State.applyAdd_processorConnected r s)
    (State.applyAdd_opTable r s)

theorem withOperand_keeps {o : Operand} {eligible : Bool} {effect : Byte → State → State} {s t : State}
    (h : withOperand o eligible effect s = .next t) (he : ∀ m u, Keeps u (effect m u)) : Keeps s t := by
  obtain ⟨c, s1, m, s2, hr, hm, rfl⟩ := withOperand_eq_next.1 h
  exact (resolve_keeps hr).trans ((fetchOperand_keeps hm).trans ((he m s2).trans (addBonus_keeps _ _)))

theorem storeOperand_keeps {o : Operand} {value : State → Byte} {s t : State}
    (h : storeOperand o value s = .next t) : Keeps s t := by
  obtain ⟨c, s1, hr, hw⟩ := storeOperand_eq_next.1 h
  exact (resolve_keeps hr).trans (busWrite_keeps hw)

theorem modifyOperand_keeps {o : Operand} {f : Byte → Byte} {s t : State}
    (h : modifyOperand o f s = .next t) : Keeps s t := by
  obtain ⟨c, s1, m, s2, s3, hr, hm, hw, rfl⟩ := modifyOperand_eq_next.1 h
  have hz : Keeps s3 (s3.setZN (f m)) := .of_eq rfl rfl rfl rfl
  exact (resolve_keeps hr).trans ((fetchOperand_keeps hm).trans ((busWrite_keeps hw).trans hz))

theorem shiftOperand_keeps {o : Operand} {f : Bool → Byte → ShiftResult} {s t : State}
    (h : shiftOperand o f s = .next t) : Keeps s t := by
  obtain ⟨c, s1, m, s2, hr, hm, hw⟩ := shiftOperand_eq_next.1 h
  have hf : Keeps s2 ((s2.setFlag .c (f (s2.flag .c) m).carry).setZN (f (s2.flag .c) m).value) := .of_eq rfl rfl rfl rfl
  exact (resolve_keeps hr).trans ((fetchOperand_keeps hm).trans (hf.trans (writeBack_keeps hw)))

theorem implied_keeps {effect : State → State} {s t : State}
    (h : implied effect s = .next t) (he : ∀ u, Keeps u (effect u)) : Keeps s t := by
  obtain rfl := implied_eq_next.1 h
  have hf : Keeps s (s.setFetched s.a) := .of_eq rfl rfl rfl rfl
  exact hf.trans (he _)

theorem branchOn_keeps {disp : Byte} {cond : State → Bool} {s t : State}
    (h : branchOn disp cond s = .next t) : Keeps s t := by
  obtain rfl := branchOn_eq_next.1 h
  have hr : Keeps s (s.setAddressRel (sext16 disp)) := .of_eq rfl rfl rfl rfl
  exact hr.trans (branch_keeps _ _)

/-- What follows the resolver needs to keep the configuration only from the state the resolver left. -/
theorem andThen_resolve_keeps {o : Operand} {k : Bool × State → Result State} {s t : State}
    (h : andThen (resolve o s) k = .next t) (hk : ∀ c u, k (c, u) = .next t → Keeps u t) : Keeps s t := by
  obtain ⟨⟨c, u⟩, hr, hu⟩ := andThen_eq_next.1 h
  exact (resolve_keeps hr).trans (hk c u hu)

/-! ## The instructions with a shape of their own -/

theorem execJmp_keeps {o : Operand} {s t : State} (h : execJmp o s = .next t) : Keeps s t := by
  refine andThen_resolve_keeps h fun c u hu => ?_
  cases hu
  exact .of_eq rfl rfl rfl rfl

theorem execJsr_keeps {addr : Word} {s t : State} (h : execJsr addr s = .next t) : Keeps s t := by
  refine andThen_resolve_keeps h fun c u hu => ?_
  obtain ⟨u2, hp, hu2⟩ := andThen_eq_next.1 hu
  cases hu2
  have hpc : Keeps u (u.setPc (u.pc - 1)) := .of_eq rfl rfl rfl rfl
  exact hpc.trans ((push16_keeps hp).trans (.of_eq rfl rfl rfl rfl))

theorem execRts_keeps {s t : State} (h : execRts s = .next t) : Keeps s t := by
  refine andThen_resolve_keeps h fun c u hu => ?_
  obtain ⟨⟨target, u2⟩, hp, hu2⟩ := andThen_eq_next.1 hu
  cases hu2
  exact (pull16_keeps hp).trans (.of_eq rfl rfl rfl rfl)

theorem execPha_keeps {s t : State} (h : execPha s = .next t) : Keeps s t :=
  andThen_resolve_keeps h fun _ _ hu => push8_keeps hu

theorem execPhp_keeps {s t : State} (h : execPhp s = .next t) : Keeps s t :=
  andThen_resolve_keeps h fun _ _ hu => push8_keeps hu

theorem execPla_keeps {s t : State} (h : execPla s = .next t) : Keeps s t := by
  refine andThen_resolve_keeps h fun c u hu => ?_
  obtain ⟨⟨m, u2⟩, hp, hu2⟩ := andThen_eq_next.1 hu
  cases hu2
  exact (pull8_keeps hp).trans (.of_eq rfl rfl rfl rfl)

theorem execPlp_keeps {s t : State} (h : execPlp s = .next t) : Keeps s t := by
  refine andThen_resolve_keeps h fun c u hu => ?_
  obtain ⟨⟨m, u2⟩, hp, hu2⟩ := andThen_eq_next.1 hu
  cases hu2
  exact (pull8_keeps hp).trans (.of_eq rfl rfl rfl rfl)

theorem execBrk_keeps {s t : State} (h : execBrk s = .next t) : Keeps s t := by
  refine andThen_resolve_keeps h fun c u hu => ?_
  have hpc : Keeps u (u.setPc (u.pc + 1)) := .of_eq rfl rfl rfl rfl
  exact hpc.trans (takeTrap_keeps hu)

theorem execRti_keeps {s t : State} (h : execRti s = .next t) : Keeps s t :=
  andThen_resolve_keeps h fun _ _ hu => returnFromTrap_keeps hu

/-! ## Execution, fetch and tick -/

/-- Every instruction that completes keeps well-formed storage, the configuration, the mark, the connection and the table:
by the shape its meaning has. -/
theorem exec_keeps {i : Instr} {s t : State} (h : exec i s = .next t) : Keeps s t := by
  cases i with
  | adc o | sbc o =>
    simp only [exec, execAdc, execSbc] at h
    exact withOperand_keeps h fun _ _ => applyAdd_keeps _ _
  | and o | bit o | cmp o | cpx o | cpy o | eor o | lda o | ldx o | ldy o | ora o =>
    simp only [exec, execAnd, execBit, execCmp, execCpx, execCpy, execEor, execLda, execLdx, execLdy, execOra] at h
    exact withOperand_keeps h fun _ _ => .of_eq rfl rfl rfl rfl
  | sta o | stx o | sty o =>
    simp only [exec, execSta, execStx, execSty] at h
    exact storeOperand_keeps h
  | inc o | dec o =>
    simp only [exec, execInc, execDec] at h
    exact modifyOperand_keeps h
  | asl o | lsr o | rol o | ror o =>
    simp only [exec, execAsl, execLsr, execRol, execRor] at h
    exact shiftOperand_keeps h
  | bcc d | bcs d | beq d | bmi d | bne d | bpl d | bvc d | bvs d =>
    simp only [exec, execBcc, execBcs, execBeq, execBmi, execBne, execBpl, execBvc, execBvs] at h
    exact branchOn_keeps h
  | clc | cld | cli | clv | dex | dey | inx | iny | nop | sec | sed | sei | tax | tay | tsx | txa | txs | tya | dnop =>
    simp only [exec, execClc, execCld, execCli, execClv, execDex, execDey, execInx, execIny, execNop, execSec, execSed,
      execSei, execTax, execTay, execTsx, execTxa, execTxs, execTya, execDnop] at h
    exact implied_keeps h fun _ => .of_eq rfl rfl rfl rfl
  | jmp o => exact execJmp_keeps h
  | jsr w => exact execJsr_keeps h
  | rts => exact execRts_keeps h
  | pha => exact execPha_keeps h
  | php => exact execPhp_keeps h
  | pla => exact execPla_keeps h
  | plp => exact execPlp_keeps h
  | brk => exact execBrk_keeps h
  | rti => exact execRti_keeps h

theorem fetchByte_keeps {s t : State} {b : Byte} (h : fetchByte s = .next (b, t)) : Keeps s t := by
  obtain ⟨⟨v, u⟩, hb, hu⟩ := andThen_eq_next.1 h
  cases hu
  exact (busRead_keeps hb).trans (.of_eq rfl rfl rfl rfl)

theorem fetchBytes_keeps {n : Nat} {s t : State} {bs : List Byte} (h : fetchBytes n s = .next (bs, t)) : Keeps s t := by
  induction n generalizing s bs with
  | zero => cases h; exact .refl _
  | succ n ih =>
    obtain ⟨⟨b, u⟩, hb, hu⟩ := andThen_eq_next.1 h
    obtain ⟨⟨rest, v⟩, hr, hv⟩ := andThen_eq_next.1 hu
    cases hv
    exact (fetchByte_keeps hb).trans (ih hr)

theorem fetchInstr_keeps {table : OpTable} {s t : State} {i : Instr} {base : Nat}
    (h : fetchInstr table s = .next (i, base, t)) : Keeps s t := by
  obtain ⟨⟨opcode, u⟩, hb, hu⟩ := andThen_eq_next.1 h
  obtain ⟨⟨operand, v⟩, hr, hv⟩ := andThen_eq_next.1 hu
  have hvt : v = t := by
    dsimp only at hv
    split at hv <;> cases hv
    rfl
  exact hvt ▸ (fetchByte_keeps hb).trans (fetchBytes_keeps hr)

theorem instructionStep_keeps {s t : State} (h : instructionStep s = .next t) : Keeps s t := by
  obtain ⟨⟨i, base, u⟩, hf, he⟩ := andThen_eq_next.1 h
  have hs : Keeps s ((s.setAddressAbs 0x0000).setAddressRel 0x0000) := .of_eq rfl rfl rfl rfl
  have hc : Keeps u (u.setCycles base) := .of_eq rfl rfl rfl rfl
  exact hs.trans ((fetchInstr_keeps hf).trans (hc.trans (exec_keeps he)))

/-- A step that answers, said once: nothing under the fatal mark, an instruction step when `cycles` is 0, an idle tick
otherwise; the last two need the processor and end with one cycle less (R140, R310, R311). -/
theorem step_cases {s t : State} (h : step s = .next t) :
    (s.fatal ≠ none ∧ t = s) ∨
    (s.fatal = none ∧ s.processorConnected = true ∧ s.cycles = 0 ∧
      ∃ u, instructionStep s = .next u ∧ t = u.setCycles (u.cycles - 1)) ∨
    (s.fatal = none ∧ s.processorConnected = true ∧ s.cycles ≠ 0 ∧ t = s.setCycles (s.cycles - 1)) := by
  unfold step tick at h
  cases hf : s.fatal with
  | some f =>
    simp only [hf, Host.Outcome.next.injEq] at h
    exact .inl ⟨by simp, h.symm⟩
  | none =>
    cases hp : s.processorConnected with
    | false => simp [hf, hp] at h
    | true =>
      by_cases hc : s.cycles = 0
      · simp only [hf, hp, hc, Bool.not_true, Bool.false_eq_true, if_false, if_true, andThen_eq_next] at h
        obtain ⟨u, hu, ht⟩ := h
        exact .inr (.inl ⟨rfl, rfl, hc, u, hu, by simpa using ht.symm⟩)
      · simp only [hf, hp, hc, Bool.not_true, Bool.false_eq_true, if_false, Host.Outcome.next.injEq] at h
        exact .inr (.inr ⟨rfl, rfl, hc, h.symm⟩)

theorem step_keeps {s t : State} (h : step s = .next t) : Keeps s t := by
  obtain ⟨-, rfl⟩ | ⟨-, -, -, u, hu, rfl⟩ | ⟨-, -, -, rfl⟩ := step_cases h
  · exact .refl t
  · exact (instructionStep_keeps hu).trans (.of_eq rfl rfl rfl rfl)
  · exact .of_eq rfl rfl rfl rfl

/-- Settles O54: every answered step is a sequence of operations that each keep the configuration (`step_keeps`). -/
theorem stepsNeverChangeTheConfiguration : Obligations.StepsNeverChangeTheConfiguration := by
  unfold Obligations.StepsNeverChangeTheConfiguration
  intro s t h
  have k := step_keeps h
  exact ⟨k.config, k.table, k.connected, k.fatal⟩

end Sys2Proof.Machine
end

section
/-! SUPPORT. The decoder takes an encoding back as the instruction. -/

namespace Sys2Proof

open Laws.TableAgreement in
/-- R121's list and R120's matrix agree on every well-formed instruction (one lemma per constructor: `TableAgreement`). -/
theorem lookup_opcodeOf : ∀ i : Instr, Statement i
  | .adc o => adc o | .and o => and o | .asl o => asl o | .bcc d => bcc d | .bcs d => bcs d | .beq d => beq d
  | .bit o => bit o | .bmi d => bmi d | .bne d => bne d | .bpl d => bpl d | .brk => brk | .bvc d => bvc d
  | .bvs d => bvs d | .clc => clc | .cld => cld | .cli => cli | .clv => clv | .cmp o => cmp o | .cpx o => cpx o
  | .cpy o => cpy o | .dec o => dec o | .dex => dex | .dey => dey | .eor o => eor o | .inc o => inc o | .inx => inx
  | .iny => iny | .jmp o => jmp o | .jsr w => jsr w | .lda o => lda o | .ldx o => ldx o | .ldy o => ldy o
  | .lsr o => lsr o | .nop => nop | .ora o => ora o | .pha => pha | .php => php | .pla => pla | .plp => plp
  | .rol o => rol o | .ror o => ror o | .rti => rti | .rts => rts | .sbc o => sbc o | .sec => sec | .sed => sed
  | .sei => sei | .sta o => sta o | .stx o => stx o | .sty o => sty o | .tax => tax | .tay => tay | .tsx => tsx
  | .txa => txa | .txs => txs | .tya => tya | .dnop b => dnop b

/-- An instruction's own opcode byte, mnemonic and operand assemble to the instruction. -/
theorem assemble_self (i : Instr) : assemble (opcodeOf i) i.mnemonic i.operand = some i := by
  cases i <;> rfl

/-- Under the default table a well-formed instruction's encoding decodes to it and leaves the bytes after it (R110, R111). -/
theorem decode_encode_append {i : Instr} (h : i.wellFormed = true) (rest : List Byte) :
    decode (encode i ++ rest) = .ok (i, rest) := by
  obtain ⟨hmnemonic, hmode⟩ := lookup_opcodeOf i h
  have hcons := decodeWith_cons (t := defaultTable) (opcode := opcodeOf i) rfl (i.operand.bytes ++ rest)
  simp only [hmnemonic, hmode, takeOperand_bytes, assemble_self] at hcons
  exact hcons

/-- Bytes that decode with none left over are an opcode byte and exactly the operand bytes its record's mode takes. -/
theorem length_of_decodeWith {t : OpTable} {opcode : Byte} {operand : List Byte} {i : Instr}
    (h : decodeWith t (opcode :: operand) = .ok (i, [])) : operand.length = (t.lookup opcode).mode.operandCount := by
  rw [decodeWith_cons rfl] at h
  cases ho : takeOperand (t.lookup opcode).mode operand with
  | none => simp [ho] at h
  | some e =>
    obtain ⟨o, rest⟩ := e
    obtain ⟨hmode, hbytes, -⟩ := takeOperand_eq_some ho
    simp only [ho] at h
    split at h
    · cases h
    · cases h
      rw [hbytes, List.append_nil, length_bytes, hmode]

end Sys2Proof
end

section
/-! SUPPORT. What the fetch and the tick do when the bus answers the instruction's bytes. -/

namespace Sys2Proof.Machine

open Sys2Proof.Claims

/-! ## The bytes the bus answers -/

/-- Reads change at most the draw count. -/
theorem reads_state {l : List (Word × Byte)} {s t : State} (h : Reads s l t) : t = s.setDraws t.draws := by
  induction l generalizing s with
  | nil => obtain rfl := h; rfl
  | cons e rest ih =>
    obtain ⟨s1, h1, hr⟩ := h
    rw [ih hr, (busRead_state h1).1]
    rfl

/-- Fetching one byte advances `PC` by one and answers what the bus answers at `PC`, in every state that agrees on what the
bus depends on. -/
theorem fetchByte_of_busRead {s s1 u : State} {b : Byte} (h : busRead u.pc s = .next (b, s1)) (hf : u.fatal = s.fatal)
    (hd : u.devices = s.devices) (hr : u.draws = s.draws) :
    fetchByte u = .next (b, (u.setPc (u.pc + 1)).setDraws s1.draws) := by
  rw [fetchByte, busRead_frame h hf hd hr]
  rfl

theorem add_one_add_ofNat (w : Word) (n : Nat) : w + 1 + BitVec.ofNat 16 n = w + BitVec.ofNat 16 (1 + n) := by
  rw [BitVec.ofNat_add, BitVec.add_assoc]
  rfl

/-- Fetching as many bytes as the bus answers from `PC` on answers those bytes, with `PC` past them. -/
theorem fetchBytes_of_reads {bs : List Byte} {s t u : State} (h : Reads s (placed u.pc bs) t) (hf : u.fatal = s.fatal)
    (hd : u.devices = s.devices) (hr : u.draws = s.draws) :
    fetchBytes bs.length u = .next (bs, (u.setPc (u.pc + BitVec.ofNat 16 bs.length)).setDraws t.draws) := by
  induction bs generalizing s u with
  | nil =>
    obtain rfl := h
    rw [← hr]
    simp [fetchBytes, State.setPc, State.setDraws]
  | cons b rest ih =>
    obtain ⟨s1, h1, hrest⟩ := h
    have hs1 := (busRead_state h1).1
    have hu : fetchBytes rest.length ((u.setPc (u.pc + 1)).setDraws s1.draws) = _ :=
      ih hrest (by rw [hs1]; exact hf) (by rw [hs1]; exact hd) rfl
    rw [List.length_cons, Nat.add_comm, ← add_one_add_ofNat, Nat.add_comm]
    simp only [fetchBytes, fetchByte_of_busRead h1 hf hd hr, andThen_next, hu]
    rfl

/-- When the bytes the bus answers from `PC` on decode to `i`, the fetch answers `i`, its record's base count, and the state
with `PC` past the bytes. -/
theorem fetchInstr_of_reads {table : OpTable} {opcode : Byte} {operand : List Byte} {i : Instr} {s t u : State}
    (hi : decodeWith table (opcode :: operand) = .ok (i, [])) (h : Reads s (placed u.pc (opcode :: operand)) t)
    (hf : u.fatal = s.fatal) (hd : u.devices = s.devices) (hr : u.draws = s.draws) :
    fetchInstr table u = .next (i, (table.lookup opcode).baseCycles,
      (u.setPc (u.pc + BitVec.ofNat 16 (1 + operand.length))).setDraws t.draws) := by
  obtain ⟨s1, h1, hrest⟩ := h
  have hs1 := (busRead_state h1).1
  have hoperand : fetchBytes operand.length ((u.setPc (u.pc + 1)).setDraws s1.draws) = _ :=
    fetchBytes_of_reads hrest (by rw [hs1]; exact hf) (by rw [hs1]; exact hd) rfl
  rw [fetchInstr, fetchByte_of_busRead h1 hf hd hr]
  simp only [andThen_next, ← length_of_decodeWith hi, hoperand, hi, ← add_one_add_ofNat]
  rfl

/-! ## The tick -/

theorem andThen_next_eq_mapNext (f : State → State) (r : Result State) :
    (andThen r fun u => .next (f u)) = mapNext f r := by
  cases r <;> rfl

/-- With no mark, the processor connected and no cycle to idle, the step is the instruction step, and then one cycle less (R140). -/
theorem step_eq_instructionStep {s : State} (hf : s.fatal = none) (hp : s.processorConnected = true) (hc : s.cycles = 0) :
    step s = mapNext (fun u => { u with cycles := u.cycles - 1 }) (instructionStep s) := by
  rw [← andThen_next_eq_mapNext]
  simp [step, tick, hf, hp, hc, State.setCycles]

/-- The state `exec` runs in: `PC` past the `n` bytes of the instruction, the scratch addresses cleared, the base count loaded. -/
theorem instructionStep_of_reads {opcode : Byte} {operand : List Byte} {i : Instr} {s t : State}
    (hi : decodeWith s.opTable (opcode :: operand) = .ok (i, [])) (h : Reads s (placed s.pc (opcode :: operand)) t) :
    instructionStep s = exec i { t with
      pc := s.pc + BitVec.ofNat 16 (1 + operand.length), addressAbs := 0x0000, addressRel := 0x0000,
      cycles := (s.opTable.lookup opcode).baseCycles } := by
  have hfetch := fetchInstr_of_reads (u := (s.setAddressAbs 0x0000).setAddressRel 0x0000) hi h rfl rfl rfl
  rw [reads_state h]
  simp only [instructionStep, State.setAddressRel_opTable, State.setAddressAbs_opTable, hfetch, andThen_next]
  rfl

theorem step_of_reads {opcode : Byte} {operand : List Byte} {i : Instr} {s t : State} (hf : s.fatal = none)
    (hp : s.processorConnected = true) (hc : s.cycles = 0) (hi : decodeWith s.opTable (opcode :: operand) = .ok (i, []))
    (h : Reads s (placed s.pc (opcode :: operand)) t) :
    step s = mapNext (fun u => { u with cycles := u.cycles - 1 }) (exec i { t with
      pc := s.pc + BitVec.ofNat 16 (1 + operand.length), addressAbs := 0x0000, addressRel := 0x0000,
      cycles := (s.opTable.lookup opcode).baseCycles }) := by
  rw [step_eq_instructionStep hf hp hc, instructionStep_of_reads hi h]

/-- Settles O5: the step fetches what decodes and runs it (`step_of_reads`); under the default table the encoding of a
well-formed instruction is such bytes (`decode_encode_append`), `i.length` of them. -/
theorem stepRunsTheDecodedInstruction : Obligations.StepRunsTheDecodedInstruction := by
  unfold Obligations.StepRunsTheDecodedInstruction
  intro i s t hf hp hc
  refine ⟨fun opcode operand hi h => step_of_reads hf hp hc hi h, fun ht hw h => ?_⟩
  have hdecode : decodeWith s.opTable (encode i) = .ok (i, []) := by
    simpa only [List.append_nil, ht, decode] using decode_encode_append hw []
  have hstep := step_of_reads hf hp hc hdecode h
  rw [length_bytes, ht] at hstep
  exact hstep

end Sys2Proof.Machine
end

section
/-! SUPPORT. What each instruction writes of registers, flags, stack pointer and cycle count, said once for every instruction
(`exec_writesWithin`); the statements about writers are its parts. -/

namespace Sys2Proof.Machine

open Sys2Proof.Claims

/-! ## Operations that leave the registers alone -/

/-- The registers, the flag byte and the cycle count are the same: at most scratch registers, storage and draws differ. -/
structure SameRegisters (s t : State) : Prop where
  a : t.a = s.a
  x : t.x = s.x
  y : t.y = s.y
  pc : t.pc = s.pc
  sp : t.sp = s.sp
  p : t.p = s.p
  cycles : t.cycles = s.cycles

theorem resolve_sameRegisters {o : Operand} {s t : State} {c : Bool} (h : resolve o s = .next (c, t)) :
    SameRegisters s t := by
  rw [(resolve_state h).1]
  exact ⟨rfl, rfl, rfl, rfl, rfl, rfl, rfl⟩

theorem fetchOperand_sameRegisters {o : Operand} {s t : State} {m : Byte} (h : fetchOperand o s = .next (m, t)) :
    SameRegisters s t := by
  rw [(fetchOperand_state h).1]
  exact ⟨rfl, rfl, rfl, rfl, rfl, rfl, rfl⟩

theorem busWrite_sameRegisters {a : Word} {v : Byte} {s t : State} (h : busWrite a v s = .next t) : SameRegisters s t := by
  rw [(busWrite_state h).1]
  exact ⟨rfl, rfl, rfl, rfl, rfl, rfl, rfl⟩

theorem read16_sameRegisters {a w : Word} {s t : State} (h : read16 a s = .next (w, t)) : SameRegisters s t := by
  rw [(read16_state h).1]
  exact ⟨rfl, rfl, rfl, rfl, rfl, rfl, rfl⟩

/-! ## What an instruction writes, one operation at a time -/

/-- On the way from `s` to `t` instruction `i` wrote at most the flags and registers that the rules list for it, moved
`SP` by `d` unless it is TXS, and added at most `n` cycles. -/
structure WritesWithin (i : Instr) (d : Byte) (n : Nat) (s t : State) : Prop where
  flags : ∀ f, f ∉ flagsWrittenBy i → getFlag f t.p = getFlag f s.p
  a : writesA i = false → t.a = s.a
  x : writesX i = false → t.x = s.x
  y : writesY i = false → t.y = s.y
  pc : writesPC i = false → t.pc = s.pc
  sp : i ≠ .txs → t.sp = s.sp + d
  cycles : t.cycles ≤ s.cycles + n

namespace WritesWithin

theorem refl (i : Instr) (s : State) : WritesWithin i 0 0 s s :=
  ⟨fun _ _ => rfl, fun _ => rfl, fun _ => rfl, fun _ => rfl, fun _ => rfl, fun _ => (BitVec.add_zero _).symm, Nat.le_refl _⟩

section
variable {i : Instr} {d : Byte} {n : Nat} {s t : State} (w : WritesWithin i d n s t)
include w

theorem mono {k : Nat} (h : n ≤ k) : WritesWithin i d k s t :=
  { w with cycles := w.cycles.trans (Nat.add_le_add_left h _) }

/-- Operations that leave the registers alone do not count. -/
theorem same {u : State} (h : SameRegisters t u) : WritesWithin i d n s u where
  flags f hf := h.p ▸ w.flags f hf
  a hi := h.a.trans (w.a hi)
  x hi := h.x.trans (w.x hi)
  y hi := h.y.trans (w.y hi)
  pc hi := h.pc.trans (w.pc hi)
  sp hi := h.sp.trans (w.sp hi)
  cycles := h.cycles ▸ w.cycles

theorem setA (hi : writesA i = true) (v : Byte) : WritesWithin i d n s (t.setA v) :=
  { w with a := fun h => absurd (hi.symm.trans h) nofun }

theorem setX (hi : writesX i = true) (v : Byte) : WritesWithin i d n s (t.setX v) :=
  { w with x := fun h => absurd (hi.symm.trans h) nofun }

theorem setY (hi : writesY i = true) (v : Byte) : WritesWithin i d n s (t.setY v) :=
  { w with y := fun h => absurd (hi.symm.trans h) nofun }

/-- TXS alone loads `SP` (R191). -/
theorem setSp (hi : i = .txs) (v : Byte) : WritesWithin i d n s (t.setSp v) :=
  { w with sp := fun h => absurd hi h }

theorem setPc (hi : writesPC i = true) (v : Word) : WritesWithin i d n s (t.setPc v) :=
  { w with pc := fun h => absurd (hi.symm.trans h) nofun }

/-- A whole-byte write of `P` is for the instructions that may write every flag (R30). -/
theorem setP (hi : ∀ f, f ∈ flagsWrittenBy i) (v : Byte) : WritesWithin i d n s (t.setP v) :=
  { w with flags := fun f hf => absurd (hi f) hf }

theorem setFlag {g : Flag} (hg : g ∈ flagsWrittenBy i) (v : Bool) : WritesWithin i d n s (t.setFlag g v) :=
  { w with flags := fun f hf => (getFlag_setFlag_ne (by rintro rfl; exact hf hg) v t.p).trans (w.flags f hf) }

theorem setZN (hf : ∀ f ∈ [Flag.z, .n], f ∈ flagsWrittenBy i) (v : Byte) : WritesWithin i d n s (t.setZN v) :=
  (w.setFlag (hf .z (by decide)) (v == 0)).setFlag (hf .n (by decide)) (v.getLsbD 7)

theorem setFetched (v : Byte) : WritesWithin i d n s (t.setFetched v) := w.same ⟨rfl, rfl, rfl, rfl, rfl, rfl, rfl⟩

theorem setAddressRel (v : Word) : WritesWithin i d n s (t.setAddressRel v) := w.same ⟨rfl, rfl, rfl, rfl, rfl, rfl, rfl⟩

theorem addCycles (k : Nat) : WritesWithin i d (n + k) s (t.setCycles (t.cycles + k)) :=
  { w with cycles := (Nat.add_le_add_right w.cycles k).trans_eq (Nat.add_assoc ..) }

theorem push8 {u : State} {v : Byte} (h : push8 v t = .next u) : WritesWithin i (d - 1) n s u := by
  rw [push8_state h]
  refine { w with sp := fun hi => ?_ }
  rw [State.setSp_sp, w.sp hi]
  bv_omega

theorem push16 {u : State} {v : Word} (h : push16 v t = .next u) : WritesWithin i (d - 1 - 1) n s u := by
  obtain ⟨u1, h1, h2⟩ := push16_eq_next.1 h
  exact (w.push8 h1).push8 h2

theorem pull8 {u : State} {v : Byte} (h : pull8 t = .next (v, u)) : WritesWithin i (d + 1) n s u := by
  rw [(pull8_state h).1]
  refine { w with sp := fun hi => ?_ }
  rw [State.setDraws_sp, State.setSp_sp, w.sp hi, BitVec.add_assoc]

theorem pull16 {u : State} {v : Word} (h : pull16 t = .next (v, u)) : WritesWithin i (d + 1 + 1) n s u := by
  obtain ⟨l, u1, hb, h1, h2, -⟩ := pull16_eq_next.1 h
  exact (w.pull8 h1).pull8 h2

theorem writeBack {u : State} {o : Operand} {r : Byte} (h : writeBack o r t = .next u) (hi : o = .imp → writesA i = true) :
    WritesWithin i d n s u := by
  cases o with
  | imp => cases h; exact w.setA (hi rfl) r
  | _ => exact w.same (busWrite_sameRegisters h)

theorem addBonus (earned : Bool) : WritesWithin i d (n + 1) s (addBonus earned t) := by
  cases earned with
  | false => exact w.mono (Nat.le_succ n)
  | true => exact w.addCycles 1

theorem branch (hi : writesPC i = true) (cond : Bool) : WritesWithin i d (n + 2) s (branch cond t) := by
  cases cond with
  | false => exact w.mono (Nat.le_add_right n 2)
  | true =>
    refine WritesWithin.setPc ?_ hi _
    split
    · exact w.addCycles 2
    · exact (w.addCycles 1).mono (Nat.le_succ _)

theorem applyAdd (ha : writesA i = true) (hf : ∀ f ∈ [Flag.v, .c, .z, .n], f ∈ flagsWrittenBy i) (r : AddResult) :
    WritesWithin i d n s (t.applyAdd r) :=
  (((w.setFlag (hf .c (by decide)) r.carry).setFlag (hf .v (by decide)) r.overflow).setZN
    (fun f h => hf f (List.mem_cons_of_mem _ (List.mem_cons_of_mem _ h))) r.sum).setA ha r.sum

theorem compare (hf : ∀ f ∈ [Flag.c, .z, .n], f ∈ flagsWrittenBy i) (reg m : Byte) :
    WritesWithin i d n s (t.compare reg m) :=
  (w.setFlag (hf .c (by decide)) _).setZN (fun f h => hf f (List.mem_cons_of_mem _ h)) _

theorem bitTest (hf : ∀ f ∈ [Flag.z, .n, .v], f ∈ flagsWrittenBy i) (m : Byte) : WritesWithin i d n s (t.bitTest m) :=
  ((w.setFlag (hf .z (by decide)) _).setFlag (hf .n (by decide)) _).setFlag (hf .v (by decide)) _

theorem takeTrap {kind : TrapKind} {ret : Word} {u : State} (h : takeTrap kind ret t = .next u) (hpc : writesPC i = true)
    (hf : ∀ f ∈ [Flag.i, .b, .u], f ∈ flagsWrittenBy i) : WritesWithin i (d - 1 - 1 - 1) n s u := by
  obtain ⟨t0, t1, t2, t3, target, rfl, h1, h2, h3, rfl⟩ := takeTrap_cases h
  have w0 : WritesWithin i d n s (if kind = .brk then t.setFlag .i true else t) := by
    split
    · exact w.setFlag (hf .i (by decide)) true
    · exact w
  have w1 := ((w0.push16 h1).setFlag (hf .b (by decide)) (kind = .brk)).setFlag (hf .u (by decide)) true
  have w2 := ((w1.push8 h2).setFlag (hf .b (by decide)) false).setFlag (hf .i (by decide)) true
  exact (w2.same (read16_sameRegisters h3)).setPc hpc target

theorem returnFromTrap {u : State} (h : returnFromTrap t = .next u) (hpc : writesPC i = true)
    (hf : ∀ f, f ∈ flagsWrittenBy i) : WritesWithin i (d + 1 + 1 + 1) n s u := by
  obtain ⟨flags, t1, target, t2, h1, h2, rfl⟩ := returnFromTrap_cases h
  have w1 := (((w.pull8 h1).setP hf flags).setFlag (hf .b) false).setFlag (hf .u) false
  exact (w1.pull16 h2).setPc hpc target

end

/-! ## The families' shapes -/

section
variable {i : Instr} {o : Operand} {s t : State}

theorem of_withOperand {eligible : Bool} {effect : Byte → State → State} (h : withOperand o eligible effect s = .next t)
    (he : ∀ m u, WritesWithin i 0 0 s u → WritesWithin i 0 0 s (effect m u)) : WritesWithin i 0 2 s t := by
  obtain ⟨c, s1, m, s2, hr, hm, rfl⟩ := withOperand_eq_next.1 h
  have w := ((refl i s).same (resolve_sameRegisters hr)).same (fetchOperand_sameRegisters hm)
  exact ((he m s2 w).addBonus _).mono (by decide)

theorem of_storeOperand {value : State → Byte} (h : storeOperand o value s = .next t) : WritesWithin i 0 2 s t := by
  obtain ⟨c, s1, hr, hw⟩ := storeOperand_eq_next.1 h
  exact (((refl i s).same (resolve_sameRegisters hr)).same (busWrite_sameRegisters hw)).mono (by decide)

theorem of_modifyOperand {f : Byte → Byte} (h : modifyOperand o f s = .next t)
    (hf : ∀ f ∈ [Flag.z, .n], f ∈ flagsWrittenBy i) : WritesWithin i 0 2 s t := by
  obtain ⟨c, s1, m, s2, s3, hr, hm, hw, rfl⟩ := modifyOperand_eq_next.1 h
  have w := ((refl i s).same (resolve_sameRegisters hr)).same (fetchOperand_sameRegisters hm)
  exact ((w.same (busWrite_sameRegisters hw)).setZN hf _).mono (by decide)

theorem of_shiftOperand {f : Bool → Byte → ShiftResult} (h : shiftOperand o f s = .next t)
    (ha : o = .imp → writesA i = true) (hf : ∀ f ∈ [Flag.c, .z, .n], f ∈ flagsWrittenBy i) : WritesWithin i 0 2 s t := by
  obtain ⟨c, s1, m, s2, hr, hm, hw⟩ := shiftOperand_eq_next.1 h
  have w := ((refl i s).same (resolve_sameRegisters hr)).same (fetchOperand_sameRegisters hm)
  have wf := w.setFlag (hf .c (by decide)) (f (s2.flag .c) m).carry
  have wz := wf.setZN (fun g hg => hf g (List.mem_cons_of_mem _ hg)) (f (s2.flag .c) m).value
  exact (wz.writeBack hw ha).mono (by decide)

theorem of_implied {effect : State → State} (h : implied effect s = .next t)
    (he : ∀ u, WritesWithin i 0 0 s u → WritesWithin i 0 0 s (effect u)) : WritesWithin i 0 2 s t := by
  obtain rfl := implied_eq_next.1 h
  exact (he _ ((refl i s).setFetched s.a)).mono (by decide)

theorem of_branchOn {disp : Byte} {cond : State → Bool} (h : branchOn disp cond s = .next t) (hi : writesPC i = true) :
    WritesWithin i 0 2 s t := by
  obtain rfl := branchOn_eq_next.1 h
  exact ((refl i s).setAddressRel _).branch hi _

/-- What follows the resolver starts from a state with nothing written. -/
theorem of_andThen_resolve {d : Byte} {k : Bool × State → Result State} (h : andThen (resolve o s) k = .next t)
    (hk : ∀ c u, k (c, u) = .next t → WritesWithin i 0 0 s u → WritesWithin i d 0 s t) : WritesWithin i d 2 s t := by
  obtain ⟨⟨c, u⟩, hr, hu⟩ := andThen_eq_next.1 h
  exact (hk c u hu ((refl i s).same (resolve_sameRegisters hr))).mono (by decide)

end

end WritesWithin

open WritesWithin

/-- PLP and RTI may write every flag (R283, R285). -/
theorem mem_flagsWrittenBy_of_pull {i : Instr} (hi : i = .plp ∨ i = .rti) (f : Flag) : f ∈ flagsWrittenBy i := by
  obtain rfl | rfl := hi <;> cases f <;> decide

/-! ## The instructions with a shape of their own -/

theorem execJmp_writesWithin {o : Operand} {s t : State} (h : execJmp o s = .next t) : WritesWithin (.jmp o) 0 2 s t := by
  refine of_andThen_resolve h fun c u hu w => ?_
  cases hu
  exact w.setPc rfl _

theorem execJsr_writesWithin {addr : Word} {s t : State} (h : execJsr addr s = .next t) :
    WritesWithin (.jsr addr) 0xFE 2 s t := by
  refine of_andThen_resolve h fun c u hu w => ?_
  obtain ⟨u1, hp, hu1⟩ := andThen_eq_next.1 hu
  cases hu1
  exact ((w.setPc rfl (u.pc - 1)).push16 hp).setPc rfl _

theorem execRts_writesWithin {s t : State} (h : execRts s = .next t) : WritesWithin .rts 2 2 s t := by
  refine of_andThen_resolve h fun c u hu w => ?_
  obtain ⟨⟨target, u1⟩, hp, hu1⟩ := andThen_eq_next.1 hu
  cases hu1
  exact (w.pull16 hp).setPc rfl _

theorem execPha_writesWithin {s t : State} (h : execPha s = .next t) : WritesWithin .pha 0xFF 2 s t :=
  of_andThen_resolve h fun _ _ hu w => w.push8 hu

theorem execPhp_writesWithin {s t : State} (h : execPhp s = .next t) : WritesWithin .php 0xFF 2 s t :=
  of_andThen_resolve h fun _ _ hu w => w.push8 hu

theorem execPla_writesWithin {s t : State} (h : execPla s = .next t) : WritesWithin .pla 1 2 s t := by
  refine of_andThen_resolve h fun c u hu w => ?_
  obtain ⟨⟨m, u1⟩, hp, hu1⟩ := andThen_eq_next.1 hu
  cases hu1
  exact ((w.pull8 hp).setA rfl m).setZN (by decide) m

theorem execPlp_writesWithin {s t : State} (h : execPlp s = .next t) : WritesWithin .plp 1 2 s t := by
  refine of_andThen_resolve h fun c u hu w => ?_
  obtain ⟨⟨m, u1⟩, hp, hu1⟩ := andThen_eq_next.1 hu
  cases hu1
  exact (((w.pull8 hp).setP (mem_flagsWrittenBy_of_pull (.inl rfl)) m).setFlag (by decide) false).setFlag (by decide) false

theorem execBrk_writesWithin {s t : State} (h : execBrk s = .next t) : WritesWithin .brk 0xFD 2 s t :=
  of_andThen_resolve h fun _ _ hu w => (w.setPc rfl _).takeTrap hu rfl (by decide)

theorem execRti_writesWithin {s t : State} (h : execRti s = .next t) : WritesWithin .rti 3 2 s t :=
  of_andThen_resolve h fun _ _ hu w => w.returnFromTrap hu rfl (mem_flagsWrittenBy_of_pull (.inr rfl))

/-! ## Every instruction -/

/-- Every instruction that completes wrote only what the rules list it as a writer of (R20 to R27, R31 to R35), and took at
most two extra cycles (R144, R260): by the shape its meaning has. -/
theorem exec_writesWithin {i : Instr} {s t : State} (h : exec i s = .next t) : WritesWithin i (stackMove i) 2 s t := by
  cases i with
  | adc o | sbc o =>
    simp only [exec, execAdc, execSbc] at h
    exact of_withOperand h fun _ _ w => w.applyAdd rfl (by simp [flagsWrittenBy]) _
  | and o | eor o | ora o | lda o =>
    simp only [exec, execAnd, execEor, execOra, execLda] at h
    exact of_withOperand h fun _ _ w => (w.setA rfl _).setZN (by simp [flagsWrittenBy]) _
  | ldx o =>
    simp only [exec, execLdx] at h
    exact of_withOperand h fun _ _ w => (w.setX rfl _).setZN (by simp [flagsWrittenBy]) _
  | ldy o =>
    simp only [exec, execLdy] at h
    exact of_withOperand h fun _ _ w => (w.setY rfl _).setZN (by simp [flagsWrittenBy]) _
  | cmp o | cpx o | cpy o =>
    simp only [exec, execCmp, execCpx, execCpy] at h
    exact of_withOperand h fun _ _ w => w.compare (by simp [flagsWrittenBy]) _ _
  | bit o =>
    simp only [exec, execBit] at h
    exact of_withOperand h fun _ _ w => w.bitTest (by simp [flagsWrittenBy]) _
  | sta o | stx o | sty o =>
    simp only [exec, execSta, execStx, execSty] at h
    exact of_storeOperand h
  | inc o | dec o =>
    simp only [exec, execInc, execDec] at h
    exact of_modifyOperand h (by simp [flagsWrittenBy])
  | asl o | lsr o | rol o | ror o =>
    simp only [exec, execAsl, execLsr, execRol, execRor] at h
    exact of_shiftOperand h (by rintro rfl; rfl) (by simp [flagsWrittenBy])
  | bcc d | bcs d | beq d | bmi d | bne d | bpl d | bvc d | bvs d =>
    simp only [exec, execBcc, execBcs, execBeq, execBmi, execBne, execBpl, execBvc, execBvs] at h
    exact of_branchOn h rfl
  | clc | cld | cli | clv | sec | sed | sei =>
    simp only [exec, execClc, execCld, execCli, execClv, execSec, execSed, execSei] at h
    exact of_implied h fun _ w => w.setFlag (by simp [flagsWrittenBy]) _
  | nop | dnop =>
    simp only [exec, execNop, execDnop] at h
    exact of_implied h fun _ w => w
  | txa | tya =>
    simp only [exec, execTxa, execTya] at h
    exact of_implied h fun _ w => (w.setA rfl _).setZN (by simp [flagsWrittenBy]) _
  | tax | tsx | inx | dex =>
    simp only [exec, execTax, execTsx, execInx, execDex] at h
    exact of_implied h fun _ w => (w.setX rfl _).setZN (by simp [flagsWrittenBy]) _
  | tay | iny | dey =>
    simp only [exec, execTay, execIny, execDey] at h
    exact of_implied h fun _ w => (w.setY rfl _).setZN (by simp [flagsWrittenBy]) _
  | txs =>
    simp only [exec, execTxs] at h
    exact of_implied h fun _ w => w.setSp rfl _
  | jmp o => exact execJmp_writesWithin h
  | jsr addr => exact execJsr_writesWithin h
  | rts => exact execRts_writesWithin h
  | pha => exact execPha_writesWithin h
  | php => exact execPhp_writesWithin h
  | pla => exact execPla_writesWithin h
  | plp => exact execPlp_writesWithin h
  | brk => exact execBrk_writesWithin h
  | rti => exact execRti_writesWithin h

/-- Settles O50: the flags part of what every instruction writes (`exec_writesWithin`). -/
theorem flagsAreWrittenOnlyByTheirWriters : Obligations.FlagsAreWrittenOnlyByTheirWriters := by
  unfold Obligations.FlagsAreWrittenOnlyByTheirWriters
  intro i s t f h
  exact (exec_writesWithin h).flags f

/-- Settles O51: the register parts of what every instruction writes (`exec_writesWithin`). -/
theorem registersAreWrittenOnlyByTheirWriters : Obligations.RegistersAreWrittenOnlyByTheirWriters := by
  unfold Obligations.RegistersAreWrittenOnlyByTheirWriters
  intro i s t h
  have w := exec_writesWithin h
  exact ⟨w.a, w.x, w.y, w.pc⟩

/-- Settles O53: the stack pointer's part of what every instruction writes (`exec_writesWithin`). -/
theorem onlyTxsLoadsTheStackPointer : Obligations.OnlyTxsLoadsTheStackPointer := by
  unfold Obligations.OnlyTxsLoadsTheStackPointer
  intro i s t h
  exact (exec_writesWithin h).sp

end Sys2Proof.Machine
end

section
/-! SUPPORT. The invariant of the tick boundary: what an instruction, a step and an action of the host leave of `B` and of
the cycle count; and the fatal mark, under which an action leaves everything. -/

namespace Sys2Proof.Machine

open Sys2Proof.Safety Sys2Proof.Claims

/-! ## `B` in the register (R34) -/

theorem takeTrap_flag_b {kind : TrapKind} {ret : Word} {s t : State} (h : takeTrap kind ret s = .next t) :
    t.flag .b = false := by
  obtain ⟨s0, s1, s2, s3, target, -, -, -, h3, rfl⟩ := takeTrap_cases h
  have hp : s3.p = setFlag .i true (setFlag .b false s2.p) := (read16_sameRegisters h3).p
  simp [hp, getFlag_setFlag]

theorem returnFromTrap_flag_b {s t : State} (h : returnFromTrap s = .next t) : t.flag .b = false := by
  obtain ⟨flags, s1, target, s2, -, h2, rfl⟩ := returnFromTrap_cases h
  have hp : s2.p = setFlag .u false (setFlag .b false flags) := congrArg State.p (pull16_state h2).1
  simp [hp, getFlag_setFlag]

theorem execPlp_flag_b {s t : State} (h : execPlp s = .next t) : t.flag .b = false := by
  obtain ⟨⟨c, u⟩, -, hu⟩ := andThen_eq_next.1 h
  obtain ⟨⟨m, u1⟩, -, hu1⟩ := andThen_eq_next.1 hu
  cases hu1
  simp [getFlag_setFlag]

/-- BRK, PLP and RTI are the instructions that write `B` (R34). -/
theorem b_mem_flagsWrittenBy {i : Instr} : .b ∈ flagsWrittenBy i ↔ i = .brk ∨ i = .plp ∨ i = .rti := by
  cases i <;> simp [flagsWrittenBy]

/-- No instruction leaves `B` set: the three that write it leave it clear, the others leave it as it was. -/
theorem exec_flag_b {i : Instr} {s t : State} (h : exec i s = .next t) (hb : s.flag .b = false) : t.flag .b = false := by
  by_cases hi : .b ∈ flagsWrittenBy i
  · obtain rfl | rfl | rfl := b_mem_flagsWrittenBy.1 hi
    · obtain ⟨⟨c, u⟩, -, hu⟩ := andThen_eq_next.1 (show execBrk s = .next t from h)
      exact takeTrap_flag_b hu
    · exact execPlp_flag_b h
    · obtain ⟨⟨c, u⟩, -, hu⟩ := andThen_eq_next.1 (show execRti s = .next t from h)
      exact returnFromTrap_flag_b hu
  · exact ((exec_writesWithin h).flags .b hi).trans hb

/-! ## What the fetch leaves -/

theorem fetchByte_p {s t : State} {b : Byte} (h : fetchByte s = .next (b, t)) : t.p = s.p := by
  obtain ⟨⟨v, u⟩, hb, hu⟩ := andThen_eq_next.1 h
  cases hu
  rw [(busRead_state hb).1]
  rfl

theorem fetchBytes_p {n : Nat} {s t : State} {bs : List Byte} (h : fetchBytes n s = .next (bs, t)) : t.p = s.p := by
  induction n generalizing s bs with
  | zero => cases h; rfl
  | succ n ih =>
    obtain ⟨⟨b, u⟩, hb, hu⟩ := andThen_eq_next.1 h
    obtain ⟨⟨rest, v⟩, hr, hv⟩ := andThen_eq_next.1 hu
    cases hv
    exact (ih hr).trans (fetchByte_p hb)

/-- The fetch leaves the flag byte, and its base count is that of a record of the table. -/
theorem fetchInstr_cases {table : OpTable} {s t : State} {i : Instr} {base : Nat}
    (h : fetchInstr table s = .next (i, base, t)) : t.p = s.p ∧ ∃ opcode, base = (table.lookup opcode).baseCycles := by
  obtain ⟨⟨opcode, u⟩, hb, hu⟩ := andThen_eq_next.1 h
  obtain ⟨⟨operand, v⟩, hr, hv⟩ := andThen_eq_next.1 hu
  dsimp only at hv
  split at hv
  · cases hv
    exact ⟨(fetchBytes_p hr).trans (fetchByte_p hb), opcode, rfl⟩
  · cases hv

/-- No record of the default table takes more than 7 cycles (R120). -/
theorem defaultTable_baseCycles_le (opcode : Byte) : (defaultTable.lookup opcode).baseCycles ≤ 7 := by
  revert opcode
  decide

/-! ## The step -/

theorem instructionStep_flag_b {s t : State} (h : instructionStep s = .next t) (hb : s.flag .b = false) :
    t.flag .b = false := by
  obtain ⟨⟨i, base, u⟩, hf, he⟩ := andThen_eq_next.1 h
  have hp : u.p = s.p := (fetchInstr_cases hf).1
  refine exec_flag_b he ?_
  simpa [hp] using hb

/-- Under the default table an instruction step loads at most 9 cycles: a base count of at most 7, and two extra cycles. -/
theorem instructionStep_cycles_le {s t : State} (h : instructionStep s = .next t) (ht : s.opTable = defaultTable) :
    t.cycles ≤ 9 := by
  obtain ⟨⟨i, base, u⟩, hf, he⟩ := andThen_eq_next.1 h
  obtain ⟨-, opcode, rfl⟩ := fetchInstr_cases hf
  have hbase := defaultTable_baseCycles_le opcode
  have hexec := (exec_writesWithin he).cycles
  simp only [State.setCycles_cycles, State.setAddressRel_opTable, State.setAddressAbs_opTable, ht] at hexec
  omega

/-- The invariant carries over an operation that keeps the configuration, given the flag and the count it leaves. -/
theorem inv_of_keeps {s t : State} (hs : Inv s) (k : Keeps s t) (hb : t.flag .b = false)
    (hc : s.opTable = defaultTable → t.cycles ≤ 8) : Inv t := by
  obtain ⟨hwf, -, -⟩ := hs
  exact ⟨k.wf hwf, hb, fun ht => hc (k.table.symm.trans ht)⟩

/-- Settles O55: by the three ways a step can answer (`step_cases`); an instruction step keeps the storage (`step_keeps`),
leaves `B` clear, and loads at most 9 cycles, of which the tick takes one. -/
theorem everyStepKeepsTheInvariant : Obligations.EveryStepKeepsTheInvariant := by
  unfold Obligations.EveryStepKeepsTheInvariant
  intro s t hs h
  have ⟨_, hb, hc⟩ := hs
  have k := step_keeps h
  obtain ⟨-, rfl⟩ | ⟨-, -, -, u, hu, rfl⟩ | ⟨-, -, -, rfl⟩ := step_cases h
  · exact hs
  · have hub := instructionStep_flag_b hu hb
    exact inv_of_keeps hs k hub fun ht => Nat.sub_le_of_le_add (instructionStep_cycles_le hu ht)
  · exact inv_of_keeps hs k hb fun ht => (Nat.sub_le _ _).trans (hc ht)

/-! ## The actions of the host -/

/-- Settling an operation keeps the invariant when its answer has it: a fatal sets the mark alone. -/
theorem inv_settle {s : State} {r : Result State} (hs : Inv s) (hr : ∀ t, r = .next t → Inv t) : Inv (settle s r) := by
  cases r with
  | next t => exact hr t rfl
  | fault f => exact hs
  | refused r => exact hs

/-- A read by any originator changes at most the draw count. -/
theorem busReadAs_state {o : Originator} {a : Word} {s t : State} {v : Byte} (h : busReadAs o a s = .next (v, t)) :
    t = s.setDraws t.draws := by
  obtain ⟨-, n, d, -, ⟨r, i, -, -, rfl⟩ | ⟨-, -, rfl⟩⟩ := busReadAs_cases h <;> rfl

theorem inv_busReadAs {o : Originator} {a : Word} {s t : State} (hs : Inv s)
    (h : (andThen (busReadAs o a s) fun e => .next e.2) = .next t) : Inv t := by
  obtain ⟨⟨v, u⟩, hu, h⟩ := andThen_eq_next.1 h
  cases h
  rw [busReadAs_state hu]
  exact hs

/-- A write by any originator changes at most the device list. -/
theorem busWriteAs_state {o : Originator} {a : Word} {v : Byte} {s t : State} (h : busWriteAs o a v s = .next t) :
    t = s.setDevices t.devices := by
  obtain ⟨-, n, d, -, ⟨r, i, -, rfl⟩ | ⟨-, rfl⟩⟩ := busWriteAs_cases h <;> rfl

theorem inv_busWriteAs {o : Originator} {a : Word} {v : Byte} {s t : State} (hs : Inv s)
    (h : busWriteAs o a v s = .next t) : Inv t := by
  obtain ⟨hwf, hb, hc⟩ := hs
  have hm := memoryWf_busWriteAs hwf h
  rw [busWriteAs_state h] at hm ⊢
  exact ⟨hm, hb, hc⟩

/-- A reset that is performed leaves the parameters' `B` and eight cycles (R330). -/
theorem inv_resetMachine {rp : Config.ResetParams} {s t : State} (hrp : getFlag .b rp.pOther = false) (hs : Inv s)
    (h : resetMachine rp s = .next t) : Inv t := by
  unfold resetMachine at h
  split at h
  · cases h; exact hs
  · obtain ⟨⟨target, u⟩, hu, h⟩ := andThen_eq_next.1 h
    cases h
    have k := read16_keeps hu
    refine inv_of_keeps hs ⟨k.wf, k.config, k.fatal, k.connected, k.table⟩ ?_ fun _ => Nat.le_refl 8
    have hp : u.p = setFlag .u true rp.pOther := (read16_sameRegisters hu).p
    simp [hp, getFlag_setFlag, hrp]

/-- A request that is served enters through the trap and loads 7 or 8 cycles; any other changes nothing (R302, R303). -/
theorem inv_interrupt {nonMaskable : Bool} {s t : State} (hs : Inv s) (h : interrupt nonMaskable s = .next t) : Inv t := by
  unfold interrupt at h
  split at h
  · cases h; exact hs
  · split at h
    · cases h; exact hs
    · obtain ⟨u, hu, h⟩ := andThen_eq_next.1 h
      cases h
      have hub := takeTrap_flag_b hu
      refine inv_of_keeps hs ((takeTrap_keeps hu).trans (.of_eq rfl rfl rfl rfl)) hub fun _ => ?_
      cases nonMaskable <;> simp

/-- Settles O57: every action is one operation, settled (`hostAct_eq_settle`), and each operation that answers keeps the
invariant. -/
theorem everyHostCallKeepsTheInvariant : Obligations.EveryHostCallKeepsTheInvariant := by
  unfold Obligations.EveryHostCallKeepsTheInvariant
  intro rp call s hrp hs
  rw [hostAct_eq_settle]
  refine inv_settle hs fun t h => ?_
  cases call with
  | tick => exact everyStepKeepsTheInvariant s t hs h
  | reset => exact inv_resetMachine hrp hs h
  | interrupt nmi => exact inv_interrupt hs h
  | read a | pictureRead a => exact inv_busReadAs hs h
  | write a v | pictureWrite a v => exact inv_busWriteAs hs h
  | cloneState => cases h; exact hs

/-! ## The fatal mark absorbs -/

/-- Under the fatal mark every action answers the state itself or the same fatal again. -/
theorem actionResult_of_fatal {rp : Config.ResetParams} {call : HostAction} {s : State} {f : Fault} (hf : s.fatal = some f) :
    actionResult rp s call = .next s ∨ actionResult rp s call = .fault f := by
  cases call with
  | tick => left; simp [actionResult, step, tick, hf]
  | reset => left; simp [actionResult, resetMachine, hf]
  | interrupt nmi => left; simp [actionResult, interrupt, hf]
  | cloneState => exact .inl rfl
  | read a | pictureRead a => right; simp [actionResult, busReadAs_of_fatal hf]
  | write a v | pictureWrite a v => exact .inr (busWriteAs_of_fatal hf)

/-- Settles O7: what such an action answers settles to the state it was called in. -/
theorem theFatalMarkAbsorbsEveryCall : Obligations.TheFatalMarkAbsorbsEveryCall := by
  unfold Obligations.TheFatalMarkAbsorbsEveryCall
  intro rp call s f hf
  rw [hostAct_eq_settle]
  obtain h | h := actionResult_of_fatal (rp := rp) (call := call) hf
  · rw [h, settle_next]
  · rw [h, settle_fault, setFatal_of_fatal hf]

end Sys2Proof.Machine
end

section
/-! SUPPORT. Writing a flag commutes with the bus, the resolver and the operand fetch, which do not read `P`. -/

namespace Sys2Proof.Machine

open Sys2Proof.Claims

/-- The answer of an operation, with a flag of the state it leaves written. -/
def flagAfter {α : Type} (g : Flag) (v : Bool) (r : Result (α × State)) : Result (α × State) :=
  andThen r fun e => .next (e.1, e.2.setFlag g v)

theorem busRead_setFlag (g : Flag) (v : Bool) (a : Word) (s : State) :
    busRead a (s.setFlag g v) = flagAfter g v (busRead a s) := by
  unfold busRead busReadAs
  rw [show route .processor a (s.setFlag g v) = route .processor a s from rfl, flagAfter, andThen_assoc]
  congr 1
  funext ⟨n, d, t⟩
  cases t <;> rfl

/-- A flag written before an operation that does not read it is written after it. -/
theorem andThen_flagAfter {α β : Type} {g : Flag} {v : Bool} {r : Result (α × State)}
    {k : α × State → Result (β × State)}
    (hk : ∀ b u, k (b, u.setFlag g v) = flagAfter g v (k (b, u))) :
    andThen (flagAfter g v r) k = flagAfter g v (andThen r k) := by
  cases r with
  | next e => exact hk e.1 e.2
  | fault f => rfl
  | refused f => rfl

theorem resolve_setFlag (g : Flag) (v : Bool) (o : Operand) (s : State) :
    resolve o (s.setFlag g v) = flagAfter g v (resolve o s) := by
  cases o with
  | ind ptr | izx t | izy t =>
    simp only [resolve, State.setFlag_x, busRead_setFlag]
    refine andThen_flagAfter fun l u => ?_
    simp only [State.setFlag_x, busRead_setFlag]
    exact andThen_flagAfter fun h u => rfl
  | _ => rfl

theorem fetchOperand_setFlag (g : Flag) (v : Bool) (o : Operand) (s : State) :
    fetchOperand o (s.setFlag g v) = flagAfter g v (fetchOperand o s) := by
  cases o with
  | imp | imm b => rfl
  | _ =>
    simp only [fetchOperand, State.setFlag_addressAbs, busRead_setFlag]
    exact andThen_flagAfter fun m u => rfl

theorem addBonus_setFlag (g : Flag) (v earned : Bool) (s : State) :
    addBonus earned (s.setFlag g v) = (addBonus earned s).setFlag g v := by
  cases earned <;> rfl

/-- An operation that reads its operand commutes with writing a flag when its effect does. -/
theorem withOperand_setFlag {g : Flag} {v : Bool} {o : Operand} {eligible : Bool} {effect : Byte → State → State}
    (s : State) (he : ∀ m u, effect m (u.setFlag g v) = (effect m u).setFlag g v) :
    withOperand o eligible effect (s.setFlag g v) = mapNext (fun t => t.setFlag g v) (withOperand o eligible effect s) := by
  unfold withOperand
  rw [resolve_setFlag]
  cases resolve o s with
  | fault f | refused f => rfl
  | next e =>
    simp only [flagAfter, andThen_next, fetchOperand_setFlag]
    cases fetchOperand o e.2 with
    | fault f | refused f => rfl
    | next e' => simp only [andThen_next, mapNext, he, addBonus_setFlag]

/-- An addition does not read `D` and leaves it. -/
theorem applyAdd_setFlag_d (r : AddResult) (d : Bool) (s : State) :
    (s.setFlag .d d).applyAdd r = (s.applyAdd r).setFlag .d d := by
  have hp : ((s.setFlag .d d).applyAdd r).p = ((s.applyAdd r).setFlag .d d).p := by
    refine flags_ext fun f => ?_
    simp only [State.applyAdd_p, State.setFlag_p, getFlag_znFlags, getFlag_setFlag]
    cases f <;> simp
  exact State.ext rfl rfl rfl rfl rfl hp rfl rfl rfl rfl rfl rfl rfl rfl rfl

theorem flag_c_setFlag_d (d : Bool) (s : State) : (s.setFlag .d d).flag .c = s.flag .c :=
  getFlag_setFlag_ne (by decide) d s.p

/-- Settles O23: no operation that ADC and SBC are made of reads `D` (`withOperand_setFlag`, `applyAdd_setFlag_d`). -/
theorem adcAndSbcIgnoreDecimal : Obligations.AdcAndSbcIgnoreDecimal := by
  unfold Obligations.AdcAndSbcIgnoreDecimal
  intro o s d
  constructor <;>
  · simp only [exec, execAdc, execSbc]
    refine withOperand_setFlag s fun m u => ?_
    rw [applyAdd_setFlag_d, flag_c_setFlag_d, State.setFlag_a]

end Sys2Proof.Machine
end

section
/-! SUPPORT. A table that meets R115 decodes every opcode byte that its operand bytes follow. -/

namespace Sys2Proof

/-- Enough bytes hold an operand of the mode (R111). -/
theorem takeOperand_of_length {m : Mode} {bytes : List Byte} (h : m.operandCount ≤ bytes.length) :
    ∃ o rest, takeOperand m bytes = some (o, rest) := by
  match m, bytes, h with
  | .imp, _, _ => exact ⟨_, _, rfl⟩
  | .imm, _ :: _, _ | .zp0, _ :: _, _ | .zpx, _ :: _, _ | .zpy, _ :: _, _ | .izx, _ :: _, _ | .izy, _ :: _, _
  | .rel, _ :: _, _ => exact ⟨_, _, rfl⟩
  | .abs, _ :: _ :: _, _ | .abx, _ :: _ :: _, _ | .aby, _ :: _ :: _, _ | .ind, _ :: _ :: _, _ => exact ⟨_, _, rfl⟩

theorem eq_imp_of_mode {o : Operand} (h : o.mode = .imp) : o = .imp := by
  cases o with
  | imp => rfl
  | _ => cases h

theorem eq_rel_of_mode {o : Operand} (h : o.mode = .rel) : ∃ d, o = .rel d := by
  cases o with
  | rel d => exact ⟨d, rfl⟩
  | _ => cases h

theorem eq_abs_of_mode {o : Operand} (h : o.mode = .abs) : ∃ w, o = .abs w := by
  cases o with
  | abs w => exact ⟨w, rfl⟩
  | _ => cases h

/-- What R115 (a), (b) and (c) ask of the mode of a lawful record, as far as `Instr` depends on it. -/
theorem OpRecord.mode_of_lawful {r : OpRecord} (h : r.lawful = true) :
    (r.mnemonic.isBranch = true → r.mode = .rel) ∧ (r.mnemonic = .jsr → r.mode = .abs) ∧
    (r.mnemonic.impliedOnly = true → r.mode = .imp) := by
  simp only [OpRecord.lawful, Bool.and_eq_true] at h
  obtain ⟨⟨⟨⟨⟨⟨hbranch, -⟩, hjsr⟩, -⟩, himplied⟩, -⟩, -⟩ := h
  refine ⟨fun hm => ?_, fun hm => ?_, fun hm => ?_⟩
  · simpa [hm] using hbranch
  · simpa [hm] using hjsr
  · simpa [hm] using himplied

/-- A lawful record and an operand of its mode make an instruction: the mnemonics that are particular about their operand
are the branches, JSR and those of mode `IMP` only. -/
theorem assemble_of_lawful {r : OpRecord} (h : r.lawful = true) {o : Operand} (ho : o.mode = r.mode) (opcode : Byte) :
    ∃ i, assemble opcode r.mnemonic o = some i := by
  obtain ⟨hbranch, hjsr, himplied⟩ := r.mode_of_lawful h
  cases hm : r.mnemonic with
  | adc | and | asl | bit | cmp | cpx | cpy | dec | eor | inc | jmp | lda | ldx | ldy | lsr | ora | rol | ror | sbc | sta | stx
  | sty => exact ⟨_, rfl⟩
  | bcc | bcs | beq | bmi | bne | bpl | bvc | bvs =>
    obtain ⟨d, rfl⟩ := eq_rel_of_mode (ho.trans (hbranch (by rw [hm]; rfl)))
    exact ⟨_, rfl⟩
  | jsr =>
    obtain ⟨w, rfl⟩ := eq_abs_of_mode (ho.trans (hjsr hm))
    exact ⟨_, rfl⟩
  | brk | clc | cld | cli | clv | dex | dey | inx | iny | nop | pha | php | pla | plp | rti | rts | sec | sed | sei | tax | tay
  | tsx | txa | txs | tya | dnop =>
    obtain rfl := eq_imp_of_mode (ho.trans (himplied (by rw [hm]; rfl)))
    exact ⟨_, rfl⟩

/-- Under a table that meets R115 an opcode byte decodes with any bytes after it that are enough for its mode. -/
theorem decodeWith_of_lawful {t : OpTable} (h : t.lawful = true) {opcode : Byte} {bytes : List Byte}
    (hl : (t.lookup opcode).mode.operandCount ≤ bytes.length) :
    ∃ i, decodeWith t (opcode :: bytes) = .ok (i, bytes.drop (t.lookup opcode).mode.operandCount) := by
  obtain ⟨o, rest, ho⟩ := takeOperand_of_length hl
  obtain ⟨hmode, -, hrest⟩ := takeOperand_eq_some ho
  obtain ⟨i, hi⟩ := assemble_of_lawful (OpTable.lookup_lawful h opcode) hmode opcode
  refine ⟨i, ?_⟩
  rw [decodeWith_cons rfl, ho]
  simp only [hi, hrest]

end Sys2Proof
end

section
/-! SUPPORT. Where every address is served, every instruction, the fetch under a lawful table, and the step answer. -/

namespace Sys2Proof.Machine

open Sys2Proof.Safety

/-! ## The families' shapes -/

theorem withOperand_answers {s : State} (h : Served s) (o : Operand) (eligible : Bool) (effect : Byte → State → State) :
    ∃ t, withOperand o eligible effect s = .next t := by
  obtain ⟨c, s1, hr, h1⟩ := resolve_served h o
  obtain ⟨m, s2, hm, -⟩ := fetchOperand_served h1 o
  exact ⟨_, withOperand_eq_next.2 ⟨c, s1, m, s2, hr, hm, rfl⟩⟩

theorem storeOperand_answers {s : State} (h : Served s) (o : Operand) (value : State → Byte) :
    ∃ t, storeOperand o value s = .next t := by
  obtain ⟨c, s1, hr, h1⟩ := resolve_served h o
  obtain ⟨t, hw, -⟩ := busWrite_served h1 s1.addressAbs (value s1)
  exact ⟨t, storeOperand_eq_next.2 ⟨c, s1, hr, hw⟩⟩

theorem modifyOperand_answers {s : State} (h : Served s) (o : Operand) (f : Byte → Byte) :
    ∃ t, modifyOperand o f s = .next t := by
  obtain ⟨c, s1, hr, h1⟩ := resolve_served h o
  obtain ⟨m, s2, hm, h2⟩ := fetchOperand_served h1 o
  obtain ⟨s3, hw, -⟩ := busWrite_served h2 s2.addressAbs (f m)
  exact ⟨_, modifyOperand_eq_next.2 ⟨c, s1, m, s2, s3, hr, hm, hw, rfl⟩⟩

theorem writeBack_answers {s : State} (h : Served s) (o : Operand) (r : Byte) : ∃ t, writeBack o r s = .next t := by
  obtain ⟨t, hw, -⟩ := busWrite_served h s.addressAbs r
  cases o with
  | imp => exact ⟨_, rfl⟩
  | _ => exact ⟨t, hw⟩

theorem shiftOperand_answers {s : State} (h : Served s) (o : Operand) (f : Bool → Byte → ShiftResult) :
    ∃ t, shiftOperand o f s = .next t := by
  obtain ⟨c, s1, hr, h1⟩ := resolve_served h o
  obtain ⟨m, s2, hm, h2⟩ := fetchOperand_served h1 o
  have hflags : Served ((s2.setFlag .c (f (s2.flag .c) m).carry).setZN (f (s2.flag .c) m).value) := h2
  obtain ⟨t, hw⟩ := writeBack_answers hflags o (f (s2.flag .c) m).value
  exact ⟨t, shiftOperand_eq_next.2 ⟨c, s1, m, s2, hr, hm, hw⟩⟩

/-! ## Every instruction -/

theorem returnFromTrap_answers {s : State} (h : Served s) : ∃ t, returnFromTrap s = .next t := by
  obtain ⟨flags, s1, hp, h1⟩ := pull8_served h
  have hflags : Served (((s1.setP flags).setFlag .b false).setFlag .u false) := h1
  obtain ⟨target, s2, hpc, -⟩ := pull16_served hflags
  exact ⟨_, andThen_eq_next.2 ⟨_, hp, andThen_eq_next.2 ⟨_, hpc, rfl⟩⟩⟩

theorem execJmp_answers {s : State} (h : Served s) (o : Operand) : ∃ t, execJmp o s = .next t := by
  obtain ⟨c, s1, hr, -⟩ := resolve_served h o
  exact ⟨_, andThen_eq_next.2 ⟨_, hr, rfl⟩⟩

theorem execJsr_answers {s : State} (h : Served s) (addr : Word) : ∃ t, execJsr addr s = .next t := by
  have hs : Served ((s.setAddressAbs addr).setPc (s.pc - 1)) := h
  obtain ⟨t, hp, -⟩ := push16_served hs (s.pc - 1)
  exact ⟨_, andThen_eq_next.2 ⟨_, rfl, andThen_eq_next.2 ⟨_, hp, rfl⟩⟩⟩

theorem execRts_answers {s : State} (h : Served s) : ∃ t, execRts s = .next t := by
  have hs : Served (s.setFetched s.a) := h
  obtain ⟨target, t, hp, -⟩ := pull16_served hs
  exact ⟨_, andThen_eq_next.2 ⟨_, rfl, andThen_eq_next.2 ⟨_, hp, rfl⟩⟩⟩

/-- PHA and PHP: one push after the resolver of mode `IMP`. -/
theorem push8_implied_answers {s : State} (h : Served s) (value : State → Byte) :
    ∃ t, (andThen (resolve .imp s) fun (_, s) => push8 (value s) s) = .next t := by
  have hs : Served (s.setFetched s.a) := h
  obtain ⟨t, hp, -⟩ := push8_served hs (value (s.setFetched s.a))
  exact ⟨t, hp⟩

/-- PLA and PLP: one pull after the resolver of mode `IMP`, and an effect of the byte. -/
theorem pull8_implied_answers {s : State} (h : Served s) (effect : Byte → State → State) :
    ∃ t, (andThen (resolve .imp s) fun (_, s) => andThen (pull8 s) fun (m, s) => .next (effect m s)) = .next t := by
  have hs : Served (s.setFetched s.a) := h
  obtain ⟨m, t, hp, -⟩ := pull8_served hs
  exact ⟨_, andThen_eq_next.2 ⟨_, rfl, andThen_eq_next.2 ⟨_, hp, rfl⟩⟩⟩

/-- Every instruction completes, by the shape its meaning has (R155). -/
theorem exec_answers {s : State} (h : Served s) (i : Instr) : ∃ t, exec i s = .next t := by
  have himplied : Served (s.setFetched s.a) := h
  cases i with
  | adc o | sbc o | and o | bit o | cmp o | cpx o | cpy o | eor o | lda o | ldx o | ldy o | ora o =>
    simp only [exec, execAdc, execSbc, execAnd, execBit, execCmp, execCpx, execCpy, execEor, execLda, execLdx, execLdy, execOra]
    exact withOperand_answers h o _ _
  | sta o | stx o | sty o =>
    simp only [exec, execSta, execStx, execSty]
    exact storeOperand_answers h o _
  | inc o | dec o =>
    simp only [exec, execInc, execDec]
    exact modifyOperand_answers h o _
  | asl o | lsr o | rol o | ror o =>
    simp only [exec, execAsl, execLsr, execRol, execRor]
    exact shiftOperand_answers h o _
  | bcc d | bcs d | beq d | bmi d | bne d | bpl d | bvc d | bvs d => exact ⟨_, rfl⟩
  | clc | cld | cli | clv | dex | dey | inx | iny | nop | sec | sed | sei | tax | tay | tsx | txa | txs | tya | dnop =>
    exact ⟨_, rfl⟩
  | jmp o => exact execJmp_answers h o
  | jsr w => exact execJsr_answers h w
  | rts => exact execRts_answers h
  | pha => exact push8_implied_answers h fun s => s.a
  | php => exact push8_implied_answers h fun s => s.p ||| 0x30
  | pla => exact pull8_implied_answers h fun m s => (s.setA m).setZN m
  | plp => exact pull8_implied_answers h fun m s => ((s.setP m).setFlag .b false).setFlag .u false
  | brk => exact takeTrap_served (s := (s.setFetched s.a).setPc (s.pc + 1)) himplied .brk (s.pc + 1)
  | rti => exact returnFromTrap_answers himplied

/-! ## The fetch and the step -/

theorem fetchByte_served {s : State} (h : Served s) : ∃ b t, fetchByte s = .next (b, t) ∧ Served t := by
  obtain ⟨b, t, hb, ht⟩ := busRead_served h s.pc
  exact ⟨b, _, andThen_eq_next.2 ⟨_, hb, rfl⟩, ht⟩

/-- The fetch of `n` bytes answers `n` bytes. -/
theorem fetchBytes_served {s : State} (h : Served s) (n : Nat) :
    ∃ bs t, fetchBytes n s = .next (bs, t) ∧ bs.length = n ∧ Served t := by
  induction n generalizing s with
  | zero => exact ⟨[], s, rfl, rfl, h⟩
  | succ n ih =>
    obtain ⟨b, s1, hb, h1⟩ := fetchByte_served h
    obtain ⟨bs, t, hbs, hlen, ht⟩ := ih h1
    exact ⟨b :: bs, t, andThen_eq_next.2 ⟨_, hb, andThen_eq_next.2 ⟨_, hbs, rfl⟩⟩, congrArg (· + 1) hlen, ht⟩

/-- Under a table that meets R115 the fetch answers an instruction: no record is refused. -/
theorem fetchInstr_served {s : State} (h : Served s) {table : OpTable} (hl : table.lawful = true) :
    ∃ i base t, fetchInstr table s = .next (i, base, t) ∧ Served t := by
  obtain ⟨opcode, s1, hop, h1⟩ := fetchByte_served h
  obtain ⟨bs, t, hbs, hlen, ht⟩ := fetchBytes_served h1 (table.lookup opcode).mode.operandCount
  obtain ⟨i, hi⟩ := decodeWith_of_lawful hl hlen.ge
  refine ⟨i, (table.lookup opcode).baseCycles, t, ?_, ht⟩
  simp only [fetchInstr, hop, hbs, andThen_next, hi]

theorem instructionStep_answers {s : State} (h : Served s) (hl : s.opTable.lawful = true) :
    ∃ t, instructionStep s = .next t := by
  have hs : Served ((s.setAddressAbs 0x0000).setAddressRel 0x0000) := h
  obtain ⟨i, base, u, hf, hu⟩ := fetchInstr_served hs hl
  obtain ⟨t, ht⟩ := exec_answers (s := u.setCycles base) hu i
  exact ⟨t, andThen_eq_next.2 ⟨_, hf, ht⟩⟩

/-- A machine that no tick can stop: live, every address served, under a table that meets R115. -/
structure NeverStops (s : State) : Prop where
  served : Served s
  connected : s.processorConnected = true
  lawful : s.opTable.lawful = true

/-- Every step of such a machine answers. -/
theorem NeverStops.step_answers {s : State} (h : NeverStops s) : ∃ t, step s = .next t := by
  have hfatal : s.fatal = none := h.served.1
  by_cases hc : s.cycles = 0
  · obtain ⟨u, hu⟩ := instructionStep_answers h.served h.lawful
    rw [step_eq_instructionStep hfatal h.connected hc, hu]
    exact ⟨_, rfl⟩
  · exact ⟨s.setCycles (s.cycles - 1), by simp [step, tick, hfatal, h.connected, hc]⟩

/-- What makes such a machine is configuration, which every operation keeps. -/
theorem NeverStops.of_keeps {s t : State} (h : NeverStops s) (k : Keeps s t) : NeverStops t where
  served := served_keeps k h.served
  connected := k.connected.trans h.connected
  lawful := k.table.symm ▸ h.lawful

theorem NeverStops.safeFor {s : State} (h : NeverStops s) (k : Nat) : SafeFor k s := by
  induction k generalizing s with
  | zero => trivial
  | succ k ih =>
    obtain ⟨t, ht⟩ := h.step_answers
    exact ⟨t, ht, ih (h.of_keeps (step_keeps ht))⟩

/-- In configuration FLAT every address is served (R90). -/
theorem allServed_flat {s : State} {m : Memory} (h : s.devices = flatDevices m) : AllServed s := by
  intro a
  rw [servesAt, h]
  rfl

/-- Settles O59: a live FLAT machine is one that no tick can stop (`allServed_flat`), each step of such a machine answers and
leaves one (`NeverStops.step_answers`, `NeverStops.of_keeps`), by induction on the length of the run. -/
theorem theFlatMachineNeverStops : Obligations.TheFlatMachineNeverStops := by
  unfold Obligations.TheFlatMachineNeverStops
  intro k s m hlive hlawful hflat
  obtain ⟨hfatal, hconnected⟩ := hlive
  exact NeverStops.safeFor ⟨⟨hfatal, allServed_flat hflat⟩, hconnected, hlawful⟩ k

end Sys2Proof.Machine
end

section
/-! SUPPORT. The bus, from the device the arbiter selects and its translation: what a read and a write answer (R70, R71). -/

namespace Sys2Proof.Machine

/-! ## The arbiter's choice -/

/-- The first device whose range has the address is selected, whatever stands behind it. -/
theorem select_append_cons {ds es : List Device} {d : Device} {a : Word} {o : Originator}
    (hds : ∀ e ∈ ds, e.withinRange a o = false) (hd : d.withinRange a o = true) :
    select (ds ++ d :: es) a o = some (ds.length, d) := by
  induction ds with
  | nil => simp [select, hd]
  | cons e rest ih =>
    obtain ⟨he, hrest⟩ := List.forall_mem_cons.1 hds
    simp [select, he, ih hrest]

/-- No device is selected when none claims the address. -/
theorem select_eq_none {ds : List Device} {a : Word} {o : Originator} (h : ∀ e ∈ ds, e.withinRange a o = false) :
    select ds a o = none := by
  induction ds with
  | nil => rfl
  | cons e rest ih =>
    obtain ⟨he, hrest⟩ := List.forall_mem_cons.1 h
    simp [select, he, ih hrest]

/-! ## What an access answers -/

section
variable {s : State} {a : Word} {o : Originator} {n : Nat} {d : Device}

theorem route_of_select_none (hf : s.fatal = none) (hs : select s.devices a o = none) :
    route o a s = .fault (.noDevice a) := by
  simp only [route, hf, hs]

theorem route_of_select (hf : s.fatal = none) (hs : select s.devices a o = some (n, d)) :
    route o a s = andThen (d.translate a o) fun t => .next (n, d, t) := by
  simp only [route, hf, hs]

/-- With no device an access is `NoDevice` (R70). -/
theorem access_of_select_none (hf : s.fatal = none) (hs : select s.devices a o = none) (v : Byte) :
    busReadAs o a s = .fault (.noDevice a) ∧ busWriteAs o a v s = .fault (.noDevice a) := by
  simp only [busReadAs, busWriteAs, route_of_select_none hf hs, andThen_fault, and_self]

/-- Where the device leads to a byte of storage, that byte is read, or put where the device stores. -/
theorem access_of_cell {r : Region} {i : Nat} (hf : s.fatal = none) (hs : select s.devices a o = some (n, d))
    (ht : d.translate a o = .next (.cell r i)) (v : Byte) :
    busReadAs o a s = .next (d.load r i, s) ∧
      busWriteAs o a v s = .next (s.setDevices (s.devices.set n (d.store r i v))) := by
  simp only [busReadAs, busWriteAs, route_of_select hf hs, ht, andThen_next, and_self]

/-- Where the device is the picture unit, a read draws a byte and a write changes nothing (R85). -/
theorem access_of_opaqueUnit (hf : s.fatal = none) (hs : select s.devices a o = some (n, d))
    (ht : d.translate a o = .next .opaqueUnit) (v : Byte) :
    busReadAs o a s = .next (Config.pictureDraw s.draws, s.setDraws (s.draws + 1)) ∧ busWriteAs o a v s = .next s := by
  simp only [busReadAs, busWriteAs, route_of_select hf hs, ht, andThen_next, and_self]

/-- A fault of the device is the access's. -/
theorem access_of_fault {f : Fault} (hf : s.fatal = none) (hs : select s.devices a o = some (n, d))
    (ht : d.translate a o = .fault f) (v : Byte) : busReadAs o a s = .fault f ∧ busWriteAs o a v s = .fault f := by
  simp only [busReadAs, busWriteAs, route_of_select hf hs, ht, andThen_fault, and_self]

/-- A refusal of the device is the access's. -/
theorem access_of_refused {f : Refusal} (hf : s.fatal = none) (hs : select s.devices a o = some (n, d))
    (ht : d.translate a o = .refused f) (v : Byte) : busReadAs o a s = .refused f ∧ busWriteAs o a v s = .refused f := by
  simp only [busReadAs, busWriteAs, route_of_select hf hs, ht, andThen_refused, and_self]

/-- The byte stored at an address is the one its device holds. -/
theorem byteAt_of_cell {r : Region} {i : Nat} (hs : select s.devices a .processor = some (n, d))
    (ht : d.translate a .processor = .next (.cell r i)) : byteAt a s = some (d.load r i) := by
  simp only [byteAt, hs, ht]

end

/-- Settles O42: by induction on the devices before the one that answers (`select_append_cons`, `select_eq_none`). -/
theorem theFirstMatchingDeviceAnswers : Obligations.TheFirstMatchingDeviceAnswers := by
  unfold Obligations.TheFirstMatchingDeviceAnswers
  exact ⟨fun ds es d a o hds hd => select_append_cons hds hd,
    fun s a v o hf h => access_of_select_none hf (select_eq_none h) v⟩

/-- Settles O48: the picture unit is the first device to claim the address, and what it leads to is opaque. -/
theorem pictureUnitReadsAreDraws : Obligations.PictureUnitReadsAreDraws := by
  unfold Obligations.PictureUnitReadsAreDraws
  intro s ds es first last a v hf hdevices hds hfirst hlast
  have hrange : (Device.pictureUnit first last).withinRange a .processor = true := by
    simp [Device.withinRange, inRange, hfirst, hlast]
  have hs : select s.devices a .processor = some (ds.length, .pictureUnit first last) :=
    hdevices ▸ select_append_cons hds hrange
  exact access_of_opaqueUnit hf hs rfl v

end Sys2Proof.Machine
end

section
/-! SUPPORT. The two reference configurations (R90): which device has each address, and the byte stored there. -/

namespace Sys2Proof.Machine

/-! ## Configuration FLAT -/

section
variable {s : State} {m : Memory}

theorem select_flat (h : s.devices = flatDevices m) (a : Word) :
    select s.devices a .processor = some (0, .ram .flat m) := by
  rw [h]
  rfl

/-- In configuration FLAT every address is its own byte (R75). -/
theorem byteAt_flat (h : s.devices = flatDevices m) (a : Word) : byteAt a s = some (m.read a.toNat) :=
  byteAt_of_cell (select_flat h a) rfl

end

/-- Settles O43: a write in configuration FLAT leaves configuration FLAT with the byte stored (`byteAt_flat`). -/
theorem flatRamIsOneToOne : Obligations.FlatRamIsOneToOne := by
  unfold Obligations.FlatRamIsOneToOne
  intro s m a v hf hdevices hm
  obtain ⟨hread, hwrite⟩ := access_of_cell hf (select_flat hdevices a) rfl v
  refine ⟨hread, _, hwrite, rfl, fun b => ?_⟩
  have hafter : s.devices.set 0 ((Device.ram .flat m).store .ram a.toNat v) = flatDevices (m.write a.toNat v) := by
    rw [hdevices]
    rfl
  rw [byteAt_flat (m := m.write a.toNat v) hafter, Memory.read_write hm]
  by_cases hb : b = a
  · simp [hb]
  · simp [hb, BitVec.toNat_inj]

/-! ## Configuration CART -/

/-- The cartridge of configuration CART. -/
def referenceCartridge (prgBanks chrBanks : Nat) (writable : Bool) (prg chr : Memory) : Cartridge :=
  { mapperId := 0, prgBanks, chrBanks, prgBankSize := Config.prgBankSize, chrBankSize := Config.chrBankSize, writable, prg, chr }

/-- How many addresses the mapper tells apart in the program region: the mask 0x3FFF for one bank, 0x7FFF for more (R79). -/
def programSize (prgBanks : Nat) : Nat := if prgBanks = 1 then 0x4000 else 0x8000

section
variable {s t : State} {ram ram' prg prg' chr : Memory} {prgBanks chrBanks : Nat} {writable : Bool} {a : Word}

theorem select_cart_window (h : s.devices = cartDevices ram prgBanks chrBanks writable prg chr) (ha : a.toNat < 0x2000) :
    select s.devices a .processor = some (0, .ram (.mirrored Config.ramWindowBase) ram) := by
  simp [h, cartDevices, select, Device.withinRange, Config.ramWindowBase, Config.ramWindowSize, ha]

theorem select_cart_hole (h : s.devices = cartDevices ram prgBanks chrBanks writable prg chr) (hlow : 0x2000 ≤ a.toNat)
    (hhigh : a.toNat < 0x8000) : select s.devices a .processor = none := by
  refine select_eq_none fun e he => ?_
  simp only [h, cartDevices, List.mem_cons, List.not_mem_nil, or_false] at he
  obtain rfl | rfl := he
  · simp [Device.withinRange, Config.ramWindowBase, Config.ramWindowSize, hlow]
  · simp [Device.withinRange, hhigh]

theorem select_cart_program (h : s.devices = cartDevices ram prgBanks chrBanks writable prg chr) (ha : 0x8000 ≤ a.toNat) :
    select s.devices a .processor =
      some (1, .cartridge (referenceCartridge prgBanks chrBanks writable prg chr)) := by
  have hwindow : ¬ a.toNat < 0x2000 := by omega
  simp [h, cartDevices, referenceCartridge, select, Device.withinRange, Config.ramWindowBase, Config.ramWindowSize, ha,
    hwindow]

theorem select_cart_picture (h : s.devices = cartDevices ram prgBanks chrBanks writable prg chr) (ha : a.toNat ≤ 0x1FFF) :
    select s.devices a .pictureUnit =
      some (1, .cartridge (referenceCartridge prgBanks chrBanks writable prg chr)) := by
  simp [h, cartDevices, referenceCartridge, select, Device.withinRange, ha]

theorem select_cart_picture_none (h : s.devices = cartDevices ram prgBanks chrBanks writable prg chr)
    (ha : 0x1FFF < a.toNat) : select s.devices a .pictureUnit = none := by
  simp [h, cartDevices, select, Device.withinRange, ha]

/-- In the window the RAM answers with the low 11 bits (R76). -/
theorem translate_mirrored (base : Word) (m : Memory) (a : Word) (o : Originator) :
    (Device.ram (.mirrored base) m).translate a o = .next (.cell .ram (a.toNat % 0x800)) := by
  rw [← toNat_and_7FF]
  rfl

theorem toNat_and_3FFF (w : Word) : (w &&& 0x3FFF).toNat = w.toNat % 0x4000 := by
  rw [BitVec.toNat_and]
  exact Nat.and_two_pow_sub_one_eq_mod _ 14

theorem toNat_and_7FFF (w : Word) : (w &&& 0x7FFF).toNat = w.toNat % 0x8000 := by
  rw [BitVec.toNat_and]
  exact Nat.and_two_pow_sub_one_eq_mod _ 15

/-- With a program bank the mapper leads the processor to the program region, under the mask of the bank count (R79); every
masked address lies inside the banks. -/
theorem translate_program (hb : 0 < prgBanks) :
    (Device.cartridge (referenceCartridge prgBanks chrBanks writable prg chr)).translate a .processor =
      .next (.cell .prg (a.toNat % programSize prgBanks)) := by
  have hzero : prgBanks ≠ 0 := hb.ne'
  simp only [Device.translate, Cartridge.translate, referenceCartridge, ne_eq, not_true_eq_false, if_false, hzero, programSize]
  obtain rfl | hmany : prgBanks = 1 ∨ 1 < prgBanks := by omega
  · simp only [Nat.lt_irrefl, if_false, if_true, toNat_and_3FFF]
    exact cellWithin_of_lt (by unfold Config.prgBankSize; omega)
  · simp only [hmany, hmany.ne', if_false, if_true, toNat_and_7FFF]
    exact cellWithin_of_lt (by unfold Config.prgBankSize; omega)

/-- With a pattern bank the mapper passes a picture address through (R80). -/
theorem translate_pattern (hb : 0 < chrBanks) (ha : a.toNat ≤ 0x1FFF) :
    (Device.cartridge (referenceCartridge prgBanks chrBanks writable prg chr)).translate a .pictureUnit =
      .next (.cell .chr a.toNat) := by
  have hzero : chrBanks ≠ 0 := hb.ne'
  simp only [Device.translate, Cartridge.translate, referenceCartridge, ne_eq, not_true_eq_false, if_false, hzero]
  exact cellWithin_of_lt (by unfold Config.chrBankSize; omega)

/-! ### The byte stored at an address -/

theorem byteAt_cart_window (h : s.devices = cartDevices ram prgBanks chrBanks writable prg chr) (ha : a.toNat < 0x2000) :
    byteAt a s = some (ram.read (a.toNat % 0x800)) :=
  byteAt_of_cell (select_cart_window h ha) (translate_mirrored _ _ _ _)

theorem byteAt_cart_hole (h : s.devices = cartDevices ram prgBanks chrBanks writable prg chr) (hlow : 0x2000 ≤ a.toNat)
    (hhigh : a.toNat < 0x8000) : byteAt a s = none := by
  rw [byteAt, select_cart_hole h hlow hhigh]

theorem byteAt_cart_program (h : s.devices = cartDevices ram prgBanks chrBanks writable prg chr) (hb : 0 < prgBanks)
    (ha : 0x8000 ≤ a.toNat) : byteAt a s = some (prg.read (a.toNat % programSize prgBanks)) :=
  byteAt_of_cell (select_cart_program h ha) (translate_program hb)

/-- The RAM's storage is seen in the window alone. -/
theorem byteAt_cart_congr_above (hs : s.devices = cartDevices ram prgBanks chrBanks writable prg chr)
    (ht : t.devices = cartDevices ram' prgBanks chrBanks writable prg chr) (ha : 0x2000 ≤ a.toNat) : byteAt a t = byteAt a s := by
  obtain hhole | hprogram : a.toNat < 0x8000 ∨ 0x8000 ≤ a.toNat := by omega
  · rw [byteAt_cart_hole ht ha hhole, byteAt_cart_hole hs ha hhole]
  · simp only [byteAt, select_cart_program hs hprogram, select_cart_program ht hprogram]

/-- The program region is seen at the program addresses alone. -/
theorem byteAt_cart_congr_below (hs : s.devices = cartDevices ram prgBanks chrBanks writable prg chr)
    (ht : t.devices = cartDevices ram prgBanks chrBanks writable prg' chr) (ha : a.toNat < 0x8000) : byteAt a t = byteAt a s := by
  obtain hwindow | hhole : a.toNat < 0x2000 ∨ 0x2000 ≤ a.toNat := by omega
  · rw [byteAt_cart_window ht hwindow, byteAt_cart_window hs hwindow]
  · rw [byteAt_cart_hole ht hhole ha, byteAt_cart_hole hs hhole ha]

/-! ### What a write stores in CART -/

theorem set_cart_ram (h : s.devices = cartDevices ram prgBanks chrBanks writable prg chr) (i : Nat) (v : Byte) :
    s.devices.set 0 ((Device.ram (.mirrored Config.ramWindowBase) ram).store .ram i v) =
      cartDevices (ram.write i v) prgBanks chrBanks writable prg chr := by
  rw [h]
  rfl

theorem set_cart_prg (h : s.devices = cartDevices ram prgBanks chrBanks writable prg chr) (i : Nat) (v : Byte) :
    s.devices.set 1 ((Device.cartridge (referenceCartridge prgBanks chrBanks writable prg chr)).store .prg i v) =
      cartDevices ram prgBanks chrBanks writable (if writable then prg.write i v else prg) chr := by
  rw [h]
  cases writable <;> rfl

theorem set_cart_chr (h : s.devices = cartDevices ram prgBanks chrBanks writable prg chr) (i : Nat) (v : Byte) :
    s.devices.set 1 ((Device.cartridge (referenceCartridge prgBanks chrBanks writable prg chr)).store .chr i v) =
      cartDevices ram prgBanks chrBanks writable prg (if writable then chr.write i v else chr) := by
  rw [h]
  cases writable <;> rfl

end

/-- Settles O44: in the window a write leaves CART with the RAM byte at the low 11 bits stored, which the window's addresses
show (`byteAt_cart_window`) and no other address (`byteAt_cart_congr_above`). -/
theorem mirroredRamRepeatsEvery2K : Obligations.MirroredRamRepeatsEvery2K := by
  unfold Obligations.MirroredRamRepeatsEvery2K
  intro s ram prg chr prgBanks chrBanks writable a v hf hdevices hram ha
  obtain ⟨hread, hwrite⟩ := access_of_cell hf (select_cart_window hdevices ha) (translate_mirrored _ _ _ _) v
  refine ⟨hread, _, hwrite, fun b => ?_⟩
  have hafter := set_cart_ram hdevices (a.toNat % 0x800) v
  obtain hb | hb : b.toNat < 0x2000 ∨ 0x2000 ≤ b.toNat := by omega
  · rw [byteAt_cart_window hafter hb, byteAt_cart_window hdevices hb, Memory.read_write hram]
    simp only [hb, true_and]
    split <;> rfl
  · rw [byteAt_cart_congr_above hdevices hafter hb, if_neg (by omega)]

/-- Settles O46: neither device of CART claims the hole (`select_cart_hole`). -/
theorem cartHoleIsNoDevice : Obligations.CartHoleIsNoDevice := by
  unfold Obligations.CartHoleIsNoDevice
  intro s ram prg chr prgBanks chrBanks writable a v hf hdevices hlow hhigh
  exact access_of_select_none hf (select_cart_hole hdevices hlow hhigh) v

/-- Settles O47: the cartridge has the picture addresses (`select_cart_picture`), and the mapper passes them through with a
pattern bank (`translate_pattern`). -/
theorem pictureAccessesReachThePatternRegion : Obligations.PictureAccessesReachThePatternRegion := by
  unfold Obligations.PictureAccessesReachThePatternRegion
  intro s ram prg chr prgBanks chrBanks writable a v hf hdevices
  refine ⟨fun ha hb => ?_, fun ha hb => ?_, fun ha => ?_⟩
  · subst hb
    exact access_of_fault hf (select_cart_picture hdevices ha) rfl v
  · obtain ⟨hread, hwrite⟩ := access_of_cell hf (select_cart_picture hdevices ha) (translate_pattern hb ha) v
    rw [set_cart_chr hdevices] at hwrite
    exact ⟨hread, hwrite⟩
  · exact access_of_select_none hf (select_cart_picture_none hdevices ha) v

/-- Settles O45: the mapper leads a program address to its masked byte (`translate_program`); a write leaves CART with that
byte stored when `CART_WRITABLE`, which the program addresses show (`byteAt_cart_program`) and no other address
(`byteAt_cart_congr_below`). -/
theorem cartridgeMapsTheProgramRegion : Obligations.CartridgeMapsTheProgramRegion := by
  unfold Obligations.CartridgeMapsTheProgramRegion
  intro s ram prg chr prgBanks chrBanks writable a v hf hdevices hprg ha
  refine ⟨fun hb => ?_, fun hb => ?_⟩
  · subst hb
    exact access_of_refused hf (select_cart_program hdevices ha) rfl v
  · obtain ⟨hread, hwrite⟩ := access_of_cell hf (select_cart_program hdevices ha) (translate_program hb) v
    refine ⟨hread, _, hwrite, fun b => ?_⟩
    change _ = if writable = true ∧ 0x8000 ≤ b.toNat ∧ b.toNat % programSize prgBanks = a.toNat % programSize prgBanks
      then some v else byteAt b s
    have hafter := set_cart_prg hdevices (a.toNat % programSize prgBanks) v
    obtain hlow | hhigh : b.toNat < 0x8000 ∨ 0x8000 ≤ b.toNat := by omega
    · rw [byteAt_cart_congr_below hdevices hafter hlow, if_neg (by omega)]
    · rw [byteAt_cart_program hafter hb hhigh, byteAt_cart_program hdevices hb hhigh]
      cases writable with
      | false => simp
      | true =>
        simp only [if_true, Memory.read_write hprg, hhigh, true_and]
        split <;> rfl

end Sys2Proof.Machine
end

section
/-! SUPPORT. What a decoding says of the bytes and the instruction; the statements about the encoding. -/

namespace Sys2Proof

/-- What a mnemonic and an operand make has that mnemonic and that operand. -/
theorem assemble_eq_some {opcode : Byte} {m : Mnemonic} {o : Operand} {i : Instr} (h : assemble opcode m o = some i) :
    i.mnemonic = m ∧ i.operand = o := by
  cases m with
  | adc | and | asl | bit | cmp | cpx | cpy | dec | eor | inc | jmp | lda | ldx | ldy | lsr | ora | rol | ror | sbc | sta | stx
  | sty =>
    cases h
    exact ⟨rfl, rfl⟩
  | bcc | bcs | beq | bmi | bne | bpl | bvc | bvs | jsr | brk | clc | cld | cli | clv | dex | dey | inx | iny | nop | pha | php
  | pla | plp | rti | rts | sec | sed | sei | tax | tay | tsx | txa | txs | tya | dnop =>
    cases o <;> cases h
    exact ⟨rfl, rfl⟩

/-- Bytes that decode are an opcode byte, the bytes of an operand of its record's mode, and the bytes left over; the record's
mnemonic and the operand make the instruction. -/
theorem decodeWith_eq_ok {t : OpTable} {bytes rest : List Byte} {i : Instr} (h : decodeWith t bytes = .ok (i, rest)) :
    ∃ opcode, bytes = opcode :: (i.operand.bytes ++ rest) ∧ i.operand.mode = (t.lookup opcode).mode ∧
      assemble opcode (t.lookup opcode).mnemonic i.operand = some i := by
  cases bytes with
  | nil => cases h
  | cons opcode tail =>
    rw [decodeWith_cons rfl] at h
    split at h
    · cases h
    next o left htake =>
      split at h
      · cases h
      next j hmake =>
        cases h
        obtain ⟨-, rfl⟩ := assemble_eq_some hmake
        obtain ⟨hmode, rfl, -⟩ := takeOperand_eq_some htake
        exact ⟨opcode, rfl, hmode, hmake⟩

/-- Settles O1: R121's list and R120's matrix agree on the instruction (`decode_encode_append`). -/
theorem decodeOfEncodeIsTheInstruction : Obligations.DecodeOfEncodeIsTheInstruction := by
  unfold Obligations.DecodeOfEncodeIsTheInstruction
  intro i rest h
  exact decode_encode_append h rest

/-- Settles O2: the bytes taken are the operand's (`decodeWith_eq_ok`), and R121 lists the instruction at the opcode byte
(`assemble_listed`). -/
theorem decodedBytesAreTheEncoding : Obligations.DecodedBytesAreTheEncoding := by
  unfold Obligations.DecodedBytesAreTheEncoding
  intro bytes rest i h
  obtain ⟨opcode, rfl, hmode, hmake⟩ := decodeWith_eq_ok h
  obtain ⟨hwf, rfl⟩ := assemble_listed hmode hmake
  exact ⟨hwf, rfl⟩

/-- Settles O3: a lawful table's record decodes with the bytes its mode takes (`decodeWith_of_lawful`), and what decodes has
the record's mnemonic and mode (`decodeWith_eq_ok`). -/
theorem lawfulTablesDecodeEveryOpcode : Obligations.LawfulTablesDecodeEveryOpcode := by
  unfold Obligations.LawfulTablesDecodeEveryOpcode
  intro t opcode bytes ht hl
  obtain ⟨i, hi⟩ := decodeWith_of_lawful ht hl
  obtain ⟨_, hbytes, hmode, hmake⟩ := decodeWith_eq_ok hi
  obtain ⟨rfl, -⟩ := List.cons.inj hbytes
  exact ⟨i, hi, (assemble_eq_some hmake).1, hmode⟩

/-- Settles O4: each word is evaluated by the decoder. -/
theorem writtenOutWordsDecode : Obligations.WrittenOutWordsDecode :=
  ⟨rfl, rfl, rfl, rfl, rfl, rfl, rfl, rfl, rfl, rfl⟩

end Sys2Proof
end

section
/-! SUPPORT. What an instruction that makes no bus write leaves of the devices; an operand fetch that reads the bus; the idle
tick. -/

namespace Sys2Proof.Machine

open Sys2Proof.Claims

/-! ## The devices after an operation that only reads -/

section
variable {o : Operand} {s t : State}

theorem resolve_devices {c : Bool} (h : resolve o s = .next (c, t)) : t.devices = s.devices := by
  rw [(resolve_state h).1]
  rfl

theorem fetchOperand_devices {m : Byte} (h : fetchOperand o s = .next (m, t)) : t.devices = s.devices := by
  rw [(fetchOperand_state h).1]
  rfl

theorem pull8_devices {v : Byte} (h : pull8 s = .next (v, t)) : t.devices = s.devices := by
  rw [(pull8_state h).1]
  rfl

theorem pull16_devices {w : Word} (h : pull16 s = .next (w, t)) : t.devices = s.devices := by
  rw [(pull16_state h).1]
  rfl

theorem returnFromTrap_devices (h : returnFromTrap s = .next t) : t.devices = s.devices := by
  obtain ⟨flags, s1, target, s2, hflags, htarget, rfl⟩ := returnFromTrap_cases h
  rw [State.setPc_devices, pull16_devices htarget, State.setFlag_devices, State.setFlag_devices, State.setP_devices,
    pull8_devices hflags]

theorem addBonus_devices (earned : Bool) (s : State) : (addBonus earned s).devices = s.devices := by
  rw [addBonus_eq, State.setCycles_devices]

theorem branch_devices (cond : Bool) (s : State) : (branch cond s).devices = s.devices := by
  rw [branch_eq, State.setPc_devices, State.setCycles_devices]

/-! ## The families' shapes -/

theorem withOperand_devices {eligible : Bool} {effect : Byte → State → State} (h : withOperand o eligible effect s = .next t)
    (he : ∀ m u, (effect m u).devices = u.devices) : t.devices = s.devices := by
  obtain ⟨c, s1, m, s2, hr, hm, rfl⟩ := withOperand_eq_next.1 h
  calc (addBonus (c && eligible) (effect m s2)).devices
      = s2.devices := (addBonus_devices _ _).trans (he m s2)
    _ = s1.devices := fetchOperand_devices hm
    _ = s.devices := resolve_devices hr

theorem implied_devices {effect : State → State} (h : implied effect s = .next t)
    (he : ∀ u, (effect u).devices = u.devices) : t.devices = s.devices := by
  obtain rfl := implied_eq_next.1 h
  exact he _

theorem branchOn_devices {disp : Byte} {cond : State → Bool} (h : branchOn disp cond s = .next t) :
    t.devices = s.devices := by
  obtain rfl := branchOn_eq_next.1 h
  exact branch_devices _ _

/-- The accumulator form of a shift writes back to `A` (R229). -/
theorem shiftOperand_imp_devices {f : Bool → Byte → ShiftResult} (h : shiftOperand .imp f s = .next t) :
    t.devices = s.devices := by
  obtain ⟨c, s1, m, s2, hr, hm, hw⟩ := shiftOperand_eq_next.1 h
  cases hw
  exact (fetchOperand_devices hm).trans (resolve_devices hr)

/-- What follows the resolver needs to leave the devices only as the resolver left them. -/
theorem andThen_resolve_devices {k : Bool × State → Result State} (h : andThen (resolve o s) k = .next t)
    (hk : ∀ c u, k (c, u) = .next t → t.devices = u.devices) : t.devices = s.devices := by
  obtain ⟨⟨c, u⟩, hr, hu⟩ := andThen_eq_next.1 h
  exact (hk c u hu).trans (resolve_devices hr)

/-! ## The instructions with a shape of their own that make no bus write -/

theorem execJmp_devices (h : execJmp o s = .next t) : t.devices = s.devices := by
  refine andThen_resolve_devices h fun c u hu => ?_
  cases hu
  rfl

theorem execRts_devices (h : execRts s = .next t) : t.devices = s.devices := by
  refine andThen_resolve_devices h fun c u hu => ?_
  obtain ⟨⟨target, u1⟩, hp, hu1⟩ := andThen_eq_next.1 hu
  cases hu1
  rw [State.setPc_devices, pull16_devices hp]

/-- PLA and PLP: one pull after the resolver, and an effect of the byte. -/
theorem pull8_implied_devices {effect : Byte → State → State}
    (h : (andThen (resolve .imp s) fun (_, s) => andThen (pull8 s) fun (m, s) => .next (effect m s)) = .next t)
    (he : ∀ m u, (effect m u).devices = u.devices) : t.devices = s.devices := by
  refine andThen_resolve_devices h fun c u hu => ?_
  obtain ⟨⟨m, u1⟩, hp, hu1⟩ := andThen_eq_next.1 hu
  cases hu1
  exact (he m u1).trans (pull8_devices hp)

theorem execRti_devices (h : execRti s = .next t) : t.devices = s.devices :=
  andThen_resolve_devices h fun _ _ hu => returnFromTrap_devices hu

end

/-! ## Every instruction -/

/-- A shift makes no bus write exactly in its accumulator form (R229). -/
theorem operand_eq_imp_of_shift {i : Instr} (hm : i.mnemonic ∈ [.asl, .lsr, .rol, .ror]) (hi : writesStorage i = false) :
    i.operand = .imp := by
  simp only [writesStorage, isShift, hm, decide_true, Bool.true_and, Bool.or_eq_false_iff] at hi
  simpa using hi.2

/-- An instruction that makes no bus write leaves the devices, by the shape its meaning has. -/
theorem exec_devices {i : Instr} {s t : State} (h : exec i s = .next t) (hi : writesStorage i = false) :
    t.devices = s.devices := by
  cases i with
  | sta | stx | sty | inc | dec | pha | php | jsr | brk => cases hi
  | asl o | lsr o | rol o | ror o =>
    obtain rfl : o = .imp := operand_eq_imp_of_shift (by simp [Instr.mnemonic]) hi
    simp only [exec, execAsl, execLsr, execRol, execRor] at h
    exact shiftOperand_imp_devices h
  | adc o | sbc o | and o | bit o | cmp o | cpx o | cpy o | eor o | lda o | ldx o | ldy o | ora o =>
    simp only [exec, execAdc, execSbc, execAnd, execBit, execCmp, execCpx, execCpy, execEor, execLda, execLdx, execLdy,
      execOra] at h
    exact withOperand_devices h fun _ _ => rfl
  | bcc d | bcs d | beq d | bmi d | bne d | bpl d | bvc d | bvs d =>
    simp only [exec, execBcc, execBcs, execBeq, execBmi, execBne, execBpl, execBvc, execBvs] at h
    exact branchOn_devices h
  | clc | cld | cli | clv | dex | dey | inx | iny | nop | sec | sed | sei | tax | tay | tsx | txa | txs | tya | dnop =>
    simp only [exec, execClc, execCld, execCli, execClv, execDex, execDey, execInx, execIny, execNop, execSec, execSed,
      execSei, execTax, execTay, execTsx, execTxa, execTxs, execTya, execDnop] at h
    exact implied_devices h fun _ => rfl
  | jmp o => exact execJmp_devices h
  | rts => exact execRts_devices h
  | pla => exact pull8_implied_devices (effect := fun m s => (s.setA m).setZN m) h fun _ _ => rfl
  | plp =>
    exact pull8_implied_devices (effect := fun m s => ((s.setP m).setFlag .b false).setFlag .u false) h fun _ _ => rfl
  | rti => exact execRti_devices h

/-- The bytes stored are the devices' alone. -/
theorem byteAt_congr {s t : State} (h : t.devices = s.devices) (b : Word) : byteAt b t = byteAt b s := by
  simp only [byteAt, h]

/-- Settles O52: an instruction that makes no bus write leaves the devices (`exec_devices`), and with them every byte
stored. -/
theorem storageIsWrittenOnlyByItsWriters : Obligations.StorageIsWrittenOnlyByItsWriters := by
  unfold Obligations.StorageIsWrittenOnlyByItsWriters
  intro i s t h hi
  have hdevices := exec_devices h hi
  exact ⟨hdevices, byteAt_congr hdevices⟩

/-- Settles O58: a state with no mark and every address served is one in which every instruction answers (`exec_answers`). -/
theorem everyInstructionCompletesOnAServedBus : Obligations.EveryInstructionCompletesOnAServedBus := by
  unfold Obligations.EveryInstructionCompletesOnAServedBus
  intro i s hfatal hserved
  exact exec_answers ⟨hfatal, hserved⟩ i

/-! ## The idle tick and the operand fetch -/

/-- With no mark, the processor connected and cycles left, the step is one cycle less (R140, R146). -/
theorem step_eq_idle {s : State} (hf : s.fatal = none) (hp : s.processorConnected = true) (hc : s.cycles ≠ 0) :
    step s = .next (s.setCycles (s.cycles - 1)) := by
  simp [step, tick, hf, hp, hc]

/-- Settles O6: such a step is an idle tick (`step_eq_idle`). -/
theorem idleTicksChangeOnlyTheCount : Obligations.IdleTicksChangeOnlyTheCount := by
  unfold Obligations.IdleTicksChangeOnlyTheCount
  intro s hf hp hc
  exact step_eq_idle hf hp hc.ne'

/-- Every mode but `IMP` and `IMM` fetches its operand from `address_abs` (R147). -/
theorem fetchOperand_eq_busRead {o : Operand} (himp : o.mode ≠ .imp) (himm : o.mode ≠ .imm) (s : State) :
    fetchOperand o s = andThen (busRead s.addressAbs s) fun (m, t) => .next (m, t.setFetched m) := by
  cases o with
  | imp => exact absurd rfl himp
  | imm b => exact absurd rfl himm
  | _ => rfl

/-- Settles O11: the modes with a memory operand read the bus (`fetchOperand_eq_busRead`); the other two are the fetch's own
equations. -/
theorem theOperandFetchReadsTheEffectiveAddress : Obligations.TheOperandFetchReadsTheEffectiveAddress := by
  unfold Obligations.TheOperandFetchReadsTheEffectiveAddress
  intro o s t m
  refine ⟨fun himp himm hread => ?_, rfl, rfl⟩
  rw [fetchOperand_eq_busRead himp himm, hread]
  rfl

end Sys2Proof.Machine
end

section
/-! SUPPORT. The resolver: the effective address and the page-cross report of each mode as numbers (R161 to R173). -/

namespace Sys2Proof.Machine

open Sys2Proof.Claims

/-! ## The addresses as numbers -/

/-- A byte extended to a word already lies in page zero. -/
theorem zext16_and_255 (b : Byte) : zext16 b &&& 0x00FF = zext16 b := by
  apply BitVec.eq_of_toNat_eq
  rw [toNat_and_255, toNat_zext16, Nat.mod_eq_of_lt b.isLt]

theorem zext16_eq_ofNat (b : Byte) : zext16 b = BitVec.ofNat 16 b.toNat := by
  apply BitVec.eq_of_toNat_eq
  rw [toNat_zext16, BitVec.toNat_ofNat]
  omega

/-- A number masked by 0x00FF is the number modulo 256 (R164). -/
theorem ofNat_and_255 (n : Nat) : BitVec.ofNat 16 n &&& 0x00FF = BitVec.ofNat 16 (n % 256) := by
  apply BitVec.eq_of_toNat_eq
  rw [toNat_and_255, BitVec.toNat_ofNat, BitVec.toNat_ofNat]
  omega

/-- Page-zero arithmetic is addition modulo 256 (R164). -/
theorem zeroPage_eq_ofNat (b index : Byte) : zeroPage b index = BitVec.ofNat 16 ((b.toNat + index.toNat) % 256) := by
  rw [← ofNat_and_255, BitVec.ofNat_add, zeroPage, zext16_eq_ofNat, zext16_eq_ofNat]

theorem toNat_zeroPage (b index : Byte) : (zeroPage b index).toNat = (b.toNat + index.toNat) % 256 := by
  rw [zeroPage_eq_ofNat, BitVec.toNat_ofNat]
  omega

theorem toNat_add_zext16 (base : Word) (index : Byte) :
    (base + zext16 index).toNat = (base.toNat + index.toNat) % 65536 := by
  rw [BitVec.toNat_add, toNat_zext16]

/-- The page is crossed exactly when the numbers of the two pages differ (R167). -/
theorem pageCrossed_eq_decide (base ea : Word) :
    pageCrossed base ea = decide (ea.toNat / 256 ≠ base.toNat / 256) := by
  have hpages : hi ea = hi base ↔ ea.toNat / 256 = base.toNat / 256 := by
    rw [← BitVec.toNat_inj, toNat_hi, toNat_hi]
  rw [pageCrossed, bne, beq_eq_decide, ← decide_not, decide_eq_decide.2 hpages.not]

/-- The concatenation of two bytes is the word they stand for (R8, R96). -/
theorem mk16_eq_wordOf (h l : Byte) : mk16 h l = wordOf h l := by
  apply BitVec.eq_of_toNat_eq
  rw [toNat_mk16, wordOf, BitVec.toNat_ofNat]
  omega

/-- The mask 0xFF00 leaves the start of the page. -/
theorem and_FF00 (w : Word) : w &&& 0xFF00 = mk16 (hi w) 0x00 := by
  calc w &&& 0xFF00
      = mk16 (hi w) (lo w) &&& (BitVec.allOnes 8 ++ 0#8) := by rw [mk16_hi_lo]; rfl
    _ = mk16 (hi w) 0x00 := by rw [mk16, BitVec.and_append, BitVec.and_allOnes, BitVec.and_zero]; rfl

/-- Where `IND` reads its pointer's high byte: the next address, or the start of the page after its last one (R169). -/
theorem ind_high_eq_ofNat (w : Word) :
    (if lo w = 0xFF then w &&& 0xFF00 else w + 1) =
      BitVec.ofNat 16 (if w.toNat % 256 = 255 then w.toNat - 255 else w.toNat + 1) := by
  have hlast : lo w = 0xFF ↔ w.toNat % 256 = 255 := by
    rw [← BitVec.toNat_inj, toNat_lo]
    rfl
  simp only [hlast]
  split
  · apply BitVec.eq_of_toNat_eq
    rw [and_FF00, toNat_mk16, toNat_hi, BitVec.toNat_ofNat]
    change 256 * (w.toNat / 256) + 0 = _
    omega
  · rw [BitVec.ofNat_add, BitVec.ofNat_toNat, BitVec.setWidth_eq]
    rfl

/-! ## The modes that read no pointer -/

/-- Indexing adds the index modulo 2^16 and reports a crossing exactly when the page changed (R167, R168). -/
theorem indexed_eq (base : Word) (index : Byte) (s : State) :
    ∃ ea : Word, ea.toNat = (base.toNat + index.toNat) % 65536 ∧
      indexed base index s = (decide (ea.toNat / 256 ≠ base.toNat / 256), s.setAddressAbs ea) :=
  ⟨base + zext16 index, toNat_add_zext16 base index, by rw [← pageCrossed_eq_decide]; rfl⟩

/-- Settles O9: page-zero sums by `toNat_zeroPage`, 16-bit sums by `indexed_eq`, the displacement by `toInt_sext16`. -/
theorem directModesResolve : Obligations.DirectModesResolve := by
  unfold Obligations.DirectModesResolve
  intro s b w
  obtain ⟨eax, hx, hax⟩ := indexed_eq w s.x s
  obtain ⟨eay, hy, hay⟩ := indexed_eq w s.y s
  refine ⟨rfl, rfl, ⟨zext16 b, toNat_zext16 b, ?zp0⟩, ⟨zeroPage b s.x, toNat_zeroPage b s.x, rfl⟩,
    ⟨zeroPage b s.y, toNat_zeroPage b s.y, rfl⟩, rfl, ⟨eax, hx, ?abx⟩, ⟨eay, hy, ?aby⟩, ⟨sext16 b, toInt_sext16 b, rfl⟩⟩
  case zp0 =>
    rw [resolve, zext16_and_255]
    rfl
  case abx =>
    rw [resolve, hax]
    rfl
  case aby =>
    rw [resolve, hay]
    rfl

/-! ## The modes that read a pointer -/

theorem resolve_ind_of_reads {w : Word} {l h : Byte} {s t : State}
    (hreads : Reads s [(w, l), (if lo w = 0xFF then w &&& 0xFF00 else w + 1, h)] t) :
    resolve (.ind w) s = .next (false, t.setAddressAbs (mk16 h l)) := by
  obtain ⟨s1, hl, s2, hh, rfl⟩ := hreads
  simp only [resolve, hl, hh, andThen_next]

/-- The address of the high byte is formed after the first read, which leaves `X`. -/
theorem resolve_izx_of_reads {b l h : Byte} {s t : State}
    (hreads : Reads s [(zeroPage b s.x, l), ((zext16 b + zext16 s.x + 1) &&& 0x00FF, h)] t) :
    resolve (.izx b) s = .next (false, t.setAddressAbs (mk16 h l)) := by
  obtain ⟨s1, hl, s2, hh, rfl⟩ := hreads
  have hx : s1.x = s.x := by rw [(busRead_state hl).1, State.setDraws_x]
  simp only [resolve, hl, hx, hh, andThen_next]

theorem resolve_izy_of_reads {b l h : Byte} {s t : State}
    (hreads : Reads s [(zext16 b, l), ((zext16 b + 1) &&& 0x00FF, h)] t) :
    resolve (.izy b) s = .next (indexed (mk16 h l) t.y t) := by
  obtain ⟨s1, hl, s2, hh, rfl⟩ := hreads
  simp only [resolve, zext16_and_255, hl, hh, andThen_next]

/-- Settles O10: the pointer's addresses by `ind_high_eq_ofNat` and `ofNat_and_255`, the bytes by `resolve_ind_of_reads` and
its like, the sum with `Y` by `indexed_eq`. -/
theorem pointerModesResolve : Obligations.PointerModesResolve := by
  unfold Obligations.PointerModesResolve
  intro s t b l h w
  refine ⟨fun hreads => ?ind, fun hreads => ?izx, fun hreads => ?izy⟩
  case ind =>
    rw [← ind_high_eq_ofNat] at hreads
    rw [resolve_ind_of_reads hreads, mk16_eq_wordOf]
    rfl
  case izx =>
    rw [← zeroPage_eq_ofNat, ← ofNat_and_255, BitVec.ofNat_add, BitVec.ofNat_add, ← zext16_eq_ofNat, ← zext16_eq_ofNat]
      at hreads
    rw [resolve_izx_of_reads hreads, mk16_eq_wordOf]
    rfl
  case izy =>
    have hy : t.y = s.y := by rw [reads_state hreads, State.setDraws_y]
    rw [← ofNat_and_255, BitVec.ofNat_add, ← zext16_eq_ofNat] at hreads
    obtain ⟨ea, hea, hindexed⟩ := indexed_eq (mk16 h l) t.y t
    have hpage : (mk16 h l).toNat / 256 = h.toNat := by rw [← toNat_hi, hi_mk16]
    refine ⟨ea, ?_, ?_⟩
    · rw [hea, toNat_mk16, hy]
    · rw [resolve_izy_of_reads hreads, hindexed, hpage]
      rfl

end Sys2Proof.Machine
end

section
/-! SUPPORT. The statements' shared words proved of the model's shared operations: an encoding read off the tables, the flags
that `SetZN` writes, an exact next state with storage as before, an operand that resolves and reads, one bus write. -/

namespace Sys2Proof.Machine

open Sys2Proof.Claims Sys2Proof.Safety

/-! ## Encodings -/

/-- An instruction with an operand depends on the operand's mode alone for its line of R121, so its rows are checked mode by
mode. -/
theorem encodedAs_of_rows {mk : Operand → Instr} {rows : List (Mode × Byte × Nat)} {mn : Mnemonic} {modes : List Mode}
    {line : List (Mode × Byte)}
    (hmk : ∀ o, (mk o).wellFormed = decide (o.mode ∈ modes) ∧ opcodeOf (mk o) = byteFor o.mode line ∧
      (mk o).operand = o ∧ (mk o).mnemonic = mn)
    (hrows : ∀ e ∈ rows, e.1 ∈ modes ∧ byteFor e.1 line = e.2.1 ∧ defaultTable.lookup e.2.1 = ⟨mn, e.1, e.2.2⟩) :
    EncodedAs mk rows := by
  intro o e he hmode
  obtain ⟨hwf, hopcode, hoperand, hmnemonic⟩ := hmk o
  obtain ⟨hlisted, hbyte, hlookup⟩ := hrows e he
  refine ⟨?_, ?_, ?_⟩
  · rw [hwf, hmode, decide_eq_true hlisted]
  · rw [encode, hopcode, hmode, hbyte, hoperand]
  · rw [hlookup, hmnemonic]

/-! ## Flags -/

/-- `SetZN` writes `Z` and `N` from the byte (R148). -/
theorem flagsWritten_znFlags (v p : Byte) : FlagsWritten p (znFlags v p) [(.z, v == 0), (.n, v.getLsbD 7)] := by
  intro f
  rw [getFlag_znFlags]
  cases f <;> rfl

/-! ## The exact next state of an instruction that makes no bus write -/

/-- Where no bus write is made, the answer leaves every byte of storage (`storageIsWrittenOnlyByItsWriters`). -/
theorem runsTo_of_exec {i : Instr} {s u : State} (h : exec i s = .next u) (hi : writesStorage i = false) : RunsTo i s u :=
  ⟨h, (storageIsWrittenOnlyByItsWriters i s u h hi).2⟩

/-- The resolver changes scratch registers and the draw count alone. -/
theorem resolve_eq_scratch {o : Operand} {s t : State} {crossed : Bool} (h : resolve o s = .next (crossed, t)) :
    t = scratch s t := (resolve_state h).1

/-- So do the resolver and the operand fetch together. -/
theorem operandIs_eq_scratch {o : Operand} {s t : State} {crossed : Bool} {m : Byte} (h : OperandIs o s crossed m t) :
    t = scratch s t := by
  obtain ⟨s1, hresolve, hfetch⟩ := h
  have ht := (fetchOperand_state hfetch).1
  rw [resolve_eq_scratch hresolve] at ht
  rw [ht]
  rfl

/-- An operation on a readable operand answers its effect on the byte, with a cycle more when the bonus is earned (R143,
R144). -/
theorem withOperand_of_operandIs {o : Operand} {s t : State} {crossed : Bool} {m : Byte} (h : OperandIs o s crossed m t)
    (eligible : Bool) (effect : Byte → State → State) :
    withOperand o eligible effect s = .next (addBonus (crossed && eligible) (effect m (scratch s t))) := by
  rw [← operandIs_eq_scratch h]
  obtain ⟨s1, hresolve, hfetch⟩ := h
  exact withOperand_eq_next.2 ⟨crossed, s1, m, t, hresolve, hfetch, rfl⟩

/-- The exact next state of an operation that is eligible for the bonus cycle. -/
theorem runsTo_of_eligible {i : Instr} {o : Operand} {s t u : State} {crossed : Bool} {m : Byte}
    {effect : Byte → State → State} (h : OperandIs o s crossed m t) (hexec : exec i s = withOperand o true effect s)
    (hi : writesStorage i = false)
    (hu : (effect m (scratch s t)).setCycles ((effect m (scratch s t)).cycles + crossed.toNat) = u) : RunsTo i s u := by
  refine runsTo_of_exec ?_ hi
  rw [hexec, withOperand_of_operandIs h, Bool.and_true, addBonus_eq, hu]

/-! ## One bus write -/

/-- What is stored is a matter of the devices alone. -/
theorem stored_congr {s s' t t' : State} {writes : List (Word × Byte)} (hs : s'.devices = s.devices)
    (ht : t'.devices = t.devices) (h : Stored s t writes) : Stored s' t' writes := by
  simp only [Stored, byteAt, storableAt, cellOf, cellByte, hs, ht] at h ⊢
  exact h

/-- A bus write stores its one byte and no other. -/
theorem stored_busWrite {a : Word} {v : Byte} {s t : State} (hwf : memoryWf s = true) (h : busWrite a v s = .next t) :
    Stored s t [(a, v)] := by
  constructor
  · intro b
    rw [byteAt_busWrite hwf h, List.find?_singleton]
    by_cases hcell : storableAt a s = true ∧ cellOf b s = cellOf a s <;> simp [hcell]
  · intro c hc
    exact cellByte_busWrite_ne hwf h c (hc (a, v) List.mem_cons_self)

/-- A bus write to a served address, made in any state with the storage and the mark of `s`, answers that state but for the
byte stored. -/
theorem answersStoring_busWrite {a : Word} {s u : State} (v : Byte) (hwf : memoryWf s = true) (hfatal : u.fatal = none)
    (hdevices : u.devices = s.devices) (hserved : servesAt a s = true) :
    AnswersStoring (busWrite a v u) s u [(a, v)] := by
  have hconfig : configOf u = configOf s := by simp only [configOf, hdevices]
  have hwfu : memoryWf u = true := by rwa [memoryWf, hdevices]
  obtain ⟨t, ht⟩ := busWrite_of_serves v hfatal ((servesAt_congr hconfig a).trans hserved)
  obtain ⟨hstate, hkept⟩ := busWrite_state ht
  refine ⟨t.devices, ?_, stored_congr (t := t) hdevices.symm rfl (stored_busWrite hwfu ht), hkept.trans hconfig⟩
  rw [ht]
  exact congrArg _ hstate

end Sys2Proof.Machine
end

section
/-! SUPPORT. Loads, stores and register transfers (file 42 of spec/). -/

namespace Sys2Proof.Machine

open Sys2Proof.Claims Sys2Proof.Safety

/-! ## Loads -/

/-- Settles O12: the rows by `encodedAs_of_rows`, the flags by `flagsWritten_znFlags`, each next state by
`runsTo_of_eligible`. -/
theorem loadsWriteTheRegisterAndZN : Obligations.LoadsWriteTheRegisterAndZN := by
  unfold Obligations.LoadsWriteTheRegisterAndZN
  refine ⟨encodedAs_of_rows (fun _ => ⟨rfl, rfl, rfl, rfl⟩) (by decide),
    encodedAs_of_rows (fun _ => ⟨rfl, rfl, rfl, rfl⟩) (by decide),
    encodedAs_of_rows (fun _ => ⟨rfl, rfl, rfl, rfl⟩) (by decide), ?_⟩
  intro o s crossed m t hop
  refine ⟨znFlags m s.p, flagsWritten_znFlags m s.p, ?lda, ?ldx, ?ldy⟩
  case lda => exact runsTo_of_eligible (effect := fun m s => (s.setA m).setZN m) hop rfl rfl rfl
  case ldx => exact runsTo_of_eligible (effect := fun m s => (s.setX m).setZN m) hop rfl rfl rfl
  case ldy => exact runsTo_of_eligible (effect := fun m s => (s.setY m).setZN m) hop rfl rfl rfl

/-! ## Stores -/

section
variable {o : Operand} {s t : State} {crossed : Bool}

/-- A store is the one write of its byte at the resolved address (R183). -/
theorem storeOperand_of_resolve (h : resolve o s = .next (crossed, t)) (value : State → Byte) :
    storeOperand o value s = busWrite t.addressAbs (value t) t := by
  rw [storeOperand, h, andThen_next]

/-- Where the address is served, the store answers the state the resolver left but for the byte stored. -/
theorem answersStoring_storeOperand (hwf : memoryWf s = true) (hfatal : s.fatal = none)
    (h : resolve o s = .next (crossed, t)) (hserved : servesAt t.addressAbs s = true) (value : State → Byte) :
    AnswersStoring (storeOperand o value s) s (scratch s t) [(t.addressAbs, value t)] := by
  rw [storeOperand_of_resolve h, ← resolve_eq_scratch h]
  exact answersStoring_busWrite _ hwf ((resolve_keeps h).fatal.trans hfatal) (resolve_devices h) hserved

/-- Where no device claims the address, the store is fatal (R70). -/
theorem storeOperand_unclaimed (hfatal : s.fatal = none) (h : resolve o s = .next (crossed, t))
    (hnone : select s.devices t.addressAbs .processor = none) (value : State → Byte) :
    storeOperand o value s = .fault (.noDevice t.addressAbs) := by
  rw [← resolve_devices h] at hnone
  rw [storeOperand_of_resolve h]
  exact (access_of_select_none ((resolve_keeps h).fatal.trans hfatal) hnone _).2

end

/-- Settles O13: the rows by `encodedAs_of_rows`, the served address by `answersStoring_storeOperand`, the unclaimed one by
`storeOperand_unclaimed`; the resolver leaves the registers stored. -/
theorem storesWriteTheEffectiveAddress : Obligations.StoresWriteTheEffectiveAddress := by
  unfold Obligations.StoresWriteTheEffectiveAddress
  refine ⟨encodedAs_of_rows (fun _ => ⟨rfl, rfl, rfl, rfl⟩) (by decide),
    encodedAs_of_rows (fun _ => ⟨rfl, rfl, rfl, rfl⟩) (by decide),
    encodedAs_of_rows (fun _ => ⟨rfl, rfl, rfl, rfl⟩) (by decide), ?_⟩
  intro o s crossed t hwf hfatal hresolve
  have hregisters := resolve_sameRegisters hresolve
  refine ⟨fun hserved => ?served, fun hnone => ?unclaimed⟩
  case served =>
    have hstores := answersStoring_storeOperand hwf hfatal hresolve hserved
    rw [← hregisters.a, ← hregisters.x, ← hregisters.y]
    exact ⟨hstores fun s => s.a, hstores fun s => s.x, hstores fun s => s.y⟩
  case unclaimed =>
    have hstops := storeOperand_unclaimed hfatal hresolve hnone
    exact ⟨hstops fun s => s.a, hstops fun s => s.x, hstops fun s => s.y⟩

/-! ## Transfers -/

/-- Settles O14: each transfer is its one update of the state (`runsTo_of_exec`), with the flags of `SetZN`
(`flagsWritten_znFlags`) but for TXS. -/
theorem transfersCopyTheRegister : Obligations.TransfersCopyTheRegister := by
  unfold Obligations.TransfersCopyTheRegister
  refine ⟨⟨rfl, rfl⟩, ⟨rfl, rfl⟩, ⟨rfl, rfl⟩, ⟨rfl, rfl⟩, ⟨rfl, rfl⟩, ⟨rfl, rfl⟩, fun s => ⟨?a, ?x, ?y, ?sp, ?txs⟩⟩
  case a => exact ⟨_, flagsWritten_znFlags s.a s.p, runsTo_of_exec rfl rfl, runsTo_of_exec rfl rfl⟩
  case x => exact ⟨_, flagsWritten_znFlags s.x s.p, runsTo_of_exec rfl rfl⟩
  case y => exact ⟨_, flagsWritten_znFlags s.y s.p, runsTo_of_exec rfl rfl⟩
  case sp => exact ⟨_, flagsWritten_znFlags s.sp s.p, runsTo_of_exec rfl rfl⟩
  case txs => exact runsTo_of_exec rfl rfl

end Sys2Proof.Machine
end

section
/-! SUPPORT. Arithmetic, logic, compare, increment and decrement (file 43 of spec/). -/

namespace Sys2Proof.Machine

open Sys2Proof.Claims Sys2Proof.Safety

/-! ## The adder that ADC and SBC share (R199 to R201) -/

theorem getLsbD_zext16 (b : Byte) {k : Nat} (hk : k < 16) : (zext16 b).getLsbD k = b.getLsbD k := by
  rw [zext16, BitVec.getLsbD_setWidth, decide_eq_true hk, Bool.true_and]

theorem getLsbD_lo (w : Word) {k : Nat} (hk : k < 8) : (lo w).getLsbD k = w.getLsbD k := by
  rw [lo, BitVec.getLsbD_extractLsb', decide_eq_true hk, Bool.true_and, Nat.zero_add]

/-- The mask 0x0080 tests bit 7. -/
theorem and_128_bne_zero (w : Word) : (w &&& 0x0080 != 0) = w.getLsbD 7 := by
  rw [show (0x0080 : Word) = BitVec.twoPow 16 7 from rfl, BitVec.and_twoPow]
  cases w.getLsbD 7 <;> rfl

/-- Bit 7 of a byte, as a number. -/
theorem getLsbD_seven (b : Byte) : b.getLsbD 7 = decide (128 ≤ b.toNat) := BitVec.getLsbD_last b

section
variable (a m : Byte) (c : Bool)

/-- The sum of two bytes and a carry does not wrap in 16 bits. -/
theorem toNat_add_bytes : (zext16 a + zext16 m + bit16 c).toNat = a.toNat + m.toNat + c.toNat := by
  have hc := c.toNat_le
  simp only [BitVec.toNat_add, toNat_zext16, toNat_bit16]
  omega

theorem addBytes_sum : (addBytes a m c).sum = BitVec.ofNat 8 (a.toNat + m.toNat + c.toNat) := by
  apply BitVec.eq_of_toNat_eq
  rw [addBytes, toNat_lo, toNat_add_bytes, BitVec.toNat_ofNat]

theorem addBytes_carry : (addBytes a m c).carry = decide (255 < a.toNat + m.toNat + c.toNat) := by
  rw [addBytes, toNat_add_bytes]

/-- R200's formula, as it reads: both operands have the same bit 7 and the result's differs. -/
theorem addBytes_overflow :
    (addBytes a m c).overflow =
      ((a.getLsbD 7 == m.getLsbD 7) && ((addBytes a m c).sum.getLsbD 7 != a.getLsbD 7)) := by
  have hbits : ∀ r x y : Bool, ((r ^^ x) && (r ^^ y)) = ((x == y) && (r != x)) := by decide
  simp only [addBytes, and_128_bne_zero, BitVec.getLsbD_and, BitVec.getLsbD_xor, getLsbD_lo, getLsbD_zext16, Nat.reduceLT,
    hbits]

/-- `V` reports signed overflow of the sum (R199). -/
theorem addBytes_overflow_iff :
    (addBytes a m c).overflow = true ↔
      a.toInt + m.toInt + (c.toNat : Int) < -128 ∨ 127 < a.toInt + m.toInt + (c.toNat : Int) := by
  have hc := c.toNat_le
  rw [addBytes_overflow, addBytes_sum]
  simp only [getLsbD_seven, BitVec.toNat_ofNat, BitVec.toInt_eq_toNat_cond, Bool.and_eq_true, beq_iff_eq, bne_iff_ne, ne_eq,
    decide_eq_decide]
  omega

theorem complement_eq_not : complement m = ~~~m := BitVec.xor_allOnes

theorem toNat_complement : (complement m).toNat = 255 - m.toNat := by
  rw [complement_eq_not, BitVec.toNat_not]

theorem toInt_complement : (complement m).toInt = -1 - m.toInt := by
  simp only [BitVec.toInt_eq_toNat_cond, toNat_complement]
  omega

theorem getLsbD_complement {k : Nat} (hk : k < 8) : (complement m).getLsbD k = !m.getLsbD k := by
  rw [complement_eq_not, BitVec.getLsbD_not, decide_eq_true hk, Bool.true_and]

/-- Adding the complement and `C` is `A - M - (1 - C)`, a byte more (R201). -/
theorem add_complement :
    ((a.toNat + (complement m).toNat + c.toNat : Nat) : Int) = (a.toNat : Int) - m.toNat - (1 - (c.toNat : Int)) + 256 := by
  rw [toNat_complement]
  omega

theorem addBytes_complement_sum :
    (addBytes a (complement m) c).sum = BitVec.ofInt 8 ((a.toNat : Int) - m.toNat - (1 - (c.toNat : Int))) := by
  have hadd := add_complement a m c
  apply BitVec.eq_of_toNat_eq
  rw [addBytes_sum, BitVec.toNat_ofNat, BitVec.toNat_ofInt]
  omega

theorem addBytes_complement_carry :
    (addBytes a (complement m) c).carry = decide (0 ≤ (a.toNat : Int) - m.toNat - (1 - (c.toNat : Int))) := by
  have hadd := add_complement a m c
  rw [addBytes_carry, decide_eq_decide]
  omega

theorem addBytes_complement_overflow :
    (addBytes a (complement m) c).overflow =
      ((a.getLsbD 7 != m.getLsbD 7) && ((addBytes a (complement m) c).sum.getLsbD 7 != a.getLsbD 7)) := by
  rw [addBytes_overflow, getLsbD_complement m (by decide)]
  cases a.getLsbD 7 <;> cases m.getLsbD 7 <;> rfl

end

/-- Settles O17: the sum by `addBytes_overflow_iff`, the difference as the sum with the complement, which is `-1 - M`
(`toInt_complement`). -/
theorem overflowIsSignedOverflow : Obligations.OverflowIsSignedOverflow := by
  unfold Obligations.OverflowIsSignedOverflow
  intro a m c
  refine ⟨addBytes_overflow_iff a m c, ?_⟩
  rw [addBytes_overflow_iff, toInt_complement]
  omega

/-! ## ADC and SBC -/

/-- An addition writes `C`, `V`, `Z` and `N` (R200). -/
theorem flagsWritten_applyAdd (r : AddResult) (s : State) :
    FlagsWritten s.p (s.applyAdd r).p [(.c, r.carry), (.z, r.sum == 0), (.n, r.sum.getLsbD 7), (.v, r.overflow)] := by
  intro f
  simp only [State.applyAdd_p, getFlag_znFlags, getFlag_setFlag]
  cases f <;> rfl

/-- The exact next state of an addition of the byte `w m`: its byte in `A`, its flags, the bonus cycle on a crossing. -/
theorem runsTo_of_addition {i : Instr} {o : Operand} {s t : State} {crossed : Bool} {m r : Byte} (w : Byte → Byte)
    (h : OperandIs o s crossed m t)
    (hexec : exec i s = withOperand o true (fun m s => s.applyAdd (addBytes s.a (w m) (s.flag .c))) s)
    (hi : writesStorage i = false) (hr : (addBytes s.a (w m) (getFlag .c s.p)).sum = r) :
    RunsTo i s
      { scratch s t with
        a := r
        p := (s.applyAdd (addBytes s.a (w m) (getFlag .c s.p))).p
        cycles := s.cycles + crossed.toNat } := by
  subst hr
  exact runsTo_of_eligible h hexec hi rfl

/-- Settles O15: the shared adder's byte, carry and overflow are R200's by `addBytes_sum`, `addBytes_carry`,
`addBytes_overflow`; the next state by `runsTo_of_addition`. -/
theorem adcAddsWithCarry : Obligations.AdcAddsWithCarry := by
  unfold Obligations.AdcAddsWithCarry
  refine ⟨encodedAs_of_rows (fun _ => ⟨rfl, rfl, rfl, rfl⟩) (by decide), ?_⟩
  intro o s crossed m t hop
  have hflags := flagsWritten_applyAdd (addBytes s.a m (getFlag .c s.p)) s
  rw [addBytes_carry, addBytes_overflow, addBytes_sum] at hflags
  exact ⟨_, hflags, runsTo_of_addition (fun m => m) hop rfl rfl (addBytes_sum _ _ _)⟩

/-- Settles O16: the shared adder on the complement, by `addBytes_complement_sum`, `addBytes_complement_carry`,
`addBytes_complement_overflow`; the next state by `runsTo_of_addition`. -/
theorem sbcSubtractsWithBorrow : Obligations.SbcSubtractsWithBorrow := by
  unfold Obligations.SbcSubtractsWithBorrow
  refine ⟨encodedAs_of_rows (fun _ => ⟨rfl, rfl, rfl, rfl⟩) (by decide), ?_⟩
  intro o s crossed m t hop
  have hflags := flagsWritten_applyAdd (addBytes s.a (complement m) (getFlag .c s.p)) s
  rw [addBytes_complement_carry, addBytes_complement_overflow, addBytes_complement_sum] at hflags
  exact ⟨_, hflags, runsTo_of_addition complement hop rfl rfl (addBytes_complement_sum _ _ _)⟩

/-! ## AND, ORA, EOR -/

/-- Settles O18: each result's bits are those of the bitwise operation, its flags by `flagsWritten_znFlags`, the next state by
`runsTo_of_eligible`. -/
theorem logicCombinesTheBits : Obligations.LogicCombinesTheBits := by
  unfold Obligations.LogicCombinesTheBits
  refine ⟨encodedAs_of_rows (fun _ => ⟨rfl, rfl, rfl, rfl⟩) (by decide),
    encodedAs_of_rows (fun _ => ⟨rfl, rfl, rfl, rfl⟩) (by decide),
    encodedAs_of_rows (fun _ => ⟨rfl, rfl, rfl, rfl⟩) (by decide), ?_⟩
  intro o s crossed m t hop
  refine ⟨⟨s.a &&& m, _, fun _ _ => BitVec.getLsbD_and, flagsWritten_znFlags _ _, ?and⟩,
    ⟨s.a ||| m, _, fun _ _ => BitVec.getLsbD_or, flagsWritten_znFlags _ _, ?ora⟩,
    ⟨s.a ^^^ m, _, fun _ _ => BitVec.getLsbD_xor, flagsWritten_znFlags _ _, ?eor⟩⟩
  case and => exact runsTo_of_eligible (effect := fun m s => (s.setA (s.a &&& m)).setZN (s.a &&& m)) hop rfl rfl rfl
  case ora => exact runsTo_of_eligible (effect := fun m s => (s.setA (s.a ||| m)).setZN (s.a ||| m)) hop rfl rfl rfl
  case eor => exact runsTo_of_eligible (effect := fun m s => (s.setA (s.a ^^^ m)).setZN (s.a ^^^ m)) hop rfl rfl rfl

/-! ## Comparisons and BIT -/

/-- The exact next state of an operation that never earns the bonus cycle. -/
theorem runsTo_of_ineligible {i : Instr} {o : Operand} {s t u : State} {crossed : Bool} {m : Byte}
    {effect : Byte → State → State} (h : OperandIs o s crossed m t) (hexec : exec i s = withOperand o false effect s)
    (hi : writesStorage i = false) (hu : effect m (scratch s t) = u) : RunsTo i s u := by
  refine runsTo_of_exec ?_ hi
  rw [hexec, withOperand_of_operandIs h, Bool.and_false, addBonus_false, hu]

/-- The low byte of the 16-bit difference is the difference of the bytes. -/
theorem lo_zext16_sub (r m : Byte) : lo (zext16 r - zext16 m) = r - m := by
  apply BitVec.eq_of_toNat_eq
  simp only [toNat_lo, BitVec.toNat_sub, toNat_zext16]
  omega

/-- A comparison writes `C` when the register is not below the operand, `Z` when they are equal, `N` of the difference
(R205). -/
theorem flagsWritten_compare (r m : Byte) (s : State) :
    FlagsWritten s.p (s.compare r m).p [(.c, decide (m.toNat ≤ r.toNat)), (.z, r == m), (.n, (r - m).getLsbD 7)] := by
  have hzero : (r - m == 0) = (r == m) := by rw [Bool.eq_iff_iff, beq_iff_eq, beq_iff_eq, sub_eq_zero]
  intro f
  simp only [State.compare_p, lo_zext16_sub, getFlag_znFlags, getFlag_setFlag, hzero]
  cases f <;> rfl

/-- Settles O19: the flags by `flagsWritten_compare`, the next state by `runsTo_of_eligible` for CMP and
`runsTo_of_ineligible` for CPX and CPY. -/
theorem comparesWriteOnlyFlags : Obligations.ComparesWriteOnlyFlags := by
  unfold Obligations.ComparesWriteOnlyFlags
  refine ⟨encodedAs_of_rows (fun _ => ⟨rfl, rfl, rfl, rfl⟩) (by decide),
    encodedAs_of_rows (fun _ => ⟨rfl, rfl, rfl, rfl⟩) (by decide),
    encodedAs_of_rows (fun _ => ⟨rfl, rfl, rfl, rfl⟩) (by decide), ?_⟩
  intro o s crossed m t hop
  refine ⟨⟨_, flagsWritten_compare s.a m s, ?cmp⟩, ⟨_, flagsWritten_compare s.x m s, ?cpx⟩,
    ⟨_, flagsWritten_compare s.y m s, ?cpy⟩⟩
  case cmp => exact runsTo_of_eligible (effect := fun m s => s.compare s.a m) hop rfl rfl rfl
  case cpx => exact runsTo_of_ineligible (effect := fun m s => s.compare s.x m) hop rfl rfl rfl
  case cpy => exact runsTo_of_ineligible (effect := fun m s => s.compare s.y m) hop rfl rfl rfl

/-- BIT writes `Z` from the and, `N` and `V` from bits 7 and 6 of the operand (R208). -/
theorem flagsWritten_bitTest (m : Byte) (s : State) :
    FlagsWritten s.p (s.bitTest m).p [(.z, (s.a &&& m) == 0), (.n, m.getLsbD 7), (.v, m.getLsbD 6)] := by
  intro f
  simp only [State.bitTest_p, getFlag_setFlag]
  cases f <;> rfl

/-- Settles O20: the flags by `flagsWritten_bitTest`, the next state by `runsTo_of_ineligible`. -/
theorem bitTestsTheOperand : Obligations.BitTestsTheOperand := by
  unfold Obligations.BitTestsTheOperand
  refine ⟨encodedAs_of_rows (fun _ => ⟨rfl, rfl, rfl, rfl⟩) (by decide), ?_⟩
  intro o s crossed m t hop
  exact ⟨_, flagsWritten_bitTest m s, runsTo_of_ineligible hop rfl rfl rfl⟩

/-! ## Counting one up and one down, modulo 256 -/

theorem toNat_add_one (m : Byte) : (m + 1).toNat = (m.toNat + 1) % 256 := BitVec.toNat_add m 1

theorem toNat_sub_one (m : Byte) : (m - 1).toNat = (m.toNat + 255) % 256 := by
  rw [Nat.add_comm]
  exact BitVec.toNat_sub m 1

/-- On a readable operand INC and DEC are the one write of the new byte where the old one was read, then `SetZN` (R209). -/
theorem modifyOperand_of_operandIs {o : Operand} {s t : State} {crossed : Bool} {m : Byte} (h : OperandIs o s crossed m t)
    (f : Byte → Byte) :
    modifyOperand o f s = andThen (busWrite t.addressAbs (f m) t) fun u => .next (u.setZN (f m)) := by
  obtain ⟨s1, hresolve, hfetch⟩ := h
  simp only [modifyOperand, hresolve, hfetch, andThen_next]

/-- Where the address is served, they answer the state the operand left, with `Z` and `N` of the new byte, but for the byte
stored. -/
theorem answersStoring_modifyOperand {o : Operand} {s t : State} {crossed : Bool} {m : Byte} (hwf : memoryWf s = true)
    (hfatal : s.fatal = none) (h : OperandIs o s crossed m t) (hserved : servesAt t.addressAbs s = true)
    (f : Byte → Byte) :
    AnswersStoring (modifyOperand o f s) s { scratch s t with p := znFlags (f m) s.p } [(t.addressAbs, f m)] := by
  obtain ⟨ds, hwrite, hstored, hconfig⟩ :=
    answersStoring_busWrite (u := scratch s t) (f m) hwf hfatal rfl hserved
  refine ⟨ds, ?_, stored_congr rfl rfl hstored, hconfig⟩
  rw [← operandIs_eq_scratch h] at hwrite
  rw [modifyOperand_of_operandIs h, hwrite, andThen_next, operandIs_eq_scratch h]
  rfl

/-- Settles O21: `answersStoring_modifyOperand` at the byte one more (`toNat_add_one`) and one less (`toNat_sub_one`). -/
theorem incAndDecModifyStorage : Obligations.IncAndDecModifyStorage := by
  unfold Obligations.IncAndDecModifyStorage
  refine ⟨encodedAs_of_rows (fun _ => ⟨rfl, rfl, rfl, rfl⟩) (by decide),
    encodedAs_of_rows (fun _ => ⟨rfl, rfl, rfl, rfl⟩) (by decide), ?_⟩
  intro o s crossed m t hwf hfatal hop hserved
  have hmodify := answersStoring_modifyOperand hwf hfatal hop hserved
  exact ⟨⟨_, _, toNat_add_one m, flagsWritten_znFlags _ s.p, hmodify fun m => m + 1⟩,
    ⟨_, _, toNat_sub_one m, flagsWritten_znFlags _ s.p, hmodify fun m => m - 1⟩⟩

/-- Settles O22: each is its one update of the state (`runsTo_of_exec`), by one up (`toNat_add_one`) or down
(`toNat_sub_one`), with the flags of `SetZN`. -/
theorem indexRegistersCount : Obligations.IndexRegistersCount := by
  unfold Obligations.IndexRegistersCount
  refine ⟨⟨rfl, rfl⟩, ⟨rfl, rfl⟩, ⟨rfl, rfl⟩, ⟨rfl, rfl⟩, fun s => ⟨?inx, ?iny, ?dex, ?dey⟩⟩
  case inx => exact ⟨_, _, toNat_add_one s.x, flagsWritten_znFlags _ s.p, runsTo_of_exec rfl rfl⟩
  case iny => exact ⟨_, _, toNat_add_one s.y, flagsWritten_znFlags _ s.p, runsTo_of_exec rfl rfl⟩
  case dex => exact ⟨_, _, toNat_sub_one s.x, flagsWritten_znFlags _ s.p, runsTo_of_exec rfl rfl⟩
  case dey => exact ⟨_, _, toNat_sub_one s.y, flagsWritten_znFlags _ s.p, runsTo_of_exec rfl rfl⟩

end Sys2Proof.Machine
end

section
/-! SUPPORT. Shifts and rotates (file 44 of spec/). -/

namespace Sys2Proof.Machine

open Sys2Proof.Claims Sys2Proof.Safety

/-! ## The results as numbers (R230 to R233) -/

/-- The shift left leaves bit 0 free for the old `C`. -/
theorem toNat_shiftLeft_one_or (m : Byte) (c : Bool) : ((zext16 m <<< 1) ||| bit16 c).toNat = 2 * m.toNat + c.toNat := by
  have hc : c.toNat < 2 ^ 1 := c.toNat_lt
  rw [BitVec.toNat_or, BitVec.toNat_shiftLeft, toNat_zext16, toNat_bit16, Nat.shiftLeft_eq, Nat.mod_eq_of_lt (by omega),
    ← Nat.shiftLeft_eq, ← Nat.shiftLeft_add_eq_or_of_lt hc, Nat.shiftLeft_eq]
  omega

/-- ROL's byte is `2 M + C`; bit 8 of the 16-bit shift is bit 7 of the byte (R232). -/
theorem rolOf_eq_shiftRol (c : Bool) (m : Byte) : rolOf c m = ((shiftRol c m).value, (shiftRol c m).carry) := by
  refine Prod.ext ?value ?carry
  case value =>
    apply BitVec.eq_of_toNat_eq
    simp only [rolOf, shiftRol, toNat_lo, toNat_shiftLeft_one_or, BitVec.toNat_ofNat]
  case carry =>
    have hcarry : (bit16 c).getLsbD 8 = false := by cases c <;> rfl
    simp only [rolOf, shiftRol, BitVec.getLsbD_or, BitVec.getLsbD_shiftLeft, hcarry, Bool.or_false]
    exact (getLsbD_zext16 m (by decide)).symm

/-- The shift right leaves bit 7 free for the old `C`: ROR's byte is `128 C + M / 2` (R233). -/
theorem rorOf_eq_shiftRor (c : Bool) (m : Byte) : rorOf c m = ((shiftRor c m).value, (shiftRor c m).carry) := by
  have hbit : ((if c then 1#8 else 0#8) <<< 7).toNat = c.toNat <<< 7 := by cases c <;> rfl
  have hhalf : m.toNat / 2 < 2 ^ 7 := by omega
  have hc := c.toNat_le
  refine Prod.ext ?_ rfl
  apply BitVec.eq_of_toNat_eq
  rw [shiftRor, BitVec.toNat_or, hbit, BitVec.toNat_ushiftRight, Nat.shiftRight_one, ← Nat.shiftLeft_add_eq_or_of_lt hhalf,
    Nat.shiftLeft_eq, rorOf, BitVec.toNat_ofNat]
  omega

/-- ASL is ROL with nothing fed in. -/
theorem aslOf_eq_shiftAsl (c : Bool) (m : Byte) : aslOf c m = ((shiftAsl c m).value, (shiftAsl c m).carry) := by
  have hzero : zext16 m <<< 1 ||| bit16 false = zext16 m <<< 1 := BitVec.or_zero
  have hasl : shiftAsl c m = shiftRol false m := by rw [shiftAsl, shiftRol, hzero]
  rw [hasl]
  exact rolOf_eq_shiftRol false m

/-- LSR is ROR with nothing fed in. -/
theorem lsrOf_eq_shiftLsr (c : Bool) (m : Byte) : lsrOf c m = ((shiftLsr c m).value, (shiftLsr c m).carry) := by
  have hlsr : shiftLsr c m = shiftRor false m := congrArg (ShiftResult.mk · _) BitVec.zero_or.symm
  have hof : lsrOf c m = rorOf false m := Prod.ext (congrArg (BitVec.ofNat 8) (Nat.zero_add _).symm) rfl
  rw [hlsr, hof]
  exact rorOf_eq_shiftRor false m

/-! ## The two forms (R229) -/

/-- The flag byte a shift leaves: `C` from the bit shifted out, `Z` and `N` from the result. -/
def shiftFlags (r : ShiftResult) (p : Byte) : Byte := znFlags r.value (setFlag .c r.carry p)

theorem flagsWritten_shiftFlags (r : ShiftResult) (p : Byte) :
    FlagsWritten p (shiftFlags r p) [(.c, r.carry), (.z, r.value == 0), (.n, r.value.getLsbD 7)] := by
  intro f
  rw [shiftFlags, getFlag_znFlags, getFlag_setFlag]
  cases f <;> rfl

/-- The write back of every form but the accumulator's is the one bus write. -/
theorem writeBack_of_ne_imp {o : Operand} (ho : o ≠ .imp) (r : Byte) (s : State) :
    writeBack o r s = busWrite s.addressAbs r s := by
  cases o with
  | imp => exact absurd rfl ho
  | _ => rfl

section
variable {o : Operand} {s t : State} {crossed : Bool} {m : Byte}

/-- On a readable operand a shift is the write back of its result, made with its flags written. -/
theorem shiftOperand_of_operandIs (h : OperandIs o s crossed m t) (g : Bool → Byte → ShiftResult) :
    shiftOperand o g s =
      writeBack o (g (getFlag .c s.p) m).value { scratch s t with p := shiftFlags (g (getFlag .c s.p) m) s.p } := by
  have ht := operandIs_eq_scratch h
  obtain ⟨s1, hresolve, hfetch⟩ := h
  simp only [shiftOperand, hresolve, hfetch, andThen_next]
  rw [ht]
  rfl

/-- Where the address is served, the memory form answers the state the operand left, with its flags written, but for the byte
stored. -/
theorem answersStoring_shiftOperand (ho : o ≠ .imp) (hwf : memoryWf s = true) (hfatal : s.fatal = none)
    (h : OperandIs o s crossed m t) (hserved : servesAt t.addressAbs s = true) (g : Bool → Byte → ShiftResult) :
    AnswersStoring (shiftOperand o g s) s { scratch s t with p := shiftFlags (g (getFlag .c s.p) m) s.p }
      [(t.addressAbs, (g (getFlag .c s.p) m).value)] := by
  rw [shiftOperand_of_operandIs h, writeBack_of_ne_imp ho]
  exact answersStoring_busWrite _ hwf hfatal rfl hserved

end

/-- An instruction of the shifts' shape whose result and bit out are those of `f` does what R229 says. -/
theorem shifts_of_shiftOperand {mk : Operand → Instr} {f : Bool → Byte → Byte × Bool} (g : Bool → Byte → ShiftResult)
    (hexec : ∀ o s, exec (mk o) s = shiftOperand o g s) (himp : writesStorage (mk .imp) = false)
    (hf : ∀ c m, f c m = ((g c m).value, (g c m).carry)) : Shifts mk f := by
  constructor
  · intro s
    rw [hf]
    exact ⟨_, flagsWritten_shiftFlags _ _, runsTo_of_exec (hexec .imp s) himp⟩
  · intro o s crossed m t ho hwf hfatal hop hserved
    rw [hf, hexec]
    exact ⟨_, flagsWritten_shiftFlags _ _, answersStoring_shiftOperand ho hwf hfatal hop hserved g⟩

/-- Settles O24: the rows by `encodedAs_of_rows`; each shift has the one shape of `shifts_of_shiftOperand`, and its byte and
bit out are the rule's numbers (`aslOf_eq_shiftAsl`, `lsrOf_eq_shiftLsr`, `rolOf_eq_shiftRol`, `rorOf_eq_shiftRor`). -/
theorem shiftsMoveOneBit : Obligations.ShiftsMoveOneBit := by
  unfold Obligations.ShiftsMoveOneBit
  refine ⟨encodedAs_of_rows (fun _ => ⟨rfl, rfl, rfl, rfl⟩) (by decide),
    encodedAs_of_rows (fun _ => ⟨rfl, rfl, rfl, rfl⟩) (by decide),
    encodedAs_of_rows (fun _ => ⟨rfl, rfl, rfl, rfl⟩) (by decide),
    encodedAs_of_rows (fun _ => ⟨rfl, rfl, rfl, rfl⟩) (by decide), ?asl, ?lsr, ?rol, ?ror⟩
  case asl => exact shifts_of_shiftOperand shiftAsl (fun _ _ => rfl) (by decide) aslOf_eq_shiftAsl
  case lsr => exact shifts_of_shiftOperand shiftLsr (fun _ _ => rfl) (by decide) lsrOf_eq_shiftLsr
  case rol => exact shifts_of_shiftOperand shiftRol (fun _ _ => rfl) (by decide) rolOf_eq_shiftRol
  case ror => exact shifts_of_shiftOperand shiftRor (fun _ _ => rfl) (by decide) rorOf_eq_shiftRor

end Sys2Proof.Machine
end

section
/-! SUPPORT. Flag instructions and no-operations (file 45 of spec/). -/

namespace Sys2Proof.Machine

open Sys2Proof.Claims

/-! ## The flag instructions -/

/-- `set_flag` writes its one flag (R30). -/
theorem flagsWritten_setFlag (f : Flag) (v : Bool) (p : Byte) : FlagsWritten p (setFlag f v p) [(f, v)] := by
  intro g
  rw [getFlag_setFlag, List.lookup_cons]
  by_cases h : g = f
  · rw [if_pos h, beq_iff_eq.2 h]
    rfl
  · rw [if_neg h, beq_false_of_ne h]
    rfl

/-- An instruction that is one flag write writes that flag, takes the accumulator as its operand and does nothing more. -/
theorem runsTo_of_setFlag {i : Instr} {s : State} {f : Flag} {v : Bool}
    (hexec : exec i s = implied (fun s => s.setFlag f v) s) (hi : writesStorage i = false) :
    ∃ q : Byte, FlagsWritten s.p q [(f, v)] ∧ RunsTo i s { s with fetched := s.a, p := q } :=
  ⟨setFlag f v s.p, flagsWritten_setFlag f v s.p, runsTo_of_exec hexec hi⟩

/-- Settles O25: each of the seven is one write of its flag (`runsTo_of_setFlag`). -/
theorem flagInstructionsWriteOneFlag : Obligations.FlagInstructionsWriteOneFlag := by
  unfold Obligations.FlagInstructionsWriteOneFlag
  refine ⟨⟨rfl, rfl⟩, ⟨rfl, rfl⟩, ⟨rfl, rfl⟩, ⟨rfl, rfl⟩, ⟨rfl, rfl⟩, ⟨rfl, rfl⟩, ⟨rfl, rfl⟩, fun s e he => ?_⟩
  obtain ⟨hexec, hstores⟩ : exec e.1 s = implied (fun s => s.setFlag e.2.1 e.2.2) s ∧ writesStorage e.1 = false := by
    simp only [List.mem_cons, List.not_mem_nil, or_false] at he
    obtain rfl | rfl | rfl | rfl | rfl | rfl | rfl := he <;> exact ⟨rfl, rfl⟩
  exact runsTo_of_setFlag hexec hstores

/-! ## The no-operations -/

/-- An unassigned byte has the default no-op's record: mode `IMP`, base cycle count 1 (R125). -/
theorem lookup_of_mem_unassigned {b : Byte} (hb : b ∈ unassigned) : defaultTable.lookup b = dnopRecord :=
  of_decide_eq_true (List.all_eq_true.1 Laws.TableAgreement.lookup_unassigned b hb)

/-- So it decodes to the default no-op, which takes the one byte (`decode_encode_append`). -/
theorem decode_of_mem_unassigned {b : Byte} (hb : b ∈ unassigned) : decode [b] = .ok (.dnop b, []) :=
  decode_encode_append (i := .dnop b) (decide_eq_true hb) []

/-- Settles O26: the unassigned bytes by `lookup_of_mem_unassigned` and `decode_of_mem_unassigned`; both no-operations are the
fetch of the accumulator alone (`runsTo_of_exec`). -/
theorem noOpsChangeNothing : Obligations.NoOpsChangeNothing := by
  unfold Obligations.NoOpsChangeNothing
  refine ⟨⟨rfl, rfl⟩, rfl, fun s => ⟨?nop, fun b hb => ⟨?encoded, ?decoded, ?dnop⟩⟩⟩
  case nop => exact runsTo_of_exec rfl rfl
  case encoded => exact ⟨rfl, lookup_of_mem_unassigned hb⟩
  case decoded => exact decode_of_mem_unassigned hb
  case dnop => exact runsTo_of_exec rfl rfl

end Sys2Proof.Machine
end

section
/-! SUPPORT. The stack in the statements' words: storage after a sequence of bus writes, pushes that store one more byte, pulls
of the bytes the bus answers. -/

namespace Sys2Proof.Machine

open Sys2Proof.Claims Sys2Proof.Safety

/-! ## Words, bytes and stack locations -/

theorem highByte_eq_hi (w : Word) : highByte w = hi w := by
  apply BitVec.eq_of_toNat_eq
  rw [highByte, BitVec.toNat_ofNat, toNat_hi]
  omega

theorem lowByte_eq_lo (w : Word) : lowByte w = lo w := by
  apply BitVec.eq_of_toNat_eq
  rw [lowByte, BitVec.toNat_ofNat, toNat_lo]
  omega

/-- A word is the word of its two bytes. -/
theorem wordOf_highByte_lowByte (w : Word) : wordOf (highByte w) (lowByte w) = w := by
  rw [← mk16_eq_wordOf, highByte_eq_hi, lowByte_eq_lo, mk16_hi_lo]

/-- `{0x01, SP}` is processor address 0x0100 + SP (R25). -/
theorem stackAddr_eq_stackAt (sp : Byte) : stackAddr sp = stackAt sp := mk16_eq_wordOf 0x01 sp

theorem add_one_add_one (b : Byte) : b + 1 + 1 = b + 2 := BitVec.add_assoc b 1 1

theorem sub_one_sub_one (b : Byte) : b - 1 - 1 = b - 2 := by bv_omega

/-! ## Storage after a sequence of writes -/

/-- The state `t` was reached from `s` by bus writes: well-formed storage that holds the writes (last first), in the same
configuration. -/
structure HoldsWrites (s t : State) (writes : List (Word × Byte)) : Prop where
  wf : memoryWf t = true
  config : configOf t = configOf s
  stored : Stored s t writes

/-- Before any write every byte and every cell is as it was, whatever happened to the registers. -/
theorem HoldsWrites.nil {s t : State} (hwf : memoryWf s = true) (hdevices : t.devices = s.devices) :
    HoldsWrites s t [] where
  wf := by rwa [memoryWf, hdevices]
  config := by rw [configOf, hdevices, configOf]
  stored := ⟨byteAt_congr hdevices, fun c _ => by rw [cellByte, hdevices, cellByte]⟩

/-- What storage holds is a matter of the devices alone. -/
theorem HoldsWrites.congr {s t u : State} {writes : List (Word × Byte)} (h : HoldsWrites s t writes)
    (hdevices : u.devices = t.devices) : HoldsWrites s u writes where
  wf := by rw [memoryWf, hdevices]; exact h.wf
  config := by rw [configOf, hdevices]; exact h.config
  stored := stored_congr rfl hdevices h.stored

/-- One more bus write is the last write. -/
theorem HoldsWrites.busWrite {s t u : State} {writes : List (Word × Byte)} {a : Word} {v : Byte}
    (h : HoldsWrites s t writes) (hu : busWrite a v t = .next u) : HoldsWrites s u ((a, v) :: writes) where
  wf := memoryWf_busWrite h.wf hu
  config := (busWrite_state hu).2.trans h.config
  stored := by
    obtain ⟨hbytes, hcells⟩ := h.stored
    constructor
    · intro b
      rw [byteAt_busWrite h.wf hu, storableAt_congr h.config, cellOf_congr h.config, cellOf_congr h.config, hbytes]
      by_cases hcell : storableAt a s = true ∧ cellOf b s = cellOf a s
      · rw [if_pos hcell, List.find?_cons_of_pos (by simpa using hcell)]
      · rw [if_neg hcell, List.find?_cons_of_neg (by simpa using hcell)]
    · intro c hc
      have hother : cellOf a t ≠ some c := by
        rw [cellOf_congr h.config]
        exact hc (a, v) List.mem_cons_self
      rw [cellByte_busWrite_ne h.wf hu c hother]
      exact hcells c fun w hw => hc w (List.mem_cons_of_mem _ hw)

/-- The last byte written is read at its address, where that stores. -/
theorem byteAt_of_stored_last {s t : State} {writes : List (Word × Byte)} {a : Word} {v : Byte}
    (h : Stored s t ((a, v) :: writes)) (ha : storableAt a s = true) : byteAt a t = some v := by
  rw [h.1, List.find?_cons_of_pos (by simpa using ha)]

/-- The byte written before it is read at its own address, where that stores and is another cell. -/
theorem byteAt_of_stored_before {s t : State} {writes : List (Word × Byte)} {a b : Word} {v w : Byte}
    (h : Stored s t ((a, v) :: (b, w) :: writes)) (hb : storableAt b s = true) (hcells : cellOf b s ≠ cellOf a s) :
    byteAt b t = some w := by
  rw [h.1, List.find?_cons_of_neg (by simp [hcells]), List.find?_cons_of_pos (by simpa using hb)]

/-! ## Pushes -/

/-- A push onto a served stack location answers the state with `SP` one less and the byte stored last (R149). -/
theorem push8_holdsWrites {s t : State} {writes : List (Word × Byte)} (h : HoldsWrites s t writes) (v : Byte)
    (hfatal : t.fatal = none) (hserved : servesAt (stackAt t.sp) s = true) :
    ∃ ds, push8 v t = .next ((t.setDevices ds).setSp (t.sp - 1)) ∧
      HoldsWrites s (t.setDevices ds) ((stackAt t.sp, v) :: writes) := by
  rw [← servesAt_congr h.config, ← stackAddr_eq_stackAt] at hserved
  obtain ⟨u, hu⟩ := busWrite_of_serves v hfatal hserved
  have hstate := (busWrite_state hu).1
  refine ⟨u.devices, ?_, ?_⟩
  · rw [← hstate]
    exact push8_eq_next.2 ⟨u, hu, rfl⟩
  · rw [← hstate, ← stackAddr_eq_stackAt]
    exact h.busWrite hu

/-- A push of a word stores its high byte, then its low byte one location below, with `SP` two less (R151). -/
theorem push16_holdsWrites {s t : State} {writes : List (Word × Byte)} (h : HoldsWrites s t writes) (w : Word)
    (hfatal : t.fatal = none) (hhigh : servesAt (stackAt t.sp) s = true) (hlow : servesAt (stackAt (t.sp - 1)) s = true) :
    ∃ ds, push16 w t = .next ((t.setDevices ds).setSp (t.sp - 2)) ∧
      HoldsWrites s (t.setDevices ds) ((stackAt (t.sp - 1), lowByte w) :: (stackAt t.sp, highByte w) :: writes) := by
  obtain ⟨ds₁, hpush₁, hholds₁⟩ := push8_holdsWrites h (hi w) hfatal hhigh
  obtain ⟨ds₂, hpush₂, hholds₂⟩ :=
    push8_holdsWrites (t := (t.setDevices ds₁).setSp (t.sp - 1)) (hholds₁.congr rfl) (lo w) hfatal hlow
  rw [← sub_one_sub_one, highByte_eq_hi, lowByte_eq_lo]
  exact ⟨ds₂, push16_eq_next.2 ⟨_, hpush₁, hpush₂⟩, hholds₂.congr rfl⟩

/-! ## Pulls -/

/-- A pull answers what the bus answers one location up, in every state that agrees on what the bus depends on (R150). -/
theorem pull8_of_busRead {s s1 u : State} {v : Byte} (h : busRead (stackAt (u.sp + 1)) s = .next (v, s1))
    (hfatal : u.fatal = s.fatal) (hdevices : u.devices = s.devices) (hdraws : u.draws = s.draws) :
    pull8 u = .next (v, (u.setSp (u.sp + 1)).setDraws s1.draws) := by
  rw [← stackAddr_eq_stackAt] at h
  exact busRead_frame (u := u.setSp (u.sp + 1)) h hfatal hdevices hdraws

/-- A pull of a word answers the word of the two bytes, low byte first, with `SP` two more (R152). -/
theorem pull16_of_reads {s t u : State} {l h : Byte}
    (hreads : Reads s [(stackAt (u.sp + 1), l), (stackAt (u.sp + 2), h)] t)
    (hfatal : u.fatal = s.fatal) (hdevices : u.devices = s.devices) (hdraws : u.draws = s.draws) :
    pull16 u = .next (wordOf h l, (u.setSp (u.sp + 2)).setDraws t.draws) := by
  rw [← add_one_add_one] at hreads ⊢
  obtain ⟨s1, hlow, t', hhigh, rfl⟩ := hreads
  have hs1 := (busRead_state hlow).1
  have hpull₂ := pull8_of_busRead (u := (u.setSp (u.sp + 1)).setDraws s1.draws) hhigh
    (by rw [hs1]; exact hfatal) (by rw [hs1]; exact hdevices) rfl
  exact pull16_eq_next.2 ⟨l, _, h, pull8_of_busRead hlow hfatal hdevices hdraws, hpull₂, (mk16_eq_wordOf h l).symm⟩

end Sys2Proof.Machine
end

section
/-! SUPPORT. Branches, jumps, subroutine call and return (file 46 of spec/). -/

namespace Sys2Proof.Machine

open Sys2Proof.Claims Sys2Proof.Safety

/-! ## Branches -/

/-- The target of a branch is the sum with the signed displacement, modulo 2^16 (R260). -/
theorem toNat_add_sext16 (base : Word) (disp : Byte) :
    ((base + sext16 disp).toNat : Int) = ((base.toNat : Int) + disp.toInt) % 65536 := by
  rw [← toInt_sext16, BitVec.toInt_eq_toNat_cond, BitVec.toNat_add]
  split <;> omega

/-- The extra cycles of a taken branch: one, and one more across a page (R260). -/
theorem branch_true (s : State) :
    branch true s = (s.setCycles (s.cycles + 1 +
      (if (s.pc + s.addressRel).toNat / 256 ≠ s.pc.toNat / 256 then 1 else 0))).setPc (s.pc + s.addressRel) := by
  simp only [branch, if_true, pageCrossed_eq_decide, decide_eq_true_eq]
  split <;> rfl

/-- An instruction that is the shared branch on a condition branches on the flag that the condition tests. -/
theorem branchesOn_of_branchOn {mk : Byte → Instr} {f : Flag} {when_ : Bool} {cond : State → Bool}
    (hexec : ∀ d s, exec (mk d) s = branchOn d cond s) (hstores : ∀ d, writesStorage (mk d) = false)
    (hcond : ∀ s, cond s = true ↔ getFlag f s.p = when_) : BranchesOn mk f when_ := by
  intro d s
  have hbranch : exec (mk d) s =
      .next (branch (cond (s.setAddressRel (sext16 d))) (s.setAddressRel (sext16 d))) := hexec d s
  have hflag := hcond (s.setAddressRel (sext16 d))
  rw [← sext16_eq]
  refine ⟨fun hnot => ?notTaken, fun htaken => ⟨s.pc + sext16 d, toNat_add_sext16 s.pc d, ?taken⟩⟩
  case notTaken =>
    rw [Bool.eq_false_iff.2 (hflag.not.2 hnot)] at hbranch
    exact runsTo_of_exec hbranch (hstores d)
  case taken =>
    rw [hflag.2 htaken, branch_true] at hbranch
    exact runsTo_of_exec hbranch (hstores d)

/-- A branch on a flag that is set. -/
theorem branchesOn_set {mk : Byte → Instr} {f : Flag} (hexec : ∀ d s, exec (mk d) s = branchOn d (fun s => s.flag f) s)
    (hstores : ∀ d, writesStorage (mk d) = false) : BranchesOn mk f true :=
  branchesOn_of_branchOn hexec hstores fun _ => Iff.rfl

/-- A branch on a flag that is clear. -/
theorem branchesOn_clear {mk : Byte → Instr} {f : Flag} (hexec : ∀ d s, exec (mk d) s = branchOn d (fun s => !s.flag f) s)
    (hstores : ∀ d, writesStorage (mk d) = false) : BranchesOn mk f false :=
  branchesOn_of_branchOn hexec hstores fun s => by rw [Bool.not_eq_true', State.flag_eq]

/-- Settles O27: each mnemonic is the shared branch on its flag set (`branchesOn_set`) or clear (`branchesOn_clear`). -/
theorem branchesGoWhereTheFlagSays : Obligations.BranchesGoWhereTheFlagSays := by
  unfold Obligations.BranchesGoWhereTheFlagSays
  refine ⟨fun _ => ⟨rfl, rfl⟩, fun _ => ⟨rfl, rfl⟩, fun _ => ⟨rfl, rfl⟩, fun _ => ⟨rfl, rfl⟩, fun _ => ⟨rfl, rfl⟩,
    fun _ => ⟨rfl, rfl⟩, fun _ => ⟨rfl, rfl⟩, fun _ => ⟨rfl, rfl⟩, ?bcc, ?bcs, ?beq, ?bne, ?bmi, ?bpl, ?bvc, ?bvs⟩
  case bcc | bne | bpl | bvc => exact branchesOn_clear (fun _ _ => rfl) fun _ => rfl
  case bcs | beq | bmi | bvs => exact branchesOn_set (fun _ _ => rfl) fun _ => rfl

/-! ## JMP -/

/-- Settles O28: the rows by `encodedAs_of_rows`; what follows the resolver writes `PC` alone, and the resolver scratch
registers alone (`resolve_eq_scratch`). -/
theorem jmpGoesToTheEffectiveAddress : Obligations.JmpGoesToTheEffectiveAddress := by
  unfold Obligations.JmpGoesToTheEffectiveAddress
  refine ⟨encodedAs_of_rows (fun _ => ⟨rfl, rfl, rfl, rfl⟩) (by decide), fun o s crossed t hresolve => ?_⟩
  have hexec : exec (.jmp o) s = .next (t.setPc t.addressAbs) := andThen_eq_next.2 ⟨_, hresolve, rfl⟩
  rw [resolve_eq_scratch hresolve] at hexec
  exact runsTo_of_exec hexec rfl

/-! ## JSR and RTS -/

/-- JSR is the push of `PC - 1`, with the operand in `address_abs`, and the jump there (R270). -/
theorem exec_jsr_eq (w : Word) (s : State) :
    exec (.jsr w) s = andThen (push16 (s.pc - 1) ((s.setAddressAbs w).setPc (s.pc - 1))) fun t =>
      .next (t.setPc t.addressAbs) := rfl

/-- RTS is the pull of a word and the jump to the address after it (R271). -/
theorem exec_rts_eq (s : State) :
    exec .rts s = andThen (pull16 (s.setFetched s.a)) fun e => .next (e.2.setPc (e.1 + 1)) := rfl

/-- Settles O29: the push of `PC - 1` by `push16_holdsWrites`, from the state the resolver leaves. -/
theorem jsrPushesAndJumps : Obligations.JsrPushesAndJumps := by
  unfold Obligations.JsrPushesAndJumps
  refine ⟨fun w => ?encoded, rfl, fun w s hwf hfatal hhigh hlow => ?pushed⟩
  case encoded =>
    rw [lowByte_eq_lo, highByte_eq_hi]
    rfl
  case pushed =>
    obtain ⟨ds, hpush, hholds⟩ := push16_holdsWrites (t := (s.setAddressAbs w).setPc (s.pc - 1)) (HoldsWrites.nil hwf rfl)
      (s.pc - 1) hfatal hhigh hlow
    refine ⟨ds, ?_, (hholds.congr rfl).stored, hholds.config⟩
    rw [exec_jsr_eq, hpush]
    rfl

/-- Settles O30: the word pulled by `pull16_of_reads`, from the state the resolver leaves. -/
theorem rtsPullsAndReturns : Obligations.RtsPullsAndReturns := by
  unfold Obligations.RtsPullsAndReturns
  refine ⟨⟨rfl, rfl⟩, fun s t l h hreads => ?_⟩
  refine runsTo_of_exec ?_ rfl
  rw [exec_rts_eq, pull16_of_reads (u := s.setFetched s.a) hreads rfl rfl rfl]
  rfl

/-- Two bytes stored at two neighbouring stack locations are read back in the order of a pull, in every state with that
storage, since the two locations are two cells (`stackAddr_cell_inj`). -/
theorem reads_of_stored_stack {s t : State} {sp l h : Byte} (hfatal : t.fatal = none) (hconfig : configOf t = configOf s)
    (hstored : Stored s t [(stackAt (sp - 1), l), (stackAt sp, h)])
    (hhigh : storableAt (stackAt sp) s = true) (hlow : storableAt (stackAt (sp - 1)) s = true) :
    Reads t [(stackAt (sp - 1), l), (stackAt sp, h)] t := by
  have hcells : cellOf (stackAt sp) s ≠ cellOf (stackAt (sp - 1)) s := by
    intro heq
    rw [← stackAddr_eq_stackAt] at hhigh
    rw [← stackAddr_eq_stackAt, ← stackAddr_eq_stackAt] at heq
    have hsame := stackAddr_cell_inj hhigh heq
    bv_omega
  have hbyteLow : byteAt (stackAt (sp - 1)) t = some l := byteAt_of_stored_last hstored hlow
  have hbyteHigh : byteAt (stackAt sp) t = some h := byteAt_of_stored_before hstored hhigh hcells
  obtain ⟨l', hl', hreadLow⟩ := busRead_of_storable hfatal ((storableAt_congr hconfig _).trans hlow)
  obtain ⟨h', hh', hreadHigh⟩ := busRead_of_storable hfatal ((storableAt_congr hconfig _).trans hhigh)
  obtain rfl : l' = l := Option.some.inj (hl'.symm.trans hbyteLow)
  obtain rfl : h' = h := Option.some.inj (hh'.symm.trans hbyteHigh)
  exact ⟨t, hreadLow, t, hreadHigh, rfl⟩

/-- Settles O31: the bytes that JSR stored (`jsrPushesAndJumps`) are those that RTS reads (`reads_of_stored_stack`), so RTS
answers the word pushed, plus one (`rtsPullsAndReturns`). -/
theorem rtsUndoesJsr : Obligations.RtsUndoesJsr := by
  unfold Obligations.RtsUndoesJsr
  intro w pc s hwf hfatal hhigh hlow
  obtain ⟨ds, hjsr, hstored, hconfig⟩ :=
    jsrPushesAndJumps.2.2 w s hwf hfatal (servesAt_of_storable hhigh) (servesAt_of_storable hlow)
  have hsp₁ : s.sp - 2 + 1 = s.sp - 1 := by bv_omega
  have hsp₂ : s.sp - 2 + 2 = s.sp := BitVec.sub_add_cancel s.sp 2
  have hpc : s.pc - 1 + 1 = s.pc := BitVec.sub_add_cancel s.pc 1
  obtain ⟨hrts, -⟩ := rtsPullsAndReturns.2 { s with addressAbs := w, sp := s.sp - 2, pc := pc, devices := ds } _ _ _ (by
    rw [hsp₁, hsp₂]
    exact reads_of_stored_stack hfatal hconfig (stored_congr rfl rfl hstored) hhigh hlow)
  refine ⟨_, _, hjsr, rfl, hrts, ?pc, hsp₂, rfl, rfl, rfl, rfl⟩
  case pc => rw [wordOf_highByte_lowByte, hpc]

end Sys2Proof.Machine
end

section
/-! SUPPORT. What the exceptions and the stack instructions share: the flag bytes they push and leave, reads that give the same
bytes after other addresses were written, and the pushed bytes read back. -/

namespace Sys2Proof.Machine

open Sys2Proof.Claims Sys2Proof.Safety

/-! ## The flag bytes pushed, pulled and left in the register -/

/-- Writing `B` and `U`, as the pushes and pulls of `P` do (R282, R283, R285). -/
theorem flagsWritten_b_u (b u : Bool) (p : Byte) : FlagsWritten p (setFlag .u u (setFlag .b b p)) [(.b, b), (.u, u)] := by
  intro f
  simp only [getFlag_setFlag]
  cases f <;> rfl

/-- A pull of flags that were written into `p` gives them with `B` and `U` cleared (R285, R308). -/
theorem flagsWritten_pulled {p f : Byte} {written : List (Flag × Bool)} (h : FlagsWritten p f written) :
    FlagsWritten p (setFlag .u false (setFlag .b false f)) ((.b, false) :: (.u, false) :: written) := by
  intro g
  rw [flagsWritten_b_u, h g]
  cases g <;> rfl

/-- Bits 4 and 5 are `B` and `U` (R282). -/
theorem or_30_eq_setFlag (p : Byte) : p ||| 0x30 = setFlag .u true (setFlag .b true p) := (BitVec.or_assoc p 0x10 0x20).symm

/-- The flag byte in the register after an entry: `B` is cleared and `I` set after the push (R306). -/
def enteredFlags (kind : TrapKind) (p : Byte) : Byte := setFlag .i true (setFlag .b false (pushedFlags kind p))

theorem getFlag_pushedFlags (kind : TrapKind) (f : Flag) (p : Byte) :
    getFlag f (pushedFlags kind p) =
      if f = .u then true else if f = .b then decide (kind = .brk) else if f = .i ∧ kind = .brk then true else getFlag f p := by
  cases kind <;> simp [pushedFlags, getFlag_setFlag]

/-- BRK pushes `P` with `I`, `B` and `U` set (R284). -/
theorem flagsWritten_pushedFlags_brk (p : Byte) :
    FlagsWritten p (pushedFlags .brk p) [(.i, true), (.b, true), (.u, true)] := by
  intro f
  rw [getFlag_pushedFlags]
  cases f <;> rfl

/-- An interrupt pushes `P` with `B` clear, `U` set and `I` as it was (R302). -/
theorem flagsWritten_pushedFlags_of_ne_brk {kind : TrapKind} (hkind : kind ≠ .brk) (p : Byte) :
    FlagsWritten p (pushedFlags kind p) [(.b, false), (.u, true)] := by
  intro f
  simp only [getFlag_pushedFlags, hkind, and_false, if_false, decide_false]
  cases f <;> rfl

theorem flagsWritten_enteredFlags (kind : TrapKind) (p : Byte) :
    FlagsWritten p (enteredFlags kind p) [(.i, true), (.b, false), (.u, true)] := by
  intro f
  simp only [enteredFlags, getFlag_setFlag, getFlag_pushedFlags]
  cases f <;> rfl

/-- A flag written on a flag byte just loaded. -/
theorem setP_setFlag (f : Flag) (v : Bool) (p : Byte) (s : State) :
    (s.setP p).setFlag f v = s.setP (setFlag f v p) := rfl

/-- Loading the flag byte commutes with what a push changes. -/
theorem setP_setDevices (ds : List Device) (p : Byte) (s : State) :
    (s.setP p).setDevices ds = (s.setDevices ds).setP p := rfl

theorem setP_setSp (v p : Byte) (s : State) : (s.setP p).setSp v = (s.setSp v).setP p := rfl

/-! ## The same reads in another state -/

/-- Reads answer the same bytes in a state of the same configuration, mark and draw count that stores the same bytes there. -/
theorem reads_of_byteAt_eq {l : List (Word × Byte)} {s t u : State} (h : Reads s l t) (hconfig : configOf u = configOf s)
    (hfatal : u.fatal = s.fatal) (hdraws : u.draws = s.draws) (hbytes : ∀ e ∈ l, byteAt e.1 u = byteAt e.1 s) :
    Reads u l (u.setDraws t.draws) := by
  induction l generalizing s u with
  | nil =>
    obtain rfl := h
    rw [← hdraws]
    rfl
  | cons e rest ih =>
    obtain ⟨s1, hread, hrest⟩ := h
    obtain ⟨hhead, htail⟩ := List.forall_mem_cons.1 hbytes
    have hs1 := (busRead_state hread).1
    exact ⟨_, busRead_of_byteAt_eq hread hconfig hfatal hdraws hhead,
      ih (u := u.setDraws s1.draws) hrest (by rw [hs1]; exact hconfig) (by rw [hs1]; exact hfatal) rfl
        (by rw [hs1]; exact htail)⟩

/-- A word is read as the word of its two bytes, in every state that agrees on what the bus depends on (R153). -/
theorem read16_of_reads {a : Word} {l h : Byte} {s t u : State} (hreads : Reads s [(a, l), (a + 1, h)] t)
    (hdevices : u.devices = s.devices) (hfatal : u.fatal = s.fatal) (hdraws : u.draws = s.draws) :
    read16 a u = .next (wordOf h l, u.setDraws t.draws) := by
  have hconfig : configOf u = configOf s := by rw [configOf, hdevices, configOf]
  obtain ⟨s1, hlow, s2, hhigh, hs2⟩ := reads_of_byteAt_eq hreads hconfig hfatal hdraws fun e _ => byteAt_congr hdevices e.1
  exact read16_eq_next.2 ⟨l, s1, h, hlow, hs2 ▸ hhigh, (mk16_eq_wordOf h l).symm⟩

/-- Two served addresses are read, one after the other. -/
theorem reads_of_serves {a b : Word} {s : State} (hfatal : s.fatal = none) (ha : servesAt a s = true)
    (hb : servesAt b s = true) : ∃ l h t, Reads s [(a, l), (b, h)] t := by
  obtain ⟨l, s1, hlow⟩ := busRead_of_serves hfatal ha
  have hkeeps := busRead_keeps hlow
  obtain ⟨h, t, hhigh⟩ := busRead_of_serves (hkeeps.fatal.trans hfatal) ((servesAt_congr hkeeps.config b).trans hb)
  exact ⟨l, h, t, s1, hlow, t, hhigh, rfl⟩

/-- Where a read is answered there is no fatal mark (R70). -/
theorem fatal_eq_none_of_reads {l : List (Word × Byte)} {e : Word × Byte} {s t : State} (h : Reads s (e :: l) t) :
    s.fatal = none := by
  obtain ⟨s1, hread, -⟩ := h
  exact (busReadAs_cases hread).1

/-! ## Stored bytes: at other addresses, and read back -/

/-- An address whose cell no storing write names reads as before. -/
theorem byteAt_of_stored_ne {s t : State} {writes : List (Word × Byte)} {a : Word} (h : Stored s t writes)
    (hcells : ∀ w ∈ writes, storableAt w.1 s = true → cellOf a s ≠ cellOf w.1 s) : byteAt a t = byteAt a s := by
  have hnone : writes.find? (fun w => storableAt w.1 s && decide (cellOf a s = cellOf w.1 s)) = none := by
    simpa using hcells
  rw [h.1, hnone]

/-- Writes to different cells are all read back, where their addresses store. -/
theorem byteAt_of_stored_mem {s t : State} {writes : List (Word × Byte)} {w : Word × Byte} (h : Stored s t writes)
    (hcells : writes.Pairwise fun v w => cellOf w.1 s ≠ cellOf v.1 s) (hw : w ∈ writes) (hstores : storableAt w.1 s = true) :
    byteAt w.1 t = some w.2 := by
  obtain ⟨later, earlier, rfl⟩ := List.append_of_mem hw
  have hlater : ∀ v ∈ later, cellOf w.1 s ≠ cellOf v.1 s := fun v hv =>
    (List.pairwise_append.1 hcells).2.2 v hv w List.mem_cons_self
  have hnone : later.find? (fun v => storableAt v.1 s && decide (cellOf w.1 s = cellOf v.1 s)) = none := by
    simpa using fun a b hv _ => hlater (a, b) hv
  rw [h.1, List.find?_append, hnone, Option.none_or, List.find?_cons_of_pos (by simpa using hstores)]

/-- Bytes stored at addresses that store are what the bus answers there, and answering them changes nothing. -/
theorem reads_of_byteAt {l : List (Word × Byte)} {t : State} (hfatal : t.fatal = none)
    (hstores : ∀ e ∈ l, storableAt e.1 t = true) (hbytes : ∀ e ∈ l, byteAt e.1 t = some e.2) : Reads t l t := by
  induction l with
  | nil => rfl
  | cons e rest ih =>
    obtain ⟨hstore, hstores⟩ := List.forall_mem_cons.1 hstores
    obtain ⟨hbyte, hbytes⟩ := List.forall_mem_cons.1 hbytes
    obtain ⟨v, hv, hread⟩ := busRead_of_storable hfatal hstore
    obtain rfl : v = e.2 := Option.some.inj (hv.symm.trans hbyte)
    exact ⟨t, hread, ih hstores hbytes⟩

/-- Two stack locations that store are two cells (`stackAddr_cell_inj`). -/
theorem cellOf_stackAt_ne {s : State} {x y : Byte} (hx : storableAt (stackAt x) s = true) (hne : x ≠ y) :
    cellOf (stackAt x) s ≠ cellOf (stackAt y) s := by
  rw [← stackAddr_eq_stackAt] at hx
  rw [← stackAddr_eq_stackAt, ← stackAddr_eq_stackAt]
  exact fun heq => hne (stackAddr_cell_inj hx heq)

/-- A write to the stack leaves what a vector reads as (`stackAddr_cell_ne_vector`). -/
theorem byteAt_vector_of_stored {s t : State} {writes : List (Word × Byte)} {a : Word} (ha : 0xFFFA ≤ a.toNat)
    (h : Stored s t writes) (hstack : ∀ w ∈ writes, ∃ sp, w.1 = stackAt sp) : byteAt a t = byteAt a s := by
  refine byteAt_of_stored_ne h fun w hw hstores => ?_
  obtain ⟨sp, hsp⟩ := hstack w hw
  rw [hsp, ← stackAddr_eq_stackAt] at hstores ⊢
  exact stackAddr_cell_ne_vector ha hstores

/-- Both bytes of an entry's vector lie behind the stack (R95). -/
theorem toNat_vector (kind : TrapKind) : 0xFFFA ≤ kind.vector.toNat ∧ 0xFFFA ≤ (kind.vector + 1).toNat := by
  cases kind <;> decide

/-- An entry's vector reads after writes to the stack as it did before them. -/
theorem reads_vector_of_stored {kind : TrapKind} {l h : Byte} {s t u : State} {writes : List (Word × Byte)}
    (hreads : Reads s [(kind.vector, l), (kind.vector + 1, h)] t) (hconfig : configOf u = configOf s)
    (hfatal : u.fatal = s.fatal) (hdraws : u.draws = s.draws) (hstored : Stored s u writes)
    (hstack : ∀ w ∈ writes, ∃ sp, w.1 = stackAt sp) :
    Reads u [(kind.vector, l), (kind.vector + 1, h)] (u.setDraws t.draws) := by
  obtain ⟨hlow, hhigh⟩ := toNat_vector kind
  exact reads_of_byteAt_eq hreads hconfig hfatal hdraws (List.forall_mem_cons.2
    ⟨byteAt_vector_of_stored hlow hstored hstack, List.forall_mem_singleton.2 (byteAt_vector_of_stored hhigh hstored hstack)⟩)

/-- The three bytes that an entry pushed are read back in the order of the pulls of RTI. -/
theorem reads_of_stored_trap {s t : State} {sp f l h : Byte} (hfatal : t.fatal = none) (hconfig : configOf t = configOf s)
    (hstored : Stored s t [(stackAt (sp - 2), f), (stackAt (sp - 1), l), (stackAt sp, h)])
    (h₀ : storableAt (stackAt sp) s = true) (h₁ : storableAt (stackAt (sp - 1)) s = true)
    (h₂ : storableAt (stackAt (sp - 2)) s = true) :
    Reads t [(stackAt (sp - 2), f), (stackAt (sp - 1), l), (stackAt sp, h)] t := by
  have hstores : ∀ e ∈ [(stackAt (sp - 2), f), (stackAt (sp - 1), l), (stackAt sp, h)], storableAt e.1 s = true :=
    List.forall_mem_cons.2 ⟨h₂, List.forall_mem_cons.2 ⟨h₁, List.forall_mem_singleton.2 h₀⟩⟩
  have hcells : [(stackAt (sp - 2), f), (stackAt (sp - 1), l), (stackAt sp, h)].Pairwise
      fun v w => cellOf w.1 s ≠ cellOf v.1 s := by
    have h₁₂ : cellOf (stackAt (sp - 1)) s ≠ cellOf (stackAt (sp - 2)) s := cellOf_stackAt_ne h₁ (by bv_omega)
    have h₀₂ : cellOf (stackAt sp) s ≠ cellOf (stackAt (sp - 2)) s := cellOf_stackAt_ne h₀ (by bv_omega)
    have h₀₁ : cellOf (stackAt sp) s ≠ cellOf (stackAt (sp - 1)) s := cellOf_stackAt_ne h₀ (by bv_omega)
    exact .cons (List.forall_mem_cons.2 ⟨h₁₂, List.forall_mem_singleton.2 h₀₂⟩) (List.pairwise_pair.2 h₀₁)
  exact reads_of_byteAt hfatal (fun e he => (storableAt_congr hconfig _).trans (hstores e he))
    fun e he => byteAt_of_stored_mem hstored hcells he (hstores e he)

end Sys2Proof.Machine
end

section
/-! SUPPORT. Stack and system instructions (file 47 of spec/): taking an exception and returning from one. -/

namespace Sys2Proof.Machine

open Sys2Proof.Claims Sys2Proof.Safety

/-! ## The pushes and pulls of one byte -/

/-- A push onto a served stack location, made in any state with the storage and the mark of `s`, answers that state with `SP`
one less, but for the byte stored. -/
theorem answersStoring_push8 {s u : State} (v : Byte) (hwf : memoryWf s = true) (hfatal : u.fatal = none)
    (hdevices : u.devices = s.devices) (hserved : servesAt (stackAt u.sp) s = true) :
    AnswersStoring (push8 v u) s (u.setSp (u.sp - 1)) [(stackAt u.sp, v)] := by
  obtain ⟨ds, hpush, hholds⟩ := push8_holdsWrites (.nil hwf hdevices) v hfatal hserved
  exact ⟨ds, hpush, (hholds.congr rfl).stored, hholds.config⟩

/-- Settles O32: each is the one push of its byte (`answersStoring_push8`), from the state the resolver leaves; bits 4 and 5 are
`B` and `U` (`or_30_eq_setFlag`). -/
theorem pushesWriteTheStack : Obligations.PushesWriteTheStack := by
  unfold Obligations.PushesWriteTheStack
  refine ⟨⟨rfl, rfl⟩, ⟨rfl, rfl⟩, fun s hwf hfatal hserved => ?_⟩
  have hpush := fun v => answersStoring_push8 (u := s.setFetched s.a) v hwf hfatal rfl hserved
  refine ⟨hpush s.a, s.p ||| 0x30, ?_, hpush (s.p ||| 0x30)⟩
  rw [or_30_eq_setFlag]
  exact flagsWritten_b_u true true s.p

/-- PLA is a pull, with the byte in `A` and `Z`, `N` from it (R281). -/
theorem exec_pla_eq (s : State) :
    exec .pla s = andThen (pull8 (s.setFetched s.a)) fun e => .next ((e.2.setA e.1).setZN e.1) := rfl

/-- PLP is a pull, with the byte in `P` but for `B` and `U`, which are cleared (R283). -/
theorem exec_plp_eq (s : State) :
    exec .plp s = andThen (pull8 (s.setFetched s.a)) fun e =>
      .next (((e.2.setP e.1).setFlag .b false).setFlag .u false) := rfl

/-- Settles O33: the byte pulled by `pull8_of_busRead`, from the state the resolver leaves; the flags by
`flagsWritten_znFlags` and `flagsWritten_b_u`. -/
theorem pullsReadTheStack : Obligations.PullsReadTheStack := by
  unfold Obligations.PullsReadTheStack
  refine ⟨⟨rfl, rfl⟩, ⟨rfl, rfl⟩, fun s t m hread => ?_⟩
  have hpull := pull8_of_busRead (u := s.setFetched s.a) hread rfl rfl rfl
  refine ⟨⟨_, flagsWritten_znFlags m s.p, runsTo_of_exec ?pla rfl⟩,
    ⟨_, flagsWritten_b_u false false m, runsTo_of_exec ?plp rfl⟩⟩
  case pla =>
    rw [exec_pla_eq, hpull]
    rfl
  case plp =>
    rw [exec_plp_eq, hpull]
    rfl

/-! ## Taking an exception -/

/-- An entry from a state with the storage, mark and draw count of `s`, where the three stack locations are served and the
vector reads as `l` and `h`: the return address and the flags are stored, `SP` is three less, the register's flags are those of
an entry and `PC` is the vector's word (R306). -/
theorem answersStoring_takeTrap {kind : TrapKind} {ret : Word} {s t u : State} {l h : Byte} (hwf : memoryWf s = true)
    (hdevices : u.devices = s.devices) (hfatal : u.fatal = s.fatal) (hdraws : u.draws = s.draws)
    (h₀ : servesAt (stackAt u.sp) s = true) (h₁ : servesAt (stackAt (u.sp - 1)) s = true)
    (h₂ : servesAt (stackAt (u.sp - 2)) s = true) (hreads : Reads s [(kind.vector, l), (kind.vector + 1, h)] t) :
    AnswersStoring (takeTrap kind ret u) s
      { u with sp := u.sp - 3, p := enteredFlags kind u.p, pc := wordOf h l, draws := t.draws }
      [(stackAt (u.sp - 2), pushedFlags kind u.p), (stackAt (u.sp - 1), lowByte ret), (stackAt u.sp, highByte ret)] := by
  have hnone : u.fatal = none := hfatal.trans (fatal_eq_none_of_reads hreads)
  have hsp : u.sp - 2 - 1 = u.sp - 3 := by bv_omega
  obtain ⟨p, hp, hflags⟩ : ∃ p, (if kind = .brk then u.setFlag .i true else u) = u.setP p ∧
      setFlag .u true (setFlag .b (kind = .brk) p) = pushedFlags kind u.p :=
    ⟨if kind = .brk then setFlag .i true u.p else u.p, by split <;> rfl, rfl⟩
  obtain ⟨ds₁, hpush₁, hholds₁⟩ := push16_holdsWrites (t := u.setP p) (.nil hwf hdevices) ret hnone h₀ h₁
  obtain ⟨ds₂, hpush₂, hholds₂⟩ :=
    push8_holdsWrites (t := ((u.setDevices ds₁).setSp (u.sp - 2)).setP (pushedFlags kind u.p)) (hholds₁.congr rfl)
      (pushedFlags kind u.p) hnone h₂
  have hread := reads_vector_of_stored (u := u.setDevices ds₂) hreads hholds₂.config hfatal hdraws
    (hholds₂.congr rfl).stored (by simp)
  refine ⟨ds₂, ?_, (hholds₂.congr rfl).stored, hholds₂.config⟩
  rw [takeTrap, hp, hpush₁, andThen_next]
  simp only [setP_setDevices, setP_setSp, setP_setFlag, State.setP_p, State.setP_sp, hflags, hpush₂, andThen_next]
  rw [read16_of_reads hread, ← hsp] <;> rfl

/-- BRK is the entry with the address after its padding byte, `PC + 1`, as return address (R284). -/
theorem exec_brk_eq (s : State) : exec .brk s = takeTrap .brk (s.pc + 1) ((s.setFetched s.a).setPc (s.pc + 1)) := rfl

/-- Settles O34: the entry by `answersStoring_takeTrap`, from the state the resolver leaves. -/
theorem brkEntersThroughTheVector : Obligations.BrkEntersThroughTheVector := by
  unfold Obligations.BrkEntersThroughTheVector
  refine ⟨⟨rfl, rfl⟩, fun s t l h hwf h₀ h₁ h₂ hreads => ?_⟩
  refine ⟨_, _, flagsWritten_pushedFlags_brk s.p, flagsWritten_enteredFlags .brk s.p, ?_⟩
  rw [exec_brk_eq]
  exact answersStoring_takeTrap (u := (s.setFetched s.a).setPc (s.pc + 1)) hwf rfl rfl rfl h₀ h₁ h₂ hreads

/-! ## Returning from an exception -/

/-- A return pulls the flags, then the word of the two bytes above them, in every state that agrees on what the bus depends
on (R285). -/
theorem returnFromTrap_of_reads {s t u : State} {m l h : Byte}
    (hreads : Reads s [(stackAt (u.sp + 1), m), (stackAt (u.sp + 2), l), (stackAt (u.sp + 3), h)] t)
    (hfatal : u.fatal = s.fatal) (hdevices : u.devices = s.devices) (hdraws : u.draws = s.draws) :
    returnFromTrap u = .next ((((u.setSp (u.sp + 3)).setP (setFlag .u false (setFlag .b false m))).setDraws t.draws).setPc
      (wordOf h l)) := by
  have h₂ : u.sp + 1 + 1 = u.sp + 2 := add_one_add_one u.sp
  have h₃ : u.sp + 1 + 2 = u.sp + 3 := BitVec.add_assoc u.sp 1 2
  rw [← h₂, ← h₃] at hreads
  obtain ⟨s1, hread, hrest⟩ := hreads
  have hs1 := (busRead_state hread).1
  have hpull := pull16_of_reads
    (u := ((u.setSp (u.sp + 1)).setDraws s1.draws).setP (setFlag .u false (setFlag .b false m))) hrest
    (by rw [hs1]; exact hfatal) (by rw [hs1]; exact hdevices) rfl
  rw [returnFromTrap, pull8_of_busRead hread hfatal hdevices hdraws, andThen_next]
  dsimp only
  rw [setP_setFlag, setP_setFlag, hpull, ← h₃]
  rfl

/-- RTI is the return from an exception (R285). -/
theorem exec_rti_of_reads {s t : State} {m l h : Byte}
    (hreads : Reads s [(stackAt (s.sp + 1), m), (stackAt (s.sp + 2), l), (stackAt (s.sp + 3), h)] t) :
    exec .rti s = .next { s with
      fetched := s.a, sp := s.sp + 3, p := setFlag .u false (setFlag .b false m), pc := wordOf h l, draws := t.draws } :=
  returnFromTrap_of_reads (u := s.setFetched s.a) hreads rfl rfl rfl

/-- Settles O35: the bytes pulled by `exec_rti_of_reads`, the flags by `flagsWritten_b_u`. -/
theorem rtiRestoresFlagsAndPc : Obligations.RtiRestoresFlagsAndPc := by
  unfold Obligations.RtiRestoresFlagsAndPc
  refine ⟨⟨rfl, rfl⟩, fun s t m l h hreads => ?_⟩
  exact ⟨_, flagsWritten_b_u false false m, runsTo_of_exec (exec_rti_of_reads hreads) rfl⟩

/-- An RTI in a state that holds the three bytes pushed by an entry from `s` undoes the pushes: `PC` is the return address, `SP`
that of `s`, `P` the flags pushed with `B` and `U` cleared, and nothing else but `fetched` changes. -/
theorem exec_rti_of_stored_trap {s t : State} {f : Byte} {ret : Word} (hfatal : t.fatal = none)
    (hconfig : configOf t = configOf s) (hsp : t.sp = s.sp - 3)
    (hstored : Stored s t
      [(stackAt (s.sp - 2), f), (stackAt (s.sp - 1), lowByte ret), (stackAt s.sp, highByte ret)])
    (h₀ : storableAt (stackAt s.sp) s = true) (h₁ : storableAt (stackAt (s.sp - 1)) s = true)
    (h₂ : storableAt (stackAt (s.sp - 2)) s = true) :
    exec .rti t = .next { t with
      fetched := t.a, sp := s.sp, p := setFlag .u false (setFlag .b false f), pc := ret } := by
  have hsp₁ : t.sp + 1 = s.sp - 2 := by bv_omega
  have hsp₂ : t.sp + 2 = s.sp - 1 := by bv_omega
  have hsp₃ : t.sp + 3 = s.sp := by bv_omega
  have hreads := reads_of_stored_trap hfatal hconfig hstored h₀ h₁ h₂
  rw [← hsp₁, ← hsp₂] at hreads
  have hrti := exec_rti_of_reads (s := t) (hsp₃.symm ▸ hreads)
  rw [hsp₃, wordOf_highByte_lowByte] at hrti
  exact hrti

/-- Settles O36: BRK stored three bytes (`brkEntersThroughTheVector`), which RTI pulls (`exec_rti_of_stored_trap`). -/
theorem rtiUndoesBrk : Obligations.RtiUndoesBrk := by
  unfold Obligations.RtiUndoesBrk
  intro pc s hwf hfatal h₀ h₁ h₂ hlow hhigh
  obtain ⟨l, h, t, hreads⟩ := reads_of_serves hfatal hlow hhigh
  obtain ⟨f, q, hf, -, ds, hbrk, hstored, hconfig⟩ := brkEntersThroughTheVector.2 s t l h hwf (servesAt_of_storable h₀)
    (servesAt_of_storable h₁) (servesAt_of_storable h₂) hreads
  refine ⟨_, _, hbrk, exec_rti_of_stored_trap hfatal hconfig rfl (stored_congr rfl rfl hstored) h₀ h₁ h₂,
    rfl, rfl, rfl, rfl, rfl, fun g => ?_⟩
  rw [flagsWritten_pulled hf g]
  cases g <;> rfl

end Sys2Proof.Machine
end

section
/-! SUPPORT. Interrupts (file 60 of spec/), reset and program loading (file 70), and the fatal mark. -/

namespace Sys2Proof.Machine

open Sys2Proof.Claims Sys2Proof.Safety

/-! ## The interrupt request -/

/-- With the fatal mark set a request changes nothing (R310). -/
theorem interrupt_of_fatal {s : State} (h : s.fatal ≠ none) (nonMaskable : Bool) : interrupt nonMaskable s = .next s := by
  obtain ⟨f, hf⟩ := Option.ne_none_iff_exists'.1 h
  simp only [interrupt, hf]

/-- A maskable request with `I` = 1 changes nothing (R302). -/
theorem interrupt_masked {s : State} (h : getFlag .i s.p = true) : interrupt false s = .next s := by
  cases hf : s.fatal with
  | some f => exact interrupt_of_fatal (by simp [hf]) false
  | none => simp [interrupt, hf, h]

/-- Which entry a request makes (R302). -/
def requestKind (nonMaskable : Bool) : TrapKind := if nonMaskable then .nmi else .irq

theorem requestKind_ne_brk (nonMaskable : Bool) : requestKind nonMaskable ≠ .brk := by cases nonMaskable <;> decide

/-- A request that is taken is the entry with `PC` as return address, and then its cycle count (R302). -/
theorem interrupt_taken {nonMaskable : Bool} {s : State} (hfatal : s.fatal = none)
    (htaken : nonMaskable = true ∨ getFlag .i s.p = false) :
    interrupt nonMaskable s =
      andThen (takeTrap (requestKind nonMaskable) s.pc s) fun t => .next (t.setCycles (if nonMaskable then 8 else 7)) := by
  have hmask : (!nonMaskable && s.flag .i) = false := by
    obtain rfl | hi := htaken
    · rfl
    · rw [State.flag_eq, hi, Bool.and_false]
  simp only [interrupt, hfatal, hmask, requestKind, Bool.false_eq_true, if_false]

/-- What a taken request answers: the exact next state, with the bytes pushed and the flags named. -/
theorem answersStoring_interrupt {nonMaskable : Bool} {s t : State} {l h : Byte} (hwf : memoryWf s = true)
    (htaken : nonMaskable = true ∨ getFlag .i s.p = false)
    (h₀ : servesAt (stackAt s.sp) s = true) (h₁ : servesAt (stackAt (s.sp - 1)) s = true)
    (h₂ : servesAt (stackAt (s.sp - 2)) s = true)
    (hreads : Reads s [((requestKind nonMaskable).vector, l), ((requestKind nonMaskable).vector + 1, h)] t) :
    AnswersStoring (interrupt nonMaskable s) s
      { s with
        sp := s.sp - 3, p := enteredFlags (requestKind nonMaskable) s.p, pc := wordOf h l
        cycles := if nonMaskable then 8 else 7, draws := t.draws }
      [(stackAt (s.sp - 2), pushedFlags (requestKind nonMaskable) s.p), (stackAt (s.sp - 1), lowByte s.pc),
        (stackAt s.sp, highByte s.pc)] := by
  obtain ⟨ds, htrap, hstored, hconfig⟩ :=
    answersStoring_takeTrap (u := s) (ret := s.pc) hwf rfl rfl rfl h₀ h₁ h₂ hreads
  refine ⟨ds, ?_, stored_congr rfl rfl hstored, hconfig⟩
  rw [interrupt_taken (fatal_eq_none_of_reads hreads) htaken, htrap]
  rfl

/-- Settles O37: the mark by `interrupt_of_fatal`, the mask by `interrupt_masked`, the taken request by
`answersStoring_interrupt`. -/
theorem interruptsEnterThroughTheirVector : Obligations.InterruptsEnterThroughTheirVector := by
  unfold Obligations.InterruptsEnterThroughTheirVector
  intro nonMaskable s
  refine ⟨fun hfatal => interrupt_of_fatal hfatal nonMaskable, ?masked, ?taken⟩
  case masked =>
    rintro rfl hi
    exact interrupt_masked hi
  case taken =>
    intro t l h hwf h₀ h₁ h₂ htaken hreads
    refine ⟨_, _, flagsWritten_pushedFlags_of_ne_brk (requestKind_ne_brk nonMaskable) s.p,
      flagsWritten_enteredFlags (requestKind nonMaskable) s.p, answersStoring_interrupt hwf htaken h₀ h₁ h₂ ?_⟩
    cases nonMaskable <;> exact hreads

/-- Settles O39: the request stored three bytes (`answersStoring_interrupt`), which RTI pulls
(`exec_rti_of_stored_trap`). -/
theorem rtiUndoesAnInterrupt : Obligations.RtiUndoesAnInterrupt := by
  unfold Obligations.RtiUndoesAnInterrupt
  intro nonMaskable pc s hwf hfatal htaken h₀ h₁ h₂ hserved
  obtain ⟨l, h, t, hreads⟩ := reads_of_serves hfatal (hserved (requestKind nonMaskable).vector)
    (hserved ((requestKind nonMaskable).vector + 1))
  obtain ⟨ds, hinterrupt, hstored, hconfig⟩ := answersStoring_interrupt hwf htaken (servesAt_of_storable h₀)
    (servesAt_of_storable h₁) (servesAt_of_storable h₂) hreads
  refine ⟨_, _, hinterrupt, exec_rti_of_stored_trap hfatal hconfig rfl (stored_congr rfl rfl hstored) h₀ h₁ h₂,
    rfl, rfl, rfl, rfl, rfl, fun g => ?_⟩
  rw [flagsWritten_pulled (flagsWritten_pushedFlags_of_ne_brk (requestKind_ne_brk nonMaskable) s.p) g]
  cases g <;> rfl

/-- Settles O38: the request changes nothing (`interrupt_masked`), so the calls after it start from the same state. -/
theorem maskedRequestsAreDropped : Obligations.MaskedRequestsAreDropped := by
  unfold Obligations.MaskedRequestsAreDropped
  intro rp calls s hi
  have hact : hostAct rp (.interrupt false) s = s := by rw [hostAct, interrupt_masked hi, settle_next]
  rw [hostRun, List.foldl_cons, hact, hostRun]

/-! ## Reset -/

/-- What reset answers when the vector's two bytes are read: its own values in the registers, and no storage (R330). -/
theorem resetMachine_of_reads {rp : Config.ResetParams} {s t : State} {l h : Byte}
    (hreads : Reads s [(0xFFFC, l), (0xFFFD, h)] t) :
    resetMachine rp s = .next
      { s with
        a := rp.a, x := rp.x, y := rp.y, sp := 0xFD, p := setFlag .u true rp.pOther, fetched := 0, addressAbs := 0
        addressRel := 0, pc := wordOf h l, cycles := 8, draws := t.draws } := by
  have hfatal := fatal_eq_none_of_reads hreads
  unfold resetMachine
  split
  next f hmarked => exact absurd (hfatal.symm.trans hmarked) nofun
  next => exact andThen_eq_next.2 ⟨_, read16_of_reads (a := resetVector) hreads rfl rfl rfl, rfl⟩

/-- Settles O40: the registers by `resetMachine_of_reads`, bit 5 by `getFlag_setFlag`. -/
theorem resetInitialisesTheRegisters : Obligations.ResetInitialisesTheRegisters := by
  unfold Obligations.ResetInitialisesTheRegisters
  refine fun rp s => ⟨fun hfatal => ?marked, fun t l h hreads => ⟨_, fun f => ?flags, resetMachine_of_reads hreads⟩⟩
  case marked =>
    obtain ⟨f, hf⟩ := Option.ne_none_iff_exists'.1 hfatal
    simp only [resetMachine, hf]
  case flags =>
    rw [getFlag_setFlag]
    cases f <;> rfl

/-- Settles O41: in configuration FLAT the unlisted bytes of the vector read as 0 (`flatRamIsOneToOne`), and `State.reset` is
what `resetMachine_of_reads` gives. -/
theorem resetStateIsTheResultOfReset : Obligations.ResetStateIsTheResultOfReset := by
  unfold Obligations.ResetStateIsTheResultOfReset
  rintro s ⟨hfatal, hconnected⟩ htable hdevices hdraws
  have hread : ∀ a : Word, busRead a s = .next (0x00, s) := fun a =>
    (flatRamIsOneToOne s [] a 0x00 hfatal hdevices rfl).1
  refine ⟨?_, rfl, rfl, rfl, rfl⟩
  rw [resetMachine_of_reads ⟨s, hread 0xFFFC, s, hread 0xFFFD, rfl⟩]
  exact congrArg _ (State.ext rfl rfl rfl rfl rfl rfl rfl rfl rfl rfl hfatal htable hdevices hconnected hdraws)

/-- Settles O56: storage is well formed (`memoryWf_reset`), the flag byte is 0x20 and the count is 8. -/
theorem theInvariantHoldsAtReset : Obligations.TheInvariantHoldsAtReset :=
  ⟨memoryWf_reset, rfl, fun _ => Nat.le_refl 8⟩

/-! ## The fatal mark -/

/-- An action whose operation raises a fatal leaves the mark with its reason (R44, R310). -/
theorem hostAct_fatal_of_fault {rp : Config.ResetParams} {c : HostAction} {s : State} {f : Fault}
    (h : actionResult rp s c = .fault f) : (hostAct rp c s).fatal = some f := by
  rw [hostAct_eq_settle, h, settle_fault, State.setFatal_fatal]

/-- A read that raises a fatal raises it with its byte dropped. -/
theorem andThen_of_fault {α β : Type} {r : Result α} {f : Fault} (h : r = .fault f) (k : α → Result β) :
    andThen r k = .fault f := by
  rw [h, andThen_fault]

/-- A tick without a processor raises `NoProcessor` (R311). -/
theorem step_of_not_connected {s : State} (hfatal : s.fatal = none) (h : s.processorConnected = false) :
    step s = .fault .noProcessor := by
  simp [step, tick, hfatal, h]

/-- An opcode fetch from an address no device claims raises `NoDevice` of it (R70). -/
theorem step_of_unclaimed_pc {s : State} (hfatal : s.fatal = none) (hconnected : s.processorConnected = true)
    (hcycles : s.cycles = 0) (hnone : select s.devices s.pc .processor = none) : step s = .fault (.noDevice s.pc) := by
  have hread : busRead s.pc ((s.setAddressAbs 0x0000).setAddressRel 0x0000) = .fault (.noDevice s.pc) :=
    (access_of_select_none (s := (s.setAddressAbs 0x0000).setAddressRel 0x0000) hfatal hnone 0x00).1
  have hfetch : fetchByte ((s.setAddressAbs 0x0000).setAddressRel 0x0000) = .fault (.noDevice s.pc) :=
    andThen_of_fault hread _
  have hinstruction : instructionStep s = .fault (.noDevice s.pc) := andThen_of_fault (andThen_of_fault hfetch _) _
  rw [step_eq_instructionStep hfatal hconnected hcycles, hinstruction]
  rfl

/-- Settles O8: every action is one operation, settled (`hostAct_fatal_of_fault`); the reasons arise by `step_of_not_connected`,
`step_of_unclaimed_pc`, the mapper without a pattern bank (`pictureAccessesReachThePatternRegion`) and the construction's own
test of the mapper. -/
theorem raisedFatalsSetTheMark : Obligations.RaisedFatalsSetTheMark := by
  unfold Obligations.RaisedFatalsSetTheMark
  intro rp s hfatal
  refine ⟨fun f => ?raised, fun hconnected => ?noProcessor, fun hconnected hcycles hnone => ?noDevice, ?invalidMapperAccess,
    ?unknownMapper⟩
  case raised =>
    refine ⟨fun h => hostAct_fatal_of_fault h, fun h => hostAct_fatal_of_fault h, fun nmi h => hostAct_fatal_of_fault h,
      fun a v => ⟨fun h => ?_, fun h => hostAct_fatal_of_fault h, fun h => ?_, fun h => hostAct_fatal_of_fault h⟩⟩
    · exact hostAct_fatal_of_fault (andThen_of_fault h _)
    · exact hostAct_fatal_of_fault (andThen_of_fault h _)
  case noProcessor => exact hostAct_fatal_of_fault (step_of_not_connected hfatal hconnected)
  case noDevice => exact hostAct_fatal_of_fault (step_of_unclaimed_pc hfatal hconnected hcycles hnone)
  case invalidMapperAccess =>
    intro ram prg chr prgBanks writable a v hdevices ha
    obtain ⟨hread, hwrite⟩ :=
      (pictureAccessesReachThePatternRegion s ram prg chr prgBanks 0 writable a v hfatal hdevices).1 ha rfl
    exact ⟨hostAct_fatal_of_fault (andThen_of_fault hread _), hostAct_fatal_of_fault hwrite⟩
  case unknownMapper =>
    intro mapperId prgBanks chrBanks prgBankSize chrBankSize writable prgInit chrInit hmapper
    simp [addCartridge, hfatal, buildCartridge, hmapper]

/-! ## Program loading -/

/-- The host's raw write in configuration FLAT stores the byte and leaves configuration FLAT, with no mark (R74, R75). -/
theorem hostWrite_flat {s : State} {m : Memory} (hfatal : s.fatal = none) (hdevices : s.devices = flatDevices m) (a : Word)
    (v : Byte) : (hostWrite a v s).fatal = none ∧ (hostWrite a v s).devices = flatDevices (m.write a.toNat v) := by
  have hwrite := (access_of_cell hfatal (select_flat hdevices a) rfl v).2
  rw [hostWrite, accessWrite, hwrite, settle_next, hdevices]
  exact ⟨hfatal, rfl⟩

/-- The address before the first of a program is behind its end: only a longer program would wrap around to it. -/
theorem getElem?_sub_add_one_eq_none {program : List Byte} (h : program.length < 65536) (a : Word) :
    program[(a - (a + 1)).toNat]? = none := by
  have hlast : (a - (a + 1)).toNat = 65535 := by bv_omega
  rw [hlast]
  exact List.getElem?_eq_none (by omega)

/-- Every other address is one place nearer to the address after the first. -/
theorem toNat_sub_eq_succ {a b : Word} (h : b ≠ a) : (b - a).toNat = (b - (a + 1)).toNat + 1 := by bv_omega

/-- A loaded program reads back, and every other address reads as before (R336): by induction on the program, whose first byte
is stored before the rest and not reached by them. -/
theorem byteAt_loadProgram_flat {program : List Byte} {s : State} {m : Memory} {loadAddr : Word} (hfatal : s.fatal = none)
    (hdevices : s.devices = flatDevices m) (hm : m.wf = true) (hlength : program.length ≤ 65536) (b : Word) :
    byteAt b (loadProgram loadAddr program s) = program[(b - loadAddr).toNat]?.or (byteAt b s) := by
  induction program generalizing s m loadAddr with
  | nil => rfl
  | cons v rest ih =>
    have hrest : rest.length < 65536 := hlength
    obtain ⟨hfatal', hdevices'⟩ := hostWrite_flat hfatal hdevices loadAddr v
    rw [loadProgram, ih hfatal' hdevices' (Memory.wf_write hm _ _) hrest.le, byteAt_flat hdevices', Memory.read_write hm]
    obtain rfl | hb := eq_or_ne b loadAddr
    · rw [getElem?_sub_add_one_eq_none hrest, BitVec.sub_self]
      simp
    · have hoffset : b.toNat ≠ loadAddr.toNat := BitVec.toNat_inj.not.2 hb
      rw [toNat_sub_eq_succ hb, List.getElem?_cons_succ, if_neg hoffset, byteAt_flat hdevices]

/-- Settles O49: by `byteAt_loadProgram_flat`. -/
theorem loadedProgramsReadBack : Obligations.LoadedProgramsReadBack := by
  unfold Obligations.LoadedProgramsReadBack
  intro s m loadAddr program hfatal hdevices hm hlength b
  rw [byteAt_loadProgram_flat hfatal hdevices hm hlength]
  cases program[(b - loadAddr).toNat]? <;> rfl

end Sys2Proof.Machine
end
